-- ==== Sys2Proof/Word.lean ====
section
/-! DEFINITION. The word types of KATANA-CODEC (00_scope.md R8, R10, R11; 30_encoding.md R62).
All values are unsigned; exact arithmetic is done on `Nat` and narrowed where a container is written. -/

namespace Sys2Proof

/-- A byte, 0..255 (R10). -/
abbrev Byte := BitVec 8

/-- The 16-bit container of a region or an offset (R8, R62). -/
abbrev U16 := BitVec 16

/-- The 32-bit container of a size, a decoded value or a count (R8, R62, R63). -/
abbrev U32 := BitVec 32

/-- A list of bytes, index 0 first on the wire (R11, R62). -/
abbrev Bytes := List Byte

/-- A 14-bit field of a wire frame: a region or an offset (30_encoding.md R69). -/
abbrev U14 := BitVec 14

/-- A 28-bit field of a wire frame: a size (30_encoding.md R69). -/
abbrev U28 := BitVec 28

end Sys2Proof
end

