-- ==== Sys2Proof/Syntax.lean ====
section
/-! DEFINITION. Messages, request records and the instructions (00_scope.md R15; 30_encoding.md R60 to R65). -/

namespace Sys2Proof

/-- A message value: one of four variants, each with its own fields only (R15).
`fw = none` is the value `absent`. -/
inductive Msg where
  | idRequest  (dev : Byte)
  | idResponse (dev : Byte) (fw : Option Bytes)
  | query      (dev : Byte) (region offset : U16) (size : U32)
  | command    (dev : Byte) (region offset : U16) (data : Bytes)
  deriving DecidableEq, Repr

/-- One field of a message record, with its type (R65). -/
inductive Field where
  | bit   (b : Bool)
  | u16   (v : U16)
  | u32   (v : U32)
  | bytes (b : Bytes)
  deriving DecidableEq, Repr

/-- A `Msg` operand as it stands on the request port: the kind code, the device id and the fields (R65).
It may be malformed: the fields need not be those of the kind, and the kind need not be 0..3 (R64). -/
structure MsgRecord where
  kind   : Byte
  dev    : Byte
  fields : List Field
  deriving DecidableEq, Repr

/-- One operand of a request, with its type (R62). -/
inductive Operand where
  | byte   (b : Byte)
  | u16    (v : U16)
  | u32    (v : U32)
  | bytes  (b : Bytes)
  | groups (g : List Bytes)
  | msg    (m : MsgRecord)
  deriving DecidableEq, Repr

/-- A request as it stands on the request port, well formed or not.
`req` is the request record of R60. The other two are spellings of a `SERIALIZE` and of a `PARSE` request in the
formats REQ+MSGKIND and SYSEX of the opcode table (DESIGN CHOICE, log entry 3): `reqKind` names the message kind
beside the opcode, and `sysex` is a complete frame handed over to be parsed. -/
inductive Request where
  | req     (op : Byte) (operands : List Operand)
  | reqKind (op : Byte) (m : MsgRecord)
  | sysex   (frame : Bytes)
  deriving DecidableEq, Repr

/-- Why a request is illegal, in the order of the checks of R64. -/
inductive IllegalRequest where
  /-- R64 check 1: no operation has this opcode. -/
  | unassignedOp (op : Byte)
  /-- R64 check 2: an operand is missing, in excess or of the wrong type. -/
  | malformedOperands
  /-- R64 check 2: a list is longer than `MAX_LIST_LEN`. -/
  | listTooLong
  /-- R64 check 3: the message kind is not 0..3. -/
  | unknownMsgKind (kind : Byte)
  deriving DecidableEq, Repr

/-- The eighteen assigned opcodes (R61). -/
inductive Opcode where
  | dec7 | dec14 | dec28 | enc7 | enc14 | enc28
  | addrDec | addrEnc | isMutable | checksum
  | parse | serialize
  | patchNew | apply | writeBytes | getByte | getShort | getFxChain
  deriving DecidableEq, Repr

/-- The instructions: one constructor per row of the opcode table.
The first eighteen are the requests of R61. The `serialize…` constructors are the table's REQ+MSGKIND rows, the
dispatch of `SERIALIZE` on the message kind (R150 to R154). The `frame…` constructors are the table's SYSEX rows:
the frame formats of R67 to R70, which `PARSE` reads. -/
inductive Instr where
  | dec7       (b : Bytes)
  | dec14      (b : Bytes)
  | dec28      (b : Bytes)
  | enc7       (v : Byte)
  | enc14      (v : U16)
  | enc28      (v : U32)
  | addrDec    (b : Bytes)
  | addrEnc    (region offset : U16)
  | isMutable  (region : U16)
  | checksum   (g : List Bytes)
  | parse      (buf : Bytes)
  | serialize  (m : Msg)
  | patchNew   (sid enc : Byte)
  | apply      (sid : Byte) (m : Msg)
  | writeBytes (sid : Byte) (offset : U16) (data : Bytes)
  | getByte    (sid : Byte) (offset : U16)
  | getShort   (sid : Byte) (offset : U16)
  | getFxChain (sid : Byte)
  | serializeIdRequest  (dev : Byte)
  | serializeIdResponse (dev : Byte) (fw : Option Bytes)
  | serializeQuery      (dev : Byte) (region offset : U16) (size : U32)
  | serializeCommand    (dev : Byte) (region offset : U16) (data : Bytes)
  | frameIdReq   (dev : Byte)
  | frameIdResp  (dev fw0 fw1 fw2 fw3 : Byte)
  | frameQuery   (dev : Byte) (region offset : U14) (size : U28) (cks : Byte)
  | frameCommand (dev : Byte) (region offset : U14) (data : Bytes) (cks : Byte)
  deriving DecidableEq, Repr

end Sys2Proof
end

