-- ==== Sys2Proof/Machine/Rom.lean ====
section
/-! DEFINITION. The hardwired constants of the block (10_state.md R27 to R31, 00_scope.md R8) and the message
literals built from them (30_encoding.md R76). No operation writes a constant. -/

namespace Sys2Proof.Machine

/-- The greatest 7-bit value (00_scope.md R8). -/
def max7 : Nat := 127
/-- The greatest 14-bit value (R8). -/
def max14 : Nat := 16383
/-- The greatest 28-bit value, `2^28 - 1` (R8, 90_conflicts.md C1). -/
def max28 : Nat := 268435455

/-- The number of storage cells of a store (R8, R21). -/
def storageSize : Nat := 1040
/-- The greatest addressable device offset (R8, R28 (d)). -/
def maxOffset : Nat := 2326
/-- The storage offset of the FX chain (R8, R30). -/
def fxBase : Nat := 928
/-- The length of the FX chain (R8, R30). -/
def fxLen : Nat := 20

/-- One row of the boundary table: device addresses `beginAt ≤ a < endAt` are stored at `a - shift` (R27). -/
structure Boundary where
  beginAt : Nat
  endAt   : Nat
  shift   : Nat
  deriving DecidableEq, Repr

/-- The boundary table `BT[0..3]` (R27). -/
def boundaryTable : List Boundary :=
  [⟨0, 107, 0⟩, ⟨192, 1059, 85⟩, ⟨2064, 2107, 1090⟩, ⟨2304, 2327, 1287⟩]

/-- The mutable-region set `MUT` (R29). -/
def mutableRegions : List Nat := [2049, 2050, 2051, 2052, 12288]

/-- Start marker of a frame (R31). -/
def sox : Byte := 0xF0
/-- End marker of a frame (R31). -/
def eox : Byte := 0xF7
/-- Universal Non-realtime sub-id, the dialect byte of the identity messages (R31). -/
def univNrt : Byte := 0x7E
/-- General-information sub-id (R31). -/
def genInfo : Byte := 0x06
/-- Sub-selector of an identity request (R31). -/
def idReq : Byte := 0x01
/-- Sub-selector of an identity response (R31). -/
def idResp : Byte := 0x02
/-- Vendor id, the dialect byte of Query and Command (R31). -/
def vendorId : Byte := 0x41
/-- Model id (R31). -/
def modelId : Bytes := [0x00, 0x00, 0x00, 0x33]
/-- Family code (R31). -/
def familyCode : Bytes := [0x33, 0x03, 0x00, 0x00]
/-- The five-byte vendor and family signature (R31). -/
def idSig : Bytes := vendorId :: familyCode
/-- Sub-selector of a Query (R31). -/
def opQuery : Byte := 0x11
/-- Sub-selector of a Command (R31). -/
def opCommand : Byte := 0x12
/-- Default device id (R31). -/
def devDefault : Byte := 0x00
/-- Broadcast or any device id (R31). -/
def devBroadcast : Byte := 0x7F

/-- Pseudo-form `MakeIdRequest()` (R76). -/
def makeIdRequest : Msg := .idRequest devBroadcast
/-- Pseudo-form `MakeQuery(region, offset, size)` (R76). -/
def makeQuery (region offset : U16) (size : U32) : Msg := .query devDefault region offset size
/-- Pseudo-form `MakeCommand(region, offset, data)` (R76). -/
def makeCommand (region offset : U16) (data : Bytes) : Msg := .command devDefault region offset data

end Sys2Proof.Machine
end

