-- ==== Sys2Proof/Config.lean ====
section
/-! DEFINITION. The open parameters of the block (00_scope.md R9) and its free value.
They are constants without a body: nothing can be proved about their values beyond the bounds the spec gives. -/

namespace Sys2Proof.Config

/-- `N_STORES - 1`, open (R9, 92_eei_decisions.md D6; log entry 1). -/
opaque nStoresPred : Fin 256

/-- `N_STORES`, the number of store slots: any number with 1 ≤ `N_STORES` ≤ 256 (R9). -/
def nStores : Nat := nStoresPred.val + 1

/-- `SPARSE_ENCODING_ID`, the encoding identifier that selects the sparse store: open (R9, D7; log entry 1). -/
opaque sparseEncodingId : Byte

/-- `MAX_LIST_LEN - 18`, open (R9, D24; log entry 1). -/
opaque maxListLenExtra : Nat

/-- `MAX_LIST_LEN`, the greatest length of a list operand: any number that is at least 18 (R9). -/
def maxListLen : Nat := maxListLenExtra + 18

/-- The `U32` result field that stands for a count of 2^32 or more. 30_encoding.md R63 gives the counts of a
WriteStat a 32-bit container, R9 puts no upper bound on a list, and no rule says what the container holds then.
DESIGN CHOICE (log entry 8): a free value, which depends on the count. -/
opaque wideCount : Nat → U32

end Sys2Proof.Config
end

