-- ==== Sys2Proof/Machine/State.lean ====
section
/-! DEFINITION. The state of the block, its responses, and its state after reset (10_state.md R21, R22, R32;
30_encoding.md R60, R63; 60_exceptions.md R220, R221; 70_reset_and_hazards.md R250). -/

namespace Sys2Proof.Machine

/-- The status of a response: fifteen values (R220, 93_implementation_defined.md U16). -/
inductive Status where
  | ok | bounds | length | frameStart | frameEnd | unknownVendor | universalSubid | identityMismatch
  | modelMismatch | unknownOp | discardedOffset | unknownEncoding | missingPayload | noStore | illegalRequest
  deriving DecidableEq, Repr

/-- The diagnostic information of a response (R221). `value`, `len` and `addr` carry natural numbers, to which the
spec gives no width (log entry 10). -/
inductive Info where
  | none
  | value (v : Nat)
  | byte  (x : Byte)
  | len   (expected actual : Nat)
  | addr  (a : Nat)
  deriving DecidableEq, Repr

/-- The result record of a response (R63). -/
inductive Result where
  /-- No result: `PATCH_NEW`, and every response whose status is not `OK` (R60, R63). -/
  | none
  /-- `DEC7`, `DEC14`, `DEC28`. -/
  | value (v : U32)
  /-- `ENC7`, `ENC14`, `ENC28`, `ADDR_ENC`. -/
  | bytes (b : Bytes)
  /-- `ADDR_DEC`. -/
  | address (region offset : U16)
  /-- `IS_MUTABLE`. -/
  | isMutable (b : Bool)
  /-- `CHECKSUM`. -/
  | checksum (c : Byte)
  /-- `PARSE`. -/
  | msg (m : Msg)
  /-- `SERIALIZE`. -/
  | frame (b : Bytes)
  /-- `APPLY`, `WRITE_BYTES`: a WriteStat (00_scope.md R17). -/
  | writeStat (written discarded : U32)
  /-- `GET_BYTE`. -/
  | byteValue (v : Byte)
  /-- `GET_SHORT`. -/
  | shortValue (v : U16)
  /-- `GET_FX_CHAIN`. -/
  | values (v : Bytes)
  deriving DecidableEq, Repr

/-- A response (R60). `warn` is the advisory flag `CKSUM_WARN` (10_state.md R26). -/
structure Response where
  status : Status
  warn   : Bool
  info   : Info
  result : Result
  deriving DecidableEq, Repr

/-- One store slot: its status bit `alive[s]` (R22) and its storage `S[s]` (R21), which lists the cells that are
not 0 by storage offset, rising (`Memory` of Machine/Ops.lean). -/
structure Slot where
  alive : Bool
  cells : List Host.Cell
  deriving DecidableEq, Repr

/-- The state of the block and of its request port.
`slots` is all the state the block holds (R32). `requests` are the requests the host has issued and the block has
not taken yet, oldest first, and `responses` are the responses given so far, oldest first (R6, R255; log entry 4). -/
structure State where
  slots     : List Slot
  requests  : List Request
  responses : List Response
  deriving DecidableEq, Repr

/-- Why the machine would stop with a fault. It has no constructor: no condition of the block halts it (R223), and
the race of 93_implementation_defined.md U3 cannot arise behind a single port (R260; log entry 5). -/
inductive Fault : Type
  deriving DecidableEq, Repr

/-- Why an instruction would be refused. -/
inductive Refusal where
  /-- Raised by `exec` alone, for an instruction that has no meaning yet: safe. No arm raises it. -/
  | notModelled (mnemonic : String)
  deriving DecidableEq, Repr

/-- The state right after reset (R250): no slot is alive, no request is in progress and no response is pending.
The storage of a slot is unspecified then and cannot be observed; DESIGN CHOICE: it is 0 (log entry 2). -/
def State.reset : State where
  slots := List.replicate Config.nStores ⟨false, []⟩
  requests := []
  responses := []

end Sys2Proof.Machine
end

