-- ==== Sys2Proof/Machine/Ops.lean ====
section
/-! DEFINITION. The shared operations: ending an operation with its response, storage, slots, the address-mapping
lookup engine and the write walk (00_scope.md R12, R13; 20_memory.md R41; 43_patch_store.md R179, R182). -/

namespace Sys2Proof.Machine

/-! ## Ending an operation (00_scope.md R13, R14) -/

/-- `raise E(info)`: what a failing operation reports (R13). -/
structure Raise where
  status : Status
  info   : Info
  deriving DecidableEq, Repr

/-- What a completing operation returns: its result, and the advisory flag (R13). -/
structure Reply where
  warn   : Bool
  result : Result
  deriving DecidableEq, Repr

/-- `raise E(info)` inside a rule; the error propagates to the caller (R13, R14). -/
def raising {α : Type} (status : Status) (info : Info) : Except Raise α := .error ⟨status, info⟩

/-- `return r`: the flag is clear (R13). -/
def reply (r : Result) : Reply := ⟨false, r⟩

/-- The response of an operation that completes: status `OK`, info `NONE` (R13, R221). -/
def Response.ofReply (r : Reply) : Response := ⟨.ok, r.warn, .none, r.result⟩

/-- The response of an operation that fails: the flag is clear and there is no result (30_encoding.md R60). -/
def Response.ofRaise (e : Raise) : Response := ⟨e.status, false, e.info, .none⟩

/-- The block gives one response (00_scope.md R6). -/
def State.respond (s : State) (r : Response) : State := { s with responses := s.responses ++ [r] }

/-- Raising an error, the one thing that takes the place of an exception: the response carries the status and the
info, and the state is otherwise as before the request (R13, 60_exceptions.md R223, R224, R228). -/
def raise (s : State) (e : Raise) : State := s.respond (Response.ofRaise e)

/-- The state after an operation: on an error the state before it and the error's response, and otherwise the state
the operation leaves and its response (R13). -/
def complete (s : State) : Except Raise (State × Reply) → State
  | .error e => raise s e
  | .ok (t, r) => t.respond (Response.ofReply r)

/-- Ends an operation that may write the state (R13). -/
def finish (s : State) (outcome : Except Raise (State × Reply)) : Host.Outcome State Fault Refusal :=
  .next (complete s outcome)

/-- Ends an operation that writes no state (00_scope.md R18). -/
def answer (s : State) (outcome : Except Raise Reply) : Host.Outcome State Fault Refusal :=
  finish s (outcome.map fun r => (s, r))

/-! ## Storage (10_state.md R21, 00_scope.md R12) -/

/-- The storage of one slot: the cells that are not 0, by storage offset, rising. -/
abbrev Memory := List Host.Cell

namespace Memory

/-- What a cell that is not listed reads as. A store is created zero-filled (43_patch_store.md R180); that the storage
of a slot that is not alive reads as 0 too is a DESIGN CHOICE (log entry 2). -/
def unlisted : Byte := 0

/-- The canonical form: storage offsets strictly rise, and no listed cell reads as an unlisted one does. -/
abbrev Wf (m : Memory) : Prop := m.Pairwise (fun c d => c.1 < d.1) ∧ ∀ c ∈ m, c.2 ≠ unlisted

/-- Every listed cell is one of the 1040 cells of a store (R21). -/
abbrev InRange (m : Memory) : Prop := ∀ c ∈ m, c.1 < storageSize

/-- The canonical form, as a Boolean. -/
def wf (m : Memory) : Bool := decide (Wf m)

/-- The cell `S[s][i]` (R12). -/
def read : Memory → Nat → Byte
  | [], _ => unlisted
  | (k, b) :: m, i => if k = i then b else read m i

/-- A cell in canonical form: nothing where the byte is what an unlisted cell reads as. -/
def cell (i : Nat) (b : Byte) (m : Memory) : Memory := if b = unlisted then m else (i, b) :: m

/-- `S[s][i] <- b` (R12), keeping the canonical form. -/
def write : Memory → Nat → Byte → Memory
  | [], i, b => cell i b []
  | (k, c) :: m, i, b =>
    if i < k then cell i b ((k, c) :: m)
    else if i = k then cell i b m
    else (k, c) :: write m i b

/-- The storage of a store just created: `MemWrite(sid, 0, 1040, repeat(0x00, 1040))` leaves no cell that is not 0
(43_patch_store.md R180). -/
def zeroFill : Memory := []

end Memory

/-- `MemRead(s, i, n)` on the storage of a slot (R12). -/
def memRead (m : Memory) (i n : Nat) : Bytes := (List.range n).map fun k => m.read (i + k)

/-- `MemWrite(s, i, |v|, v)` on the storage of a slot (R12). -/
def memWrite (m : Memory) (i : Nat) : Bytes → Memory
  | [] => m
  | b :: bs => memWrite (m.write i b) (i + 1) bs

/-! ## Slots (10_state.md R21 to R23) -/

/-- `alive[sid]` (R22). A slot that does not exist is not alive. -/
def State.alive (s : State) (sid : Nat) : Bool :=
  match s.slots[sid]? with
  | some slot => slot.alive
  | none => false

/-- The storage `S[sid]` (R21). -/
def State.cells (s : State) (sid : Nat) : Memory :=
  match s.slots[sid]? with
  | some slot => slot.cells
  | none => []

/-- Writes the storage of a slot, and of no other (R23). -/
def State.setCells (s : State) (sid : Nat) (m : Memory) : State :=
  { s with slots := s.slots.modify sid fun slot => { slot with cells := m } }

/-- Zero-fills a slot's storage and sets its status bit, of no other slot (R22, R23, 43_patch_store.md R180). -/
def State.createSlot (s : State) (sid : Nat) : State :=
  { s with slots := s.slots.modify sid fun _ => ⟨true, Memory.zeroFill⟩ }

/-- `CheckSlot(sid)`, the first check of every store operation but `PATCH_NEW` (43_patch_store.md R179). -/
def checkSlot (s : State) (sid : Byte) : Except Raise Unit :=
  if Config.nStores ≤ sid.toNat ∨ s.alive sid.toNat = false then raising .noStore (.byte sid) else .ok ()

/-! ## The address-mapping lookup engine (20_memory.md R41) -/

/-- What `Translate` returns (R41). -/
inductive Translation where
  | mapped (t : Nat)
  | discarded
  deriving DecidableEq, Repr

/-- The scan of `Translate` over the rows from the cursor on (R41, 90_conflicts.md C3). -/
def translateIn : List Boundary → Nat → Translation
  | [], _ => .discarded
  | row :: rows, a =>
    if row.endAt ≤ a then translateIn rows a
    else if a < row.beginAt then .discarded
    else .mapped (a - row.shift)

/-- `Translate(a)` (R41). -/
def translateAddr (a : Nat) : Translation := translateIn boundaryTable a

/-! ## The write walk (43_patch_store.md R182) -/

/-- The variables of `WriteWalk` (R182): the cursor `k`, the input index `i`, the device address `a`, the two counts,
and the storage written so far. They live inside one operation only (10_state.md R25). -/
structure Walk where
  k         : Nat
  i         : Nat
  a         : Nat
  written   : Nat
  discarded : Nat
  cells     : Memory
  deriving DecidableEq, Repr

/-- The variables before the first pass (R182). -/
def walkStart (off : Nat) (m : Memory) : Walk := ⟨0, 0, off, 0, 0, m⟩

/-- One pass of the loop of `WriteWalk`, entered with `i < n` (R182). -/
def walkPass (data : Bytes) (w : Walk) : Walk :=
  match boundaryTable[w.k]? with
  | none => { w with discarded := w.discarded + (data.length - w.i), i := data.length }
  | some row =>
    if row.endAt ≤ w.a then { w with k := w.k + 1 }
    else if w.a < row.beginAt then
      let g := min (row.beginAt - w.a) (data.length - w.i)
      { w with discarded := w.discarded + g, i := w.i + g, a := w.a + g }
    else
      let r := min (data.length - w.i) (row.endAt - w.a)
      { w with
        cells := memWrite w.cells (w.a - row.shift) ((data.drop w.i).take r)
        written := w.written + r
        i := w.i + r
        a := w.a + r }

/-- At most `fuel` passes of the loop `while i < n` (R182). -/
def walkLoop (data : Bytes) : Nat → Walk → Walk
  | 0, w => w
  | fuel + 1, w => if w.i < data.length then walkLoop data fuel (walkPass data w) else w

/-- `WriteWalk(s, off, data)` on the storage `m` of a slot (R182). The loop runs at most `n + 4` times (R186 (d)). -/
def writeWalk (m : Memory) (off : Nat) (data : Bytes) : Walk :=
  walkLoop data (data.length + 4) (walkStart off m)

/-- A count in the `U32` container of a WriteStat (30_encoding.md R63). The container of a count of 2^32 or more is a
free value (log entry 8). -/
def countField (n : Nat) : U32 := if n < 2 ^ 32 then BitVec.ofNat 32 n else Config.wideCount n

/-- The WriteStat `{written, discarded}` (00_scope.md R17). -/
def writeStat (written discarded : Nat) : Reply := reply (.writeStat (countField written) (countField discarded))

/-- `return WriteWalk(sid, off, data)`: the walk on the storage of slot `sid` (R182). -/
def walkSlot (s : State) (sid : Byte) (off : U16) (data : Bytes) : State × Reply :=
  let w := writeWalk (s.cells sid.toNat) off.toNat data
  (s.setCells sid.toNat w.cells, writeStat w.written w.discarded)

end Sys2Proof.Machine
end

