-- ==== Sys2Proof/Machine/Operands.lean ====
section
/-! DEFINITION. The operand forms: list slices, the base-128 groups of a bounded integer, and the address model
(00_scope.md R11; 40_integer_codec.md section 1; 41_address_checksum.md R120, R121; 43_patch_store.md R181). -/

namespace Sys2Proof.Machine

/-- `b[i]` (R11). Every rule that uses it has checked that the index is inside the list. -/
def byteAt (b : Bytes) (i : Nat) : Byte := b.getD i 0

/-- `b[i..j)`, empty when `j ≤ i` (R11). -/
def slice (b : Bytes) (i j : Nat) : Bytes := (b.drop i).take (j - i)

/-- `Σ b[i] * 128^(k-1-i)` for a list of `k` bytes (40_integer_codec.md section 1, R106). -/
def base128 : Bytes → Nat
  | [] => 0
  | x :: xs => x.toNat * 128 ^ xs.length + base128 xs

/-- `DecodeK(k, b)` (40_integer_codec.md section 1): the length, then the byte values from the lowest index on
(R108). -/
def decodeK (k : Nat) (b : Bytes) : Except Raise Nat :=
  if b.length ≠ k then raising .length (.len k b.length)
  else
    match b.find? fun x => decide (127 < x.toNat) with
    | some x => raising .bounds (.byte x)
    | none => .ok (base128 b)

/-- `EncodeK(k, MAX, v)` (40_integer_codec.md section 1). -/
def encodeK (k max v : Nat) : Except Raise Bytes :=
  if max < v then raising .bounds (.value v)
  else .ok ((List.range k).map fun i => BitVec.ofNat 8 (v / 128 ^ (k - 1 - i) % 128))

/-- The function of `ADDR_DEC`: the region before the offset (41_address_checksum.md R120). -/
def addrDec (b : Bytes) : Except Raise (U16 × U16) :=
  if b.length ≠ 4 then raising .length (.len 4 b.length)
  else do
    let region ← decodeK 2 (slice b 0 2)
    let offset ← decodeK 2 (slice b 2 4)
    return (BitVec.ofNat 16 region, BitVec.ofNat 16 offset)

/-- The function of `ADDR_ENC`: the region before the offset (R121). -/
def addrEnc (region offset : U16) : Except Raise Bytes := do
  let r ← encodeK 2 max14 region.toNat
  let o ← encodeK 2 max14 offset.toNat
  return r ++ o

/-- The function of `IS_MUTABLE` (R122). -/
def isMutable (region : U16) : Bool := mutableRegions.contains region.toNat

/-- `PayloadLen(m)`, the payload length of a message that does not write (43_patch_store.md R181). -/
def payloadLen : Msg → Nat
  | .idRequest _ => 0
  | .idResponse _ none => 0
  | .idResponse _ (some fw) => fw.length
  | .query _ _ _ _ => 4
  | .command _ _ _ data => data.length

end Sys2Proof.Machine
end

