-- ==== Sys2Proof/Machine/Flags.lean ====
section
/-! DEFINITION. The checksum and the one flag-like output of the block, `CKSUM_WARN` (10_state.md R26;
41_address_checksum.md R123; 42_sysex_protocol.md R146). -/

namespace Sys2Proof.Machine

/-- The sum of every byte of every group (R123). -/
def groupsSum (g : List Bytes) : Nat := (g.map fun h => (h.map BitVec.toNat).sum).sum

/-- The function of `CHECKSUM`: `(128 - (s mod 128)) mod 128` (R123). -/
def checksumOf (g : List Bytes) : Byte := BitVec.ofNat 8 ((128 - groupsSum g % 128) % 128)

/-- What `PARSE` returns: a message, and the advisory flag beside it (R146, 90_conflicts.md C6). -/
structure Parsed where
  msg  : Msg
  warn : Bool
  deriving DecidableEq, Repr

/-- `CheckAndReturn`: `CKSUM_WARN` is set exactly when the embedded byte is not the checksum over the address bytes and
the payload, compared as raw 8-bit bytes (R146). -/
def checkAndReturn (m : Msg) (addr payload : Bytes) (embedded : Byte) : Parsed :=
  ⟨m, embedded != checksumOf [addr, payload]⟩

end Sys2Proof.Machine
end

