-- ==== Sys2Proof/Machine/Address.lean ====
section
/-! DEFINITION. The address model and the checksum: ADDR_DEC, ADDR_ENC, IS_MUTABLE, CHECKSUM
(41_address_checksum.md R120 to R123). None reads or writes the slots. -/

namespace Sys2Proof.Machine

/-- `ADDR_DEC` (R120). -/
def execAddrDec (b : Bytes) (s : State) : Host.Outcome State Fault Refusal :=
  answer s ((addrDec b).map fun a => reply (.address a.1 a.2))

/-- `ADDR_ENC` (R121). -/
def execAddrEnc (region offset : U16) (s : State) : Host.Outcome State Fault Refusal :=
  answer s ((addrEnc region offset).map fun b => reply (.bytes b))

/-- `IS_MUTABLE` (R122). -/
def execIsMutable (region : U16) (s : State) : Host.Outcome State Fault Refusal :=
  answer s (.ok (reply (.isMutable (isMutable region))))

/-- `CHECKSUM` (R123). -/
def execChecksum (g : List Bytes) (s : State) : Host.Outcome State Fault Refusal :=
  answer s (.ok (reply (.checksum (checksumOf g))))

end Sys2Proof.Machine
end

