-- ==== Sys2Proof/Machine/Codec.lean ====
section
/-! DEFINITION. The bounded-integer codec: DEC7, DEC14, DEC28, ENC7, ENC14, ENC28 (40_integer_codec.md R100 to
R105). None reads or writes the slots. -/

namespace Sys2Proof.Machine

/-- A decoded value in the `U32` container of R63. -/
def valueReply (v : Nat) : Reply := reply (.value (BitVec.ofNat 32 v))

/-- An encoded byte list (R63). -/
def bytesReply (b : Bytes) : Reply := reply (.bytes b)

/-- `DEC7` (R100). -/
def execDec7 (b : Bytes) (s : State) : Host.Outcome State Fault Refusal := answer s ((decodeK 1 b).map valueReply)

/-- `DEC14` (R101). -/
def execDec14 (b : Bytes) (s : State) : Host.Outcome State Fault Refusal := answer s ((decodeK 2 b).map valueReply)

/-- `DEC28` (R102). -/
def execDec28 (b : Bytes) (s : State) : Host.Outcome State Fault Refusal := answer s ((decodeK 4 b).map valueReply)

/-- `ENC7` (R103). -/
def execEnc7 (v : Byte) (s : State) : Host.Outcome State Fault Refusal :=
  answer s ((encodeK 1 max7 v.toNat).map bytesReply)

/-- `ENC14` (R104). -/
def execEnc14 (v : U16) (s : State) : Host.Outcome State Fault Refusal :=
  answer s ((encodeK 2 max14 v.toNat).map bytesReply)

/-- `ENC28` (R105). -/
def execEnc28 (v : U32) (s : State) : Host.Outcome State Fault Refusal :=
  answer s ((encodeK 4 max28 v.toNat).map bytesReply)

end Sys2Proof.Machine
end

