-- ==== Sys2Proof/Decode.lean ====
section
/-! DEFINITION. The request decoder, total on every request, and the encoder (30_encoding.md R61 to R73).
The decoder checks in the order of R64: the opcode, then the operand record's shape and list lengths, then the
message kind. The frame rows are read and written from the bit patterns of R67 to R70. -/

namespace Sys2Proof

open Machine

/-! ## Opcodes -/

/-- The opcode map of R61. -/
def opcodeTable : List (Byte × Opcode) :=
  [(0x01, .dec7), (0x02, .dec14), (0x03, .dec28), (0x04, .enc7), (0x05, .enc14), (0x06, .enc28),
   (0x08, .addrDec), (0x09, .addrEnc), (0x0A, .isMutable), (0x0B, .checksum),
   (0x10, .parse), (0x11, .serialize),
   (0x20, .patchNew), (0x21, .apply), (0x22, .writeBytes), (0x23, .getByte), (0x24, .getShort),
   (0x25, .getFxChain)]

/-- The operation an `op` byte names, none where it is unassigned (R61). -/
def opcodeOf (op : Byte) : Option Opcode := (opcodeTable.find? fun row => row.1 == op).map Prod.snd

/-- The `op` byte of an operation (R61). -/
def opcodeByte : Opcode → Byte
  | .dec7 => 0x01 | .dec14 => 0x02 | .dec28 => 0x03 | .enc7 => 0x04 | .enc14 => 0x05 | .enc28 => 0x06
  | .addrDec => 0x08 | .addrEnc => 0x09 | .isMutable => 0x0A | .checksum => 0x0B
  | .parse => 0x10 | .serialize => 0x11
  | .patchNew => 0x20 | .apply => 0x21 | .writeBytes => 0x22 | .getByte => 0x23 | .getShort => 0x24
  | .getFxChain => 0x25

/-! ## Frame fields -/

/-- A wire byte with bit 7 clear and the given seven low bits (R69). -/
def safeByte (v : BitVec 7) : Byte := v.setWidth 8

/-- The byte `0 followed by v[13:7]` (R69). -/
def msbByte (v : U14) : Byte := safeByte (v.extractLsb' 7 7)

/-- The byte `0 followed by v[6:0]` (R69). -/
def lsbByte (v : U14) : Byte := safeByte (v.extractLsb' 0 7)

/-- Bytes 8..11 of a vendor frame: region MSB, region LSB, offset MSB, offset LSB (R69). -/
def addressBytes (region offset : U14) : Bytes := [msbByte region, lsbByte region, msbByte offset, lsbByte offset]

/-- Bytes 12..15 of a Query frame: `size[27:21]`, `size[20:14]`, `size[13:7]`, `size[6:0]`, bit 7 clear (R69). -/
def sizeBytes (size : U28) : Bytes :=
  [safeByte (size.extractLsb' 21 7), safeByte (size.extractLsb' 14 7), safeByte (size.extractLsb' 7 7),
   safeByte (size.extractLsb' 0 7)]

/-- Bit 7 of a byte is clear: a 7-bit-safe byte (00_scope.md R10). -/
def isSafe (b : Byte) : Bool := !b.msb

/-- The 14-bit field whose MSB byte is `hi` and whose LSB byte is `lo` (R69, R74). -/
def field14 (hi lo : Byte) : U14 := hi.extractLsb' 0 7 ++ lo.extractLsb' 0 7

/-- The 28-bit field of four wire bytes, most significant first (R69, R74). -/
def field28 (b0 b1 b2 b3 : Byte) : U28 := field14 b0 b1 ++ field14 b2 b3

/-! ## The frame rows F-IDREQ, F-IDRESP, F-QUERY, F-COMMAND -/

/-- A 6-byte list in format F-IDREQ (R67). -/
def frameIdReqOf : Bytes → Option Instr
  | [b0, b1, dev, b3, b4, b5] =>
    if [b0, b1, b3, b4, b5] = [0xF0, 0x7E, 0x06, 0x01, 0xF7] then some (.frameIdReq dev) else none
  | _ => none

/-- A 15-byte list in format F-IDRESP (R68). -/
def frameIdRespOf : Bytes → Option Instr
  | [b0, b1, dev, b3, b4, b5, b6, b7, b8, b9, f0, f1, f2, f3, b14] =>
    if [b0, b1, b3, b4, b5, b6, b7, b8, b9, b14] = [0xF0, 0x7E, 0x06, 0x02, 0x41, 0x33, 0x03, 0x00, 0x00, 0xF7] then
      some (.frameIdResp dev f0 f1 f2 f3)
    else none
  | _ => none

/-- An 18-byte list in format F-QUERY (R69). -/
def frameQueryOf : Bytes → Option Instr
  | [b0, b1, dev, b3, b4, b5, b6, b7, r1, r0, o1, o0, s3, s2, s1, s0, cks, b17] =>
    if [b0, b1, b3, b4, b5, b6, b7, b17] = [0xF0, 0x41, 0x00, 0x00, 0x00, 0x33, 0x11, 0xF7]
        ∧ [r1, r0, o1, o0, s3, s2, s1, s0].all isSafe = true then
      some (.frameQuery dev (field14 r1 r0) (field14 o1 o0) (field28 s3 s2 s1 s0) cks)
    else none
  | _ => none

/-- A list of 14 or more bytes in format F-COMMAND (R70). -/
def frameCommandOf : Bytes → Option Instr
  | b0 :: b1 :: dev :: b3 :: b4 :: b5 :: b6 :: b7 :: r1 :: r0 :: o1 :: o0 :: rest =>
    match rest.reverse with
    | last :: cks :: dataReversed =>
      if [b0, b1, b3, b4, b5, b6, b7, last] = [0xF0, 0x41, 0x00, 0x00, 0x00, 0x33, 0x12, 0xF7]
          ∧ [r1, r0, o1, o0].all isSafe = true then
        some (.frameCommand dev (field14 r1 r0) (field14 o1 o0) dataReversed.reverse cks)
      else none
    | _ => none
  | _ => none

/-- The frame row a byte list is in the format of, none where it is in none (R72). -/
def frameRowOf (frame : Bytes) : Option Instr :=
  ((frameIdReqOf frame).or (frameIdRespOf frame)).or ((frameQueryOf frame).or (frameCommandOf frame))

/-- The bytes of a frame in format F-IDREQ (R67). -/
def frameIdReqBytes (dev : Byte) : Bytes := [0xF0, 0x7E, dev, 0x06, 0x01, 0xF7]

/-- The bytes of a frame in format F-IDRESP (R68). -/
def frameIdRespBytes (dev fw0 fw1 fw2 fw3 : Byte) : Bytes :=
  [0xF0, 0x7E, dev, 0x06, 0x02, 0x41, 0x33, 0x03, 0x00, 0x00, fw0, fw1, fw2, fw3, 0xF7]

/-- The bytes of a frame in format F-QUERY (R69). -/
def frameQueryBytes (dev : Byte) (region offset : U14) (size : U28) (cks : Byte) : Bytes :=
  [0xF0, 0x41, dev, 0x00, 0x00, 0x00, 0x33, 0x11] ++ addressBytes region offset ++ sizeBytes size ++ [cks, 0xF7]

/-- The bytes of a frame in format F-COMMAND (R70). -/
def frameCommandBytes (dev : Byte) (region offset : U14) (data : Bytes) (cks : Byte) : Bytes :=
  [0xF0, 0x41, dev, 0x00, 0x00, 0x00, 0x33, 0x12] ++ addressBytes region offset ++ data ++ [cks, 0xF7]

/-! ## Message records -/

/-- Accepts an operand whose list has `n` elements in all, unless it is longer than `MAX_LIST_LEN` (R64 check 2). -/
def limited {α : Type} (n : Nat) (a : α) : Except IllegalRequest α :=
  if n ≤ Config.maxListLen then .ok a else .error .listTooLong

/-- The message a message record stands for (R65). Fields that are not those of the kind are a malformed record
(R64 check 2). The `fw` field of a record with `fw_present = 0` is ignored, but it is still a list operand. A kind
above 3 is the last check (R64 check 3; log entry 9). -/
def decodeMsg (m : MsgRecord) : Except IllegalRequest Msg :=
  if m.kind = 0 then
    match m.fields with
    | [] => .ok (.idRequest m.dev)
    | _ => .error .malformedOperands
  else if m.kind = 1 then
    match m.fields with
    | [.bit present, .bytes fw] => limited fw.length (.idResponse m.dev (if present then some fw else none))
    | _ => .error .malformedOperands
  else if m.kind = 2 then
    match m.fields with
    | [.u16 region, .u16 offset, .u32 size] => .ok (.query m.dev region offset size)
    | _ => .error .malformedOperands
  else if m.kind = 3 then
    match m.fields with
    | [.u16 region, .u16 offset, .bytes data] => limited data.length (.command m.dev region offset data)
    | _ => .error .malformedOperands
  else .error (.unknownMsgKind m.kind)

/-- The message record of a message (R65). -/
def encodeMsg : Msg → MsgRecord
  | .idRequest dev => ⟨0, dev, []⟩
  | .idResponse dev none => ⟨1, dev, [.bit false, .bytes []]⟩
  | .idResponse dev (some fw) => ⟨1, dev, [.bit true, .bytes fw]⟩
  | .query dev region offset size => ⟨2, dev, [.u16 region, .u16 offset, .u32 size]⟩
  | .command dev region offset data => ⟨3, dev, [.u16 region, .u16 offset, .bytes data]⟩

/-! ## Operand records -/

/-- One `Bytes` operand (R62). -/
def takeBytes (mk : Bytes → Instr) : List Operand → Except IllegalRequest Instr
  | [.bytes b] => limited b.length (mk b)
  | _ => .error .malformedOperands

/-- A slot index and a device offset (R62). -/
def takeSidOffset (mk : Byte → U16 → Instr) : List Operand → Except IllegalRequest Instr
  | [.byte sid, .u16 offset] => .ok (mk sid offset)
  | _ => .error .malformedOperands

/-- The instruction of an assigned opcode and its operand record (R62, R64 checks 2 and 3). -/
def decodeOperands (o : Opcode) (operands : List Operand) : Except IllegalRequest Instr :=
  match o with
  | .dec7 => takeBytes .dec7 operands
  | .dec14 => takeBytes .dec14 operands
  | .dec28 => takeBytes .dec28 operands
  | .enc7 =>
    match operands with
    | [.byte v] => .ok (.enc7 v)
    | _ => .error .malformedOperands
  | .enc14 =>
    match operands with
    | [.u16 v] => .ok (.enc14 v)
    | _ => .error .malformedOperands
  | .enc28 =>
    match operands with
    | [.u32 v] => .ok (.enc28 v)
    | _ => .error .malformedOperands
  | .addrDec => takeBytes .addrDec operands
  | .addrEnc =>
    match operands with
    | [.u16 region, .u16 offset] => .ok (.addrEnc region offset)
    | _ => .error .malformedOperands
  | .isMutable =>
    match operands with
    | [.u16 region] => .ok (.isMutable region)
    | _ => .error .malformedOperands
  | .checksum =>
    match operands with
    | [.groups g] => limited (g.map List.length).sum (.checksum g)
    | _ => .error .malformedOperands
  | .parse => takeBytes .parse operands
  | .serialize =>
    match operands with
    | [.msg m] => (decodeMsg m).map .serialize
    | _ => .error .malformedOperands
  | .patchNew =>
    match operands with
    | [.byte sid, .byte enc] => .ok (.patchNew sid enc)
    | _ => .error .malformedOperands
  | .apply =>
    match operands with
    | [.byte sid, .msg m] => (decodeMsg m).map (.apply sid)
    | _ => .error .malformedOperands
  | .writeBytes =>
    match operands with
    | [.byte sid, .u16 offset, .bytes data] => limited data.length (.writeBytes sid offset data)
    | _ => .error .malformedOperands
  | .getByte => takeSidOffset .getByte operands
  | .getShort => takeSidOffset .getShort operands
  | .getFxChain =>
    match operands with
    | [.byte sid] => .ok (.getFxChain sid)
    | _ => .error .malformedOperands

/-- The SERIALIZE row of a message's kind (R150). -/
def serializeRowOf : Msg → Instr
  | .idRequest dev => .serializeIdRequest dev
  | .idResponse dev fw => .serializeIdResponse dev fw
  | .query dev region offset size => .serializeQuery dev region offset size
  | .command dev region offset data => .serializeCommand dev region offset data

/-- The request decoder: total, checking in the order of R64. A REQ+MSGKIND request is of the table's rows only with
the opcode of `SERIALIZE`. A SYSEX request is the frame row it is in the format of, and otherwise the `PARSE` that
reports what is wrong with it (R73; log entry 3). -/
def decode : Request → Except IllegalRequest Instr
  | .req op operands =>
    match opcodeOf op with
    | none => .error (.unassignedOp op)
    | some o => decodeOperands o operands
  | .reqKind op m =>
    match opcodeOf op with
    | none => .error (.unassignedOp op)
    | some .serialize => (decodeMsg m).map serializeRowOf
    | some _ => .error .malformedOperands
  | .sysex frame => limited frame.length ((frameRowOf frame).getD (.parse frame))

/-! ## The encoder -/

/-- The request record of an operation (R60). -/
def request (o : Opcode) (operands : List Operand) : Request := .req (opcodeByte o) operands

/-- The request that stands for an instruction (R60 to R73). -/
def encode : Instr → Request
  | .dec7 b => request .dec7 [.bytes b]
  | .dec14 b => request .dec14 [.bytes b]
  | .dec28 b => request .dec28 [.bytes b]
  | .enc7 v => request .enc7 [.byte v]
  | .enc14 v => request .enc14 [.u16 v]
  | .enc28 v => request .enc28 [.u32 v]
  | .addrDec b => request .addrDec [.bytes b]
  | .addrEnc region offset => request .addrEnc [.u16 region, .u16 offset]
  | .isMutable region => request .isMutable [.u16 region]
  | .checksum g => request .checksum [.groups g]
  | .parse buf => request .parse [.bytes buf]
  | .serialize m => request .serialize [.msg (encodeMsg m)]
  | .patchNew sid enc => request .patchNew [.byte sid, .byte enc]
  | .apply sid m => request .apply [.byte sid, .msg (encodeMsg m)]
  | .writeBytes sid offset data => request .writeBytes [.byte sid, .u16 offset, .bytes data]
  | .getByte sid offset => request .getByte [.byte sid, .u16 offset]
  | .getShort sid offset => request .getShort [.byte sid, .u16 offset]
  | .getFxChain sid => request .getFxChain [.byte sid]
  | .serializeIdRequest dev => .reqKind (opcodeByte .serialize) (encodeMsg (.idRequest dev))
  | .serializeIdResponse dev fw => .reqKind (opcodeByte .serialize) (encodeMsg (.idResponse dev fw))
  | .serializeQuery dev region offset size =>
    .reqKind (opcodeByte .serialize) (encodeMsg (.query dev region offset size))
  | .serializeCommand dev region offset data =>
    .reqKind (opcodeByte .serialize) (encodeMsg (.command dev region offset data))
  | .frameIdReq dev => .sysex (frameIdReqBytes dev)
  | .frameIdResp dev fw0 fw1 fw2 fw3 => .sysex (frameIdRespBytes dev fw0 fw1 fw2 fw3)
  | .frameQuery dev region offset size cks => .sysex (frameQueryBytes dev region offset size cks)
  | .frameCommand dev region offset data cks => .sysex (frameCommandBytes dev region offset data cks)

/-! ## The opcode table's numbering (log entry 6) -/

/-- The message fields of a kind with every bit 0 (R65). -/
def zeroFields (kind : Byte) : List Field :=
  if kind = 1 then [.bit false, .bytes []]
  else if kind = 2 then [.u16 0, .u16 0, .u32 0]
  else if kind = 3 then [.u16 0, .u16 0, .bytes []]
  else []

/-- The operand record of an operation with every bit 0: lists are empty, and a message is of kind 0 (R62). -/
def zeroOperands : Opcode → List Operand
  | .dec7 | .dec14 | .dec28 | .addrDec | .parse => [.bytes []]
  | .enc7 | .getFxChain => [.byte 0]
  | .enc14 | .isMutable => [.u16 0]
  | .enc28 => [.u32 0]
  | .addrEnc => [.u16 0, .u16 0]
  | .checksum => [.groups []]
  | .serialize => [.msg ⟨0, 0, []⟩]
  | .patchNew => [.byte 0, .byte 0]
  | .apply => [.byte 0, .msg ⟨0, 0, []⟩]
  | .writeBytes => [.byte 0, .u16 0, .bytes []]
  | .getByte | .getShort => [.byte 0, .u16 0]

/-- The first `n` bytes of a table word, bit 0 being the least significant bit of the first byte. -/
def tableBytes : Nat → Nat → Bytes
  | 0, _ => []
  | n + 1, w => BitVec.ofNat 8 w :: tableBytes n (w / 256)

/-- The request whose bits the opcode table numbers `w`, with `nbits` bits given and every further bit 0.
One byte is the opcode of a request whose operand record is all zeros. More bytes are a SYSEX frame where the first is
the start marker, the kind and device id of a message where the first is the opcode of `SERIALIZE`, and else a request
with the remaining bytes as its one `Bytes` operand. DESIGN CHOICE (log entry 6). -/
def tableRequest (nbits w : Nat) : Request :=
  match tableBytes (nbits / 8) w with
  | [] => .req 0 []
  | [op] => .req op (((opcodeOf op).map zeroOperands).getD [])
  | op :: next :: rest =>
    if op = sox then .sysex (op :: next :: rest)
    else if op = opcodeByte .serialize then .reqKind op ⟨next, rest.headD 0, zeroFields next⟩
    else .req op [.bytes (next :: rest)]

/-- The instruction the decoder reads from an instruction of the opcode table whose bits are `w`. -/
def decodeTableWord (nbits w : Nat) : Option Instr :=
  match decode (tableRequest nbits w) with
  | .ok i => some i
  | .error _ => none

end Sys2Proof
end

