-- ==== Sys2Proof/Machine/Protocol.lean ====
section
/-! DEFINITION. The SysEx frame unit: PARSE and its frame rows, SERIALIZE and its message-kind rows
(42_sysex_protocol.md R140 to R154). None reads or writes the slots. -/

namespace Sys2Proof.Machine

/-! ## PARSE -/

/-- `ParseIdResponse` (R142). -/
def parseIdResponse (buf : Bytes) : Except Raise Parsed :=
  if buf.length ≠ 15 then raising .length (.len 15 buf.length)
  else if slice buf 5 10 ≠ idSig then raising .identityMismatch .none
  else .ok ⟨.idResponse (byteAt buf 2) (some (slice buf 10 14)), false⟩

/-- `ParseUniversal` (R141). -/
def parseUniversal (buf : Bytes) : Except Raise Parsed :=
  if byteAt buf 3 ≠ genInfo then raising .universalSubid (.byte (byteAt buf 3))
  else if byteAt buf 4 = idReq then
    if buf.length ≠ 6 then raising .length (.len 6 buf.length)
    else .ok ⟨.idRequest (byteAt buf 2), false⟩
  else if byteAt buf 4 = idResp then parseIdResponse buf
  else raising .unknownOp (.byte (byteAt buf 4))

/-- `ParseQuery` (R144). -/
def parseQuery (dev : Byte) (region offset : U16) (payload : Bytes) : Except Raise Msg := do
  let size ← decodeK 4 payload
  return .query dev region offset (BitVec.ofNat 32 size)

/-- `ParseCommand` (R145). -/
def parseCommand (dev : Byte) (region offset : U16) (payload : Bytes) : Except Raise Msg :=
  .ok (.command dev region offset payload)

/-- `ParseVendor` (R143). -/
def parseVendor (buf : Bytes) : Except Raise Parsed :=
  let n := buf.length
  if n < 14 then raising .length (.len 14 n)
  else if slice buf 3 7 ≠ modelId then raising .modelMismatch .none
  else
    let sel := byteAt buf 7
    if sel ≠ opQuery ∧ sel ≠ opCommand then raising .unknownOp (.byte sel)
    else do
      let address ← addrDec (slice buf 8 12)
      let payload := slice buf 12 (n - 2)
      let m ← if sel = opQuery then parseQuery (byteAt buf 2) address.1 address.2 payload
        else parseCommand (byteAt buf 2) address.1 address.2 payload
      return checkAndReturn m (slice buf 8 12) payload (byteAt buf (n - 2))

/-- The function of `PARSE`: framing, then the dialect (R140). -/
def parseFrame (buf : Bytes) : Except Raise Parsed :=
  let n := buf.length
  if n = 0 ∨ byteAt buf 0 ≠ sox then raising .frameStart .none
  else if byteAt buf (n - 1) ≠ eox then raising .frameEnd .none
  else if n < 6 then raising .length (.len 6 n)
  else if byteAt buf 1 = univNrt then parseUniversal buf
  else if byteAt buf 1 = vendorId then parseVendor buf
  else raising .unknownVendor (.byte (byteAt buf 1))

/-- The response of a parse: the message, with `CKSUM_WARN` beside it (R146). -/
def parsedReply (p : Parsed) : Reply := ⟨p.warn, .msg p.msg⟩

/-- `PARSE` (R140 to R146). -/
def execParse (buf : Bytes) (s : State) : Host.Outcome State Fault Refusal :=
  answer s ((parseFrame buf).map parsedReply)

/-- A frame in format F-IDREQ is parsed (R141). -/
def execFrameIdReq (dev : Byte) (s : State) : Host.Outcome State Fault Refusal :=
  answer s (.ok (reply (.msg (.idRequest dev))))

/-- A frame in format F-IDRESP is parsed (R142). -/
def execFrameIdResp (dev fw0 fw1 fw2 fw3 : Byte) (s : State) : Host.Outcome State Fault Refusal :=
  answer s (.ok (reply (.msg (.idResponse dev (some [fw0, fw1, fw2, fw3])))))

/-- A frame in format F-QUERY is parsed: its fields, and the checksum compared (R144, R146). -/
def execFrameQuery (dev : Byte) (region offset : U14) (size : U28) (cks : Byte) (s : State) :
    Host.Outcome State Fault Refusal :=
  answer s (.ok (parsedReply
    (checkAndReturn (.query dev (region.setWidth 16) (offset.setWidth 16) (size.setWidth 32))
      (addressBytes region offset) (sizeBytes size) cks)))

/-- A frame in format F-COMMAND is parsed: its fields, and the checksum compared (R145, R146). -/
def execFrameCommand (dev : Byte) (region offset : U14) (data : Bytes) (cks : Byte) (s : State) :
    Host.Outcome State Fault Refusal :=
  answer s (.ok (parsedReply
    (checkAndReturn (.command dev (region.setWidth 16) (offset.setWidth 16) data)
      (addressBytes region offset) data cks)))

/-! ## SERIALIZE -/

/-- The IdRequest kind (R151). -/
def serIdRequest (dev : Byte) : Except Raise Bytes := .ok [sox, univNrt, dev, genInfo, idReq, eox]

/-- `SER_IDRESP` (R152). -/
def serIdResponse (dev : Byte) : Option Bytes → Except Raise Bytes
  | none => raising .missingPayload .none
  | some fw =>
    if fw.length ≠ 4 then raising .length (.len 4 fw.length)
    else .ok ([sox, univNrt, dev, genInfo, idResp] ++ idSig ++ fw ++ [eox])

/-- `SER_QUERY`: the address before the size (R153). -/
def serQuery (dev : Byte) (region offset : U16) (size : U32) : Except Raise Bytes := do
  let a ← addrEnc region offset
  let sz ← encodeK 4 max28 size.toNat
  return [sox, vendorId, dev] ++ modelId ++ [opQuery] ++ a ++ sz ++ [checksumOf [a, sz], eox]

/-- `SER_CMD` (R154). -/
def serCommand (dev : Byte) (region offset : U16) (data : Bytes) : Except Raise Bytes := do
  let a ← addrEnc region offset
  return [sox, vendorId, dev] ++ modelId ++ [opCommand] ++ a ++ data ++ [checksumOf [a, data], eox]

/-- The function of `SERIALIZE`: the dispatch on the message kind (R150). -/
def serializeMsg : Msg → Except Raise Bytes
  | .idRequest dev => serIdRequest dev
  | .idResponse dev fw => serIdResponse dev fw
  | .query dev region offset size => serQuery dev region offset size
  | .command dev region offset data => serCommand dev region offset data

/-- A serialized frame (30_encoding.md R63). -/
def frameReply (b : Bytes) : Reply := reply (.frame b)

/-- `SERIALIZE` (R150). -/
def execSerialize (m : Msg) (s : State) : Host.Outcome State Fault Refusal :=
  answer s ((serializeMsg m).map frameReply)

/-- `SERIALIZE` of an IdRequest (R151). -/
def execSerializeIdRequest (dev : Byte) (s : State) : Host.Outcome State Fault Refusal :=
  answer s ((serIdRequest dev).map frameReply)

/-- `SERIALIZE` of an IdResponse (R152). -/
def execSerializeIdResponse (dev : Byte) (fw : Option Bytes) (s : State) : Host.Outcome State Fault Refusal :=
  answer s ((serIdResponse dev fw).map frameReply)

/-- `SERIALIZE` of a Query (R153). -/
def execSerializeQuery (dev : Byte) (region offset : U16) (size : U32) (s : State) :
    Host.Outcome State Fault Refusal :=
  answer s ((serQuery dev region offset size).map frameReply)

/-- `SERIALIZE` of a Command (R154). -/
def execSerializeCommand (dev : Byte) (region offset : U16) (data : Bytes) (s : State) :
    Host.Outcome State Fault Refusal :=
  answer s ((serCommand dev region offset data).map frameReply)

end Sys2Proof.Machine
end

