-- ==== Sys2Proof/Machine/Store.lean ====
section
/-! DEFINITION. The sparse patch store: PATCH_NEW, APPLY, WRITE_BYTES, GET_BYTE, GET_SHORT, GET_FX_CHAIN
(43_patch_store.md R180 to R185). Every `raise` comes before the first write (00_scope.md R13). -/

namespace Sys2Proof.Machine

/-! ## Factory and write path -/

/-- The function of `PATCH_NEW`: the index, then the encoding identifier (R180). -/
def patchNew (s : State) (sid enc : Byte) : Except Raise (State × Reply) :=
  if Config.nStores ≤ sid.toNat then raising .noStore (.byte sid)
  else if enc ≠ Config.sparseEncodingId then raising .unknownEncoding (.byte enc)
  else .ok (s.createSlot sid.toNat, reply .none)

/-- What `APPLY` does after the slot check (R181): only a Command to a mutable region writes. -/
def applyMsg (s : State) (sid : Byte) (m : Msg) : State × Reply :=
  match m with
  | .command _ region offset data =>
    if isMutable region then walkSlot s sid offset data else (s, writeStat 0 (payloadLen m))
  | _ => (s, writeStat 0 (payloadLen m))

/-- `PATCH_NEW` (R180). -/
def execPatchNew (sid enc : Byte) (s : State) : Host.Outcome State Fault Refusal := finish s (patchNew s sid enc)

/-- `APPLY` (R181). -/
def execApply (sid : Byte) (m : Msg) (s : State) : Host.Outcome State Fault Refusal :=
  finish s ((checkSlot s sid).map fun _ => applyMsg s sid m)

/-- `WRITE_BYTES` (R182): no mutability test (20_memory.md R43). -/
def execWriteBytes (sid : Byte) (offset : U16) (data : Bytes) (s : State) : Host.Outcome State Fault Refusal :=
  finish s ((checkSlot s sid).map fun _ => walkSlot s sid offset data)

/-! ## Readers -/

/-- The storage offset of a device offset, or `DISCARDED_OFFSET` (R183, R184). -/
def storageOf (a : Nat) : Except Raise Nat :=
  match translateAddr a with
  | .mapped t => .ok t
  | .discarded => raising .discardedOffset (.addr a)

/-- The range check of a reader's offset (R183, R184). -/
def checkOffset (offset : U16) : Except Raise Unit :=
  if maxOffset < offset.toNat then raising .bounds (.addr offset.toNat) else .ok ()

/-- The function of `GET_BYTE` (R183). -/
def getByte (s : State) (sid : Byte) (offset : U16) : Except Raise Reply := do
  checkSlot s sid
  checkOffset offset
  let t ← storageOf offset.toNat
  let v ← decodeK 1 (memRead (s.cells sid.toNat) t 1)
  return reply (.byteValue (BitVec.ofNat 8 v))

/-- The function of `GET_SHORT`: the MSB at `offset`, the LSB at `offset + 1`, each translated on its own (R184). -/
def getShort (s : State) (sid : Byte) (offset : U16) : Except Raise Reply := do
  checkSlot s sid
  checkOffset offset
  let t0 ← storageOf offset.toNat
  let t1 ← storageOf (offset.toNat + 1)
  let v ← decodeK 2 (memRead (s.cells sid.toNat) t0 1 ++ memRead (s.cells sid.toNat) t1 1)
  return reply (.shortValue (BitVec.ofNat 16 v))

/-- The 7-bit check of a list of stored bytes, from the lowest index on (R185). -/
def checkSafe (v : Bytes) : Except Raise Bytes :=
  match v.find? fun x => decide (127 < x.toNat) with
  | some x => raising .bounds (.byte x)
  | none => .ok v

/-- The function of `GET_FX_CHAIN`: a storage range, read without `Translate` (R185). -/
def getFxChain (s : State) (sid : Byte) : Except Raise Reply := do
  checkSlot s sid
  let v ← checkSafe (memRead (s.cells sid.toNat) fxBase fxLen)
  return reply (.values v)

/-- `GET_BYTE` (R183). -/
def execGetByte (sid : Byte) (offset : U16) (s : State) : Host.Outcome State Fault Refusal :=
  answer s (getByte s sid offset)

/-- `GET_SHORT` (R184). -/
def execGetShort (sid : Byte) (offset : U16) (s : State) : Host.Outcome State Fault Refusal :=
  answer s (getShort s sid offset)

/-- `GET_FX_CHAIN` (R185). -/
def execGetFxChain (sid : Byte) (s : State) : Host.Outcome State Fault Refusal := answer s (getFxChain s sid)

end Sys2Proof.Machine
end

