-- ==== Sys2Proof/Machine/Dispatch.lean ====
section
/-! DEFINITION. One arm per instruction: its meaning. -/

namespace Sys2Proof.Machine

def exec (i : Instr) (s : State) : Host.Outcome State Fault Refusal :=
  match i with
  | .dec7 b => Sys2Proof.Machine.execDec7 b s
  | .dec14 b => Sys2Proof.Machine.execDec14 b s
  | .dec28 b => Sys2Proof.Machine.execDec28 b s
  | .enc7 v => Sys2Proof.Machine.execEnc7 v s
  | .enc14 v => Sys2Proof.Machine.execEnc14 v s
  | .enc28 v => Sys2Proof.Machine.execEnc28 v s
  | .addrDec b => Sys2Proof.Machine.execAddrDec b s
  | .addrEnc region offset => Sys2Proof.Machine.execAddrEnc region offset s
  | .isMutable region => Sys2Proof.Machine.execIsMutable region s
  | .checksum g => Sys2Proof.Machine.execChecksum g s
  | .parse buf => Sys2Proof.Machine.execParse buf s
  | .serialize m => Sys2Proof.Machine.execSerialize m s
  | .patchNew sid enc => Sys2Proof.Machine.execPatchNew sid enc s
  | .apply sid m => Sys2Proof.Machine.execApply sid m s
  | .writeBytes sid offset data => Sys2Proof.Machine.execWriteBytes sid offset data s
  | .getByte sid offset => Sys2Proof.Machine.execGetByte sid offset s
  | .getShort sid offset => Sys2Proof.Machine.execGetShort sid offset s
  | .getFxChain sid => Sys2Proof.Machine.execGetFxChain sid s
  | .serializeIdRequest dev => Sys2Proof.Machine.execSerializeIdRequest dev s
  | .serializeIdResponse dev fw => Sys2Proof.Machine.execSerializeIdResponse dev fw s
  | .serializeQuery dev region offset size => Sys2Proof.Machine.execSerializeQuery dev region offset size s
  | .serializeCommand dev region offset data => Sys2Proof.Machine.execSerializeCommand dev region offset data s
  | .frameIdReq dev => Sys2Proof.Machine.execFrameIdReq dev s
  | .frameIdResp dev fw0 fw1 fw2 fw3 => Sys2Proof.Machine.execFrameIdResp dev fw0 fw1 fw2 fw3 s
  | .frameQuery dev region offset size cks => Sys2Proof.Machine.execFrameQuery dev region offset size cks s
  | .frameCommand dev region offset data cks => Sys2Proof.Machine.execFrameCommand dev region offset data cks s

end Sys2Proof.Machine
end

