-- ==== Sys2Proof/Machine/Port.lean ====
section
/-! DEFINITION. The request port: taking the next request, answering an illegal one, the host's issuing of a request,
and the status codes (00_scope.md R6; 30_encoding.md R64; 60_exceptions.md R220; 70_reset_and_hazards.md R254). -/

namespace Sys2Proof.Machine

/-- The next request the block takes, and the state after it is taken; none where the port is empty (R6). -/
def fetchRequest (s : State) : Option (Request × State) :=
  match s.requests with
  | [] => none
  | r :: rest => some (r, { s with requests := rest })

/-- What an illegal request reports: `ILLEGAL_REQUEST`, with the opcode when that is unassigned
(R64, 60_exceptions.md R221). -/
def illegalRaise : IllegalRequest → Raise
  | .unassignedOp op => ⟨.illegalRequest, .byte op⟩
  | .malformedOperands => ⟨.illegalRequest, .none⟩
  | .listTooLong => ⟨.illegalRequest, .none⟩
  | .unknownMsgKind _ => ⟨.illegalRequest, .none⟩

/-- The host issues a request: it joins the end of the sequence (R254, 20_memory.md R50). -/
def State.issue (s : State) (r : Request) : State := { s with requests := s.requests ++ [r] }

/-- The 8-bit code of a status (60_exceptions.md R220). -/
def statusCode : Status → Byte
  | .ok => 0x00 | .bounds => 0x01 | .length => 0x02 | .frameStart => 0x03 | .frameEnd => 0x04
  | .unknownVendor => 0x05 | .universalSubid => 0x06 | .identityMismatch => 0x07 | .modelMismatch => 0x08
  | .unknownOp => 0x09 | .discardedOffset => 0x0A | .unknownEncoding => 0x0B | .missingPayload => 0x0C
  | .noStore => 0x0D | .illegalRequest => 0x0E

/-- The request is put where the next step takes its request. -/
def placeRequest (s : State) (r : Request) : State := { s with requests := r :: s.requests }

end Sys2Proof.Machine
end

