-- ==== Sys2Proof/Machine/Step.lean ====
section
/-! DEFINITION. One step of the block: it performs the next request (00_scope.md R6, R7). -/

namespace Sys2Proof.Machine

/-- One step. With no request waiting the block is idle and keeps its state (60_exceptions.md R239; log entry 7).
An illegal request gets its `ILLEGAL_REQUEST` response and reaches no operation (30_encoding.md R64). A legal one is
taken off the port and performed (00_scope.md R6). -/
def step (s : State) : Host.Outcome State Fault Refusal :=
  match fetchRequest s with
  | none => .next s
  | some (r, t) =>
    match decode r with
    | .error e => .next (raise t (illegalRaise e))
    | .ok i => exec i t

/-- The state in which the instruction of the opcode table whose bits are `w` is the next request taken
(log entries 4 and 6). -/
def State.withFetchWord (s : State) (nbits w : Nat) : State := placeRequest s (tableRequest nbits w)

end Sys2Proof.Machine
end

