-- ==== Sys2Proof/WellFormed.lean ====
section
/-! DEFINITION. Well-formed instructions: every list operand obeys `MAX_LIST_LEN` (30_encoding.md R62).
The types of the operands already fix their widths. -/

namespace Sys2Proof

/-- A list of `n` elements in all is accepted by the request port (R62, 00_scope.md R9). -/
def listFits (n : Nat) : Bool := decide (n ≤ Config.maxListLen)

/-- Every byte list a message carries obeys `MAX_LIST_LEN` (R62, R65). -/
def Msg.wellFormed : Msg → Bool
  | .idRequest _            => true
  | .idResponse _ none      => true
  | .idResponse _ (some fw) => listFits fw.length
  | .query _ _ _ _          => true
  | .command _ _ _ data     => listFits data.length

/-- The length of all groups together, which R62 bounds. -/
def groupsLength (g : List Bytes) : Nat := (g.map List.length).sum

/-- Every list operand of an instruction obeys `MAX_LIST_LEN`: a `Groups` operand in its total length, a frame in
its length as a byte list (R62). -/
def Instr.wellFormed : Instr → Bool
  | .dec7 b               => listFits b.length
  | .dec14 b              => listFits b.length
  | .dec28 b              => listFits b.length
  | .enc7 _               => true
  | .enc14 _              => true
  | .enc28 _              => true
  | .addrDec b            => listFits b.length
  | .addrEnc _ _          => true
  | .isMutable _          => true
  | .checksum g           => listFits (groupsLength g)
  | .parse buf            => listFits buf.length
  | .serialize m          => m.wellFormed
  | .patchNew _ _         => true
  | .apply _ m            => m.wellFormed
  | .writeBytes _ _ data  => listFits data.length
  | .getByte _ _          => true
  | .getShort _ _         => true
  | .getFxChain _         => true
  | .serializeIdRequest _               => true
  | .serializeIdResponse dev fw         => (Msg.idResponse dev fw).wellFormed
  | .serializeQuery _ _ _ _             => true
  | .serializeCommand _ _ _ data        => listFits data.length
  | .frameIdReq _                       => listFits 6
  | .frameIdResp _ _ _ _ _              => listFits 15
  | .frameQuery _ _ _ _ _               => listFits 18
  | .frameCommand _ _ _ data _          => listFits (14 + data.length)

end Sys2Proof
end

