-- ==== Sys2Proof/Safety.lean ====
section
/-! DEFINITION. The terms the claims use: the machine's invariant, well-formed responses and requests, the slot an
instruction is on, and states that differ only where the host cannot look. -/

namespace Sys2Proof.Machine

/-! ## The invariant -/

/-- The invariant of the block: there are `N_STORES` slots (10_state.md R21), and the storage of each is in canonical
form and lists only cells 0..1039. -/
def State.Inv (s : State) : Prop :=
  s.slots.length = Config.nStores ∧ ∀ slot ∈ s.slots, Memory.Wf slot.cells ∧ Memory.InRange slot.cells

/-! ## Responses -/

/-- The response of an operation that returns `r` with the flag clear (00_scope.md R13). -/
def okResponse (r : Result) : Response := ⟨.ok, false, .none, r⟩

/-- The response of a parse: the message, with the given advisory flag (42_sysex_protocol.md R146). -/
def msgResponse (warn : Bool) (m : Msg) : Response := ⟨.ok, warn, .none, .msg m⟩

/-- The response of an operation that raises `status(info)` (00_scope.md R13, 30_encoding.md R60). -/
def errorResponse (status : Status) (info : Info) : Response := ⟨status, false, info, .none⟩

/-- The response that carries the WriteStat `{written, discarded}` (30_encoding.md R63). -/
def statResponse (written discarded : Nat) : Response :=
  okResponse (.writeStat (countField written) (countField discarded))

/-- `i` completes at `s` with the response `r` and changes nothing else: no slot and no waiting request. -/
def Answers (i : Instr) (s : State) (r : Response) : Prop :=
  exec i s = .next { s with responses := s.responses ++ [r] }

/-- The results have the ranges of 30_encoding.md R63. -/
def Result.InRange : Result → Prop
  | .none => True
  | .value v => v.toNat ≤ 268435455
  | .bytes b => b.length = 1 ∨ b.length = 2 ∨ b.length = 4
  | .address _ _ => True
  | .isMutable _ => True
  | .checksum c => c.toNat ≤ 127
  | .msg _ => True
  | .frame _ => True
  | .writeStat _ _ => True
  | .byteValue v => v.toNat ≤ 127
  | .shortValue v => v.toNat ≤ 16383
  | .values v => v.length = 20 ∧ ∀ x ∈ v, x.toNat ≤ 127

/-- The message is a Query or a Command: one whose frame carries a checksum (42_sysex_protocol.md R142, R146). -/
def Msg.hasChecksum : Msg → Bool
  | .idRequest _ => false
  | .idResponse _ _ => false
  | .query _ _ _ _ => true
  | .command _ _ _ _ => true

/-- A response as 30_encoding.md R60, R63 and 60_exceptions.md R221 shape it: an error carries no flag and no result,
a success no info, a set flag stands beside a Query or a Command, and a result is in its range. -/
def Response.Wf (r : Response) : Prop :=
  (r.status ≠ .ok → r.warn = false ∧ r.result = .none) ∧
  (r.status = .ok → r.info = .none) ∧
  (r.warn = true → ∃ m, r.result = .msg m ∧ Msg.hasChecksum m = true) ∧
  r.result.InRange

/-! ## Requests -/

/-- The fields a message record of a kind has (30_encoding.md R65), with lists the port accepts (R62). -/
def fieldsFit (kind : Byte) (fields : List Field) : Prop :=
  (kind = 0 ∧ fields = []) ∨
  (kind = 1 ∧ ∃ present fw, fields = [.bit present, .bytes fw] ∧ fw.length ≤ Config.maxListLen) ∨
  (kind = 2 ∧ ∃ region offset size, fields = [.u16 region, .u16 offset, .u32 size]) ∨
  (kind = 3 ∧ ∃ region offset data, fields = [.u16 region, .u16 offset, .bytes data] ∧
    data.length ≤ Config.maxListLen)

/-- A byte-list operand the port accepts (30_encoding.md R62). -/
def isBytes (operands : List Operand) : Prop :=
  ∃ b, operands = [.bytes b] ∧ b.length ≤ Config.maxListLen

/-- The operand record of an opcode: operands of its types, with lists the port accepts and a message whose fields are
those of its kind 0..3 (30_encoding.md R62, R64, R65). -/
def operandsFit (o : Opcode) (operands : List Operand) : Prop :=
  match o with
  | .dec7 | .dec14 | .dec28 | .addrDec | .parse => isBytes operands
  | .enc7 => ∃ v, operands = [.byte v]
  | .enc14 => ∃ v, operands = [.u16 v]
  | .enc28 => ∃ v, operands = [.u32 v]
  | .addrEnc => ∃ region offset, operands = [.u16 region, .u16 offset]
  | .isMutable => ∃ region, operands = [.u16 region]
  | .checksum => ∃ g, operands = [.groups g] ∧ (g.map List.length).sum ≤ Config.maxListLen
  | .serialize => ∃ m, operands = [.msg m] ∧ fieldsFit m.kind m.fields
  | .patchNew => ∃ sid enc, operands = [.byte sid, .byte enc]
  | .apply => ∃ sid m, operands = [.byte sid, .msg m] ∧ fieldsFit m.kind m.fields
  | .writeBytes => ∃ sid offset data, operands = [.byte sid, .u16 offset, .bytes data] ∧
      data.length ≤ Config.maxListLen
  | .getByte | .getShort => ∃ sid offset, operands = [.byte sid, .u16 offset]
  | .getFxChain => ∃ sid, operands = [.byte sid]

/-! ## Instructions and slots -/

/-- The slot an instruction is on; none for the codec, address, checksum and frame operations (00_scope.md R18). -/
def slotOf : Instr → Option Byte
  | .patchNew sid _ => some sid
  | .apply sid _ => some sid
  | .writeBytes sid _ _ => some sid
  | .getByte sid _ => some sid
  | .getShort sid _ => some sid
  | .getFxChain sid => some sid
  | .dec7 _ | .dec14 _ | .dec28 _ | .enc7 _ | .enc14 _ | .enc28 _ => none
  | .addrDec _ | .addrEnc _ _ | .isMutable _ | .checksum _ => none
  | .parse _ | .serialize _ => none
  | .serializeIdRequest _ | .serializeIdResponse _ _ | .serializeQuery _ _ _ _ | .serializeCommand _ _ _ _ => none
  | .frameIdReq _ | .frameIdResp _ _ _ _ _ | .frameQuery _ _ _ _ _ | .frameCommand _ _ _ _ _ => none

/-- Two slots the host cannot tell apart: both alive with the same storage, or both not alive
(70_reset_and_hazards.md R250). -/
def sameSlot (a b : Slot) : Prop := a.alive = b.alive ∧ (a.alive = true → a.cells = b.cells)

/-- Two states that differ at most in the storage of slots that are not alive (R250). -/
def State.sameVisible (s t : State) : Prop :=
  List.Forall₂ sameSlot s.slots t.slots ∧ s.requests = t.requests ∧ s.responses = t.responses

/-! ## Addresses -/

/-- The inverse of `Translate`: the device address of a storage offset (20_memory.md R42 (f)). -/
def deviceOf (t : Nat) : Nat :=
  if t < 107 then t else if t < 974 then t + 85 else if t < 1017 then t + 1090 else t + 1287

/-- `a` is translated to a storage offset. -/
def isMapped (a : Nat) : Bool :=
  match translateAddr a with
  | .mapped _ => true
  | .discarded => false

/-! ## Runs -/

/-- A safe run: `k` steps from `s` end in a next state, without a fault or a refusal (60_exceptions.md R223). -/
def SafeRun (k : Nat) (s : State) : Prop := ∃ t, Sys2Proof.core.run k s = .next t

end Sys2Proof.Machine
end

