-- ==== Sys2Proof/Certificates/Slice0/Obligations.lean ====
section
/-! DEFINITION. The statements for the provers. Each docstring names the rule of the spec it formalises.
`Answers i s r` says that `i` completes at `s` with the response `r` and changes nothing else. The `info` of an error
is what the cited rule's `raise` names; its shapes are the spec's own choice (R221, D4, U9). `D<n>` is a decision of
92_eei_decisions.md and `U<n>` a row of 93_implementation_defined.md. -/

open Sys2Proof Sys2Proof.Machine

/-! ## Bounded-integer codec -/

/-- R100: DEC7. -/
def Obligations.Dec7DecodesOneSafeByte : Prop :=
  ∀ (s : State) (b : Bytes),
    (b.length ≤ Config.maxListLen → decode (.req 0x01 [.bytes b]) = .ok (.dec7 b)) ∧
    (∀ x, b = [x] → x.toNat ≤ 127 → Answers (.dec7 b) s (okResponse (.value (BitVec.ofNat 32 x.toNat)))) ∧
    (∀ x, b = [x] → 127 < x.toNat → Answers (.dec7 b) s (errorResponse .bounds (.byte x))) ∧
    (b.length ≠ 1 → Answers (.dec7 b) s (errorResponse .length (.len 1 b.length)))

/-- R101: DEC14. That the first unsafe byte is the one reported is the spec's own choice (D11). -/
def Obligations.Dec14DecodesTwoSafeBytes : Prop :=
  ∀ (s : State) (b : Bytes),
    (b.length ≤ Config.maxListLen → decode (.req 0x02 [.bytes b]) = .ok (.dec14 b)) ∧
    (∀ x y, b = [x, y] → x.toNat ≤ 127 → y.toNat ≤ 127 →
      Answers (.dec14 b) s (okResponse (.value (BitVec.ofNat 32 (x.toNat * 128 + y.toNat))))) ∧
    (∀ x y, b = [x, y] → 127 < x.toNat → Answers (.dec14 b) s (errorResponse .bounds (.byte x))) ∧
    (∀ x y, b = [x, y] → x.toNat ≤ 127 → 127 < y.toNat →
      Answers (.dec14 b) s (errorResponse .bounds (.byte y))) ∧
    (b.length ≠ 2 → Answers (.dec14 b) s (errorResponse .length (.len 2 b.length)))

/-- R102: DEC28, its value above 2097151 included, and the lowest unsafe byte reported. That the first unsafe byte is
the one reported is the spec's own choice (D11). -/
def Obligations.Dec28DecodesFourSafeBytes : Prop :=
  ∀ (s : State) (b : Bytes),
    (b.length ≤ Config.maxListLen → decode (.req 0x03 [.bytes b]) = .ok (.dec28 b)) ∧
    (∀ w x y z, b = [w, x, y, z] → (∀ v ∈ b, v.toNat ≤ 127) →
      Answers (.dec28 b) s (okResponse (.value (BitVec.ofNat 32
        (w.toNat * 2097152 + x.toNat * 16384 + y.toNat * 128 + z.toNat))))) ∧
    (∀ pre x post, b = pre ++ x :: post → b.length = 4 → (∀ v ∈ pre, v.toNat ≤ 127) → 127 < x.toNat →
      Answers (.dec28 b) s (errorResponse .bounds (.byte x))) ∧
    (b.length ≠ 4 → Answers (.dec28 b) s (errorResponse .length (.len 4 b.length)))

/-- R103: ENC7. -/
def Obligations.Enc7EncodesSevenBits : Prop :=
  ∀ (s : State) (v : Byte),
    decode (.req 0x04 [.byte v]) = .ok (.enc7 v) ∧
    (v.toNat ≤ 127 → Answers (.enc7 v) s (okResponse (.bytes [v]))) ∧
    (127 < v.toNat → Answers (.enc7 v) s (errorResponse .bounds (.value v.toNat)))

/-- R104: ENC14, `[v[13:7], v[6:0]]`. -/
def Obligations.Enc14EncodesFourteenBits : Prop :=
  ∀ (s : State) (v : U16),
    decode (.req 0x05 [.u16 v]) = .ok (.enc14 v) ∧
    (v.toNat ≤ 16383 →
      Answers (.enc14 v) s (okResponse (.bytes [(v.extractLsb' 7 7).setWidth 8, (v.extractLsb' 0 7).setWidth 8]))) ∧
    (16383 < v.toNat → Answers (.enc14 v) s (errorResponse .bounds (.value v.toNat)))

/-- R105: ENC28, `[v[27:21], v[20:14], v[13:7], v[6:0]]`. -/
def Obligations.Enc28EncodesTwentyEightBits : Prop :=
  ∀ (s : State) (v : U32),
    decode (.req 0x06 [.u32 v]) = .ok (.enc28 v) ∧
    (v.toNat ≤ 268435455 →
      Answers (.enc28 v) s (okResponse (.bytes
        [(v.extractLsb' 21 7).setWidth 8, (v.extractLsb' 14 7).setWidth 8, (v.extractLsb' 7 7).setWidth 8,
         (v.extractLsb' 0 7).setWidth 8]))) ∧
    (268435455 < v.toNat → Answers (.enc28 v) s (errorResponse .bounds (.value v.toNat)))

/-- R107: the round-trip laws (a) to (d) of the codec at its three widths. The spec marks the laws as derived from
R100 to R106. -/
def Obligations.CodecRoundTrips : Prop :=
  ∀ k max, (k, max) ∈ [(1, 127), (2, 16383), (4, 268435455)] →
    (∀ v, v ≤ max → ∃ b, encodeK k max v = .ok b ∧ b.length = k ∧ decodeK k b = .ok v) ∧
    (∀ b : Bytes, b.length = k → (∀ x ∈ b, x.toNat ≤ 127) →
      ∃ v, decodeK k b = .ok v ∧ encodeK k max v = .ok b) ∧
    (∀ b : Bytes, (b.length ≠ k ∨ ∃ x ∈ b, 128 ≤ x.toNat) → ∃ e, decodeK k b = .error e) ∧
    (∀ v, (∃ e, encodeK k max v = .error e) ↔ max < v)

/-! ## Address model and checksum -/

/-- R120: ADDR_DEC; the region's bytes before the offset's. The length check on the whole and the byte reported are
the spec's own choices (D11, D12). -/
def Obligations.AddrDecDecodesRegionThenOffset : Prop :=
  ∀ (s : State) (b : Bytes),
    (b.length ≤ Config.maxListLen → decode (.req 0x08 [.bytes b]) = .ok (.addrDec b)) ∧
    (∀ r1 r0 o1 o0, b = [r1, r0, o1, o0] → (∀ v ∈ b, v.toNat ≤ 127) →
      Answers (.addrDec b) s (okResponse (.address (BitVec.ofNat 16 (r1.toNat * 128 + r0.toNat))
        (BitVec.ofNat 16 (o1.toNat * 128 + o0.toNat))))) ∧
    (∀ pre x post, b = pre ++ x :: post → b.length = 4 → (∀ v ∈ pre, v.toNat ≤ 127) → 127 < x.toNat →
      Answers (.addrDec b) s (errorResponse .bounds (.byte x))) ∧
    (b.length ≠ 4 → Answers (.addrDec b) s (errorResponse .length (.len 4 b.length)))

/-- R121: ADDR_ENC; the region is checked first. That order is the spec's own choice (D12). -/
def Obligations.AddrEncEncodesRegionThenOffset : Prop :=
  ∀ (s : State) (region offset : U16),
    decode (.req 0x09 [.u16 region, .u16 offset]) = .ok (.addrEnc region offset) ∧
    (region.toNat ≤ 16383 → offset.toNat ≤ 16383 →
      Answers (.addrEnc region offset) s (okResponse (.bytes
        [BitVec.ofNat 8 (region.toNat / 128), BitVec.ofNat 8 (region.toNat % 128),
         BitVec.ofNat 8 (offset.toNat / 128), BitVec.ofNat 8 (offset.toNat % 128)]))) ∧
    (16383 < region.toNat → Answers (.addrEnc region offset) s (errorResponse .bounds (.value region.toNat))) ∧
    (region.toNat ≤ 16383 → 16383 < offset.toNat →
      Answers (.addrEnc region offset) s (errorResponse .bounds (.value offset.toNat)))

/-- R122: IS_MUTABLE, membership in `MUT` (R29). That a region above 16383 is accepted and not mutable follows the
spec's own container widths (D5). -/
def Obligations.IsMutableTestsTheMutableSet : Prop :=
  ∀ (s : State) (region : U16),
    decode (.req 0x0A [.u16 region]) = .ok (.isMutable region) ∧
    Answers (.isMutable region) s (okResponse (.isMutable
      (decide (region.toNat = 2049 ∨ region.toNat = 2050 ∨ region.toNat = 2051 ∨ region.toNat = 2052 ∨
        region.toNat = 12288))))

/-- R123: CHECKSUM over any number of groups, of any bytes. -/
def Obligations.ChecksumSumsAllGroups : Prop :=
  ∀ (s : State) (g : List Bytes),
    ((g.map List.length).sum ≤ Config.maxListLen → decode (.req 0x0B [.groups g]) = .ok (.checksum g)) ∧
    Answers (.checksum g) s (okResponse (.checksum
      (BitVec.ofNat 8 ((128 - (g.flatten.map BitVec.toNat).sum % 128) % 128))))

/-- R124: the checksum laws (a) to (d). The spec marks them as derived from R123. -/
def Obligations.ChecksumLaws : Prop :=
  (∀ g, (checksumOf g).toNat ≤ 127) ∧
  (∀ g h : List Bytes, g.flatten.Perm h.flatten → checksumOf g = checksumOf h) ∧
  (∀ x : Bytes, ((x.map BitVec.toNat).sum + (checksumOf [x]).toNat) % 128 = 0) ∧
  (∀ (x : Bytes) (e : Byte), e.toNat ≤ 127 →
    (e = checksumOf [x] ↔ ((x.map BitVec.toNat).sum + e.toNat) % 128 = 0)) ∧
  (∀ (g : List Bytes) (e : Byte), 128 ≤ e.toNat → e ≠ checksumOf g)

/-- R125: the address laws. The spec marks them as derived from R120, R121 and R107. -/
def Obligations.AddressRoundTrips : Prop :=
  (∀ region offset : U16, region.toNat ≤ 16383 → offset.toNat ≤ 16383 →
    ∃ b, addrEnc region offset = .ok b ∧ addrDec b = .ok (region, offset)) ∧
  (∀ b : Bytes, b.length = 4 → (∀ x ∈ b, x.toNat ≤ 127) →
    ∃ a, addrDec b = .ok a ∧ addrEnc a.1 a.2 = .ok b)

/-! ## PARSE -/

/-- R140: the framing and the dialect, in order. A frame that passes them goes to the Universal path or to the vendor
path, which `ParseReadsUniversalFrames` and the statements after it are about. The length 6 is the spec's own choice
(D10). -/
def Obligations.ParseChecksFramingThenDialect : Prop :=
  ∀ (s : State) (buf : Bytes),
    (buf.length ≤ Config.maxListLen → decode (.req 0x10 [.bytes buf]) = .ok (.parse buf)) ∧
    (buf.head? ≠ some 0xF0 → Answers (.parse buf) s (errorResponse .frameStart .none)) ∧
    (buf.head? = some 0xF0 → buf.getLast? ≠ some 0xF7 →
      Answers (.parse buf) s (errorResponse .frameEnd .none)) ∧
    (buf.head? = some 0xF0 → buf.getLast? = some 0xF7 → buf.length < 6 →
      Answers (.parse buf) s (errorResponse .length (.len 6 buf.length))) ∧
    (buf.head? = some 0xF0 → buf.getLast? = some 0xF7 → 6 ≤ buf.length →
      ∀ d, buf[1]? = some d →
        (d = 0x7E → exec (.parse buf) s = answer s ((parseUniversal buf).map parsedReply)) ∧
        (d = 0x41 → exec (.parse buf) s = answer s ((parseVendor buf).map parsedReply)) ∧
        (d ≠ 0x7E → d ≠ 0x41 → Answers (.parse buf) s (errorResponse .unknownVendor (.byte d))))

/-- R141: the Universal path and the IdRequest kind. The exact length 6 is the spec's own choice (D10). -/
def Obligations.ParseReadsUniversalFrames : Prop :=
  ∀ (s : State) (buf : Bytes) (dev sub sel : Byte),
    buf.head? = some 0xF0 → buf.getLast? = some 0xF7 → 6 ≤ buf.length →
    buf[1]? = some 0x7E → buf[2]? = some dev → buf[3]? = some sub → buf[4]? = some sel →
    (sub ≠ 0x06 → Answers (.parse buf) s (errorResponse .universalSubid (.byte sub))) ∧
    (sub = 0x06 → sel ≠ 0x01 → sel ≠ 0x02 → Answers (.parse buf) s (errorResponse .unknownOp (.byte sel))) ∧
    (sub = 0x06 → sel = 0x01 → buf.length ≠ 6 →
      Answers (.parse buf) s (errorResponse .length (.len 6 buf.length))) ∧
    (sub = 0x06 → sel = 0x01 → buf.length = 6 → Answers (.parse buf) s (msgResponse false (.idRequest dev)))

/-- R142: the IdResponse kind. The exact length 15 is the spec's own choice (D10). -/
def Obligations.ParseReadsIdResponseFrames : Prop :=
  ∀ (s : State) (buf : Bytes) (dev : Byte),
    buf.head? = some 0xF0 → buf.getLast? = some 0xF7 → 6 ≤ buf.length →
    buf[1]? = some 0x7E → buf[2]? = some dev → buf[3]? = some 0x06 → buf[4]? = some 0x02 →
    (buf.length ≠ 15 → Answers (.parse buf) s (errorResponse .length (.len 15 buf.length))) ∧
    (buf.length = 15 → (buf.drop 5).take 5 ≠ [0x41, 0x33, 0x03, 0x00, 0x00] →
      Answers (.parse buf) s (errorResponse .identityMismatch .none)) ∧
    (buf.length = 15 → (buf.drop 5).take 5 = [0x41, 0x33, 0x03, 0x00, 0x00] →
      Answers (.parse buf) s (msgResponse false (.idResponse dev (some ((buf.drop 10).take 4)))))

/-- R143: what the vendor path raises before it looks at the payload, in order. The frame's other fields are those of
its list of bytes; what it goes on with is in `ParseReadsQueryFrames` and `ParseReadsCommandFrames`. The length 14 and
the byte reported are the spec's own choices (D10, D11). -/
def Obligations.ParseChecksVendorFrames : Prop :=
  ∀ (s : State) (buf : Bytes),
    buf.head? = some 0xF0 → buf.getLast? = some 0xF7 → 6 ≤ buf.length → buf[1]? = some 0x41 →
    (buf.length < 14 → Answers (.parse buf) s (errorResponse .length (.len 14 buf.length))) ∧
    (14 ≤ buf.length → (buf.drop 3).take 4 ≠ [0x00, 0x00, 0x00, 0x33] →
      Answers (.parse buf) s (errorResponse .modelMismatch .none)) ∧
    (14 ≤ buf.length → (buf.drop 3).take 4 = [0x00, 0x00, 0x00, 0x33] →
      ∀ sel, buf[7]? = some sel → sel ≠ 0x11 → sel ≠ 0x12 →
        Answers (.parse buf) s (errorResponse .unknownOp (.byte sel))) ∧
    (14 ≤ buf.length → (buf.drop 3).take 4 = [0x00, 0x00, 0x00, 0x33] →
      (buf[7]? = some 0x11 ∨ buf[7]? = some 0x12) →
      ∀ pre x post, (buf.drop 8).take 4 = pre ++ x :: post → (∀ v ∈ pre, v.toNat ≤ 127) → 127 < x.toNat →
        Answers (.parse buf) s (errorResponse .bounds (.byte x)))

/-- R144 with R146: the Query kind. `payload` is what stands between the address and the checksum byte. That the first
unsafe byte is the one reported is the spec's own choice (D11). -/
def Obligations.ParseReadsQueryFrames : Prop :=
  ∀ (s : State) (dev r1 r0 o1 o0 cks : Byte) (payload : Bytes), (∀ v ∈ [r1, r0, o1, o0], v.toNat ≤ 127) →
    let buf : Bytes := [0xF0, 0x41, dev, 0x00, 0x00, 0x00, 0x33, 0x11, r1, r0, o1, o0] ++ payload ++ [cks, 0xF7]
    (∀ s3 s2 s1 s0, payload = [s3, s2, s1, s0] → (∀ v ∈ payload, v.toNat ≤ 127) →
      Answers (.parse buf) s (msgResponse (cks != checksumOf [[r1, r0, o1, o0], payload])
        (.query dev (BitVec.ofNat 16 (r1.toNat * 128 + r0.toNat)) (BitVec.ofNat 16 (o1.toNat * 128 + o0.toNat))
          (BitVec.ofNat 32 (s3.toNat * 2097152 + s2.toNat * 16384 + s1.toNat * 128 + s0.toNat))))) ∧
    (∀ pre x post, payload = pre ++ x :: post → payload.length = 4 → (∀ v ∈ pre, v.toNat ≤ 127) →
      127 < x.toNat → Answers (.parse buf) s (errorResponse .bounds (.byte x))) ∧
    (payload.length ≠ 4 → Answers (.parse buf) s (errorResponse .length (.len 4 payload.length)))

/-- R145 with R146: the Command kind; the data are any bytes, none included. That the data bytes are not looked at is
the spec's own choice (D14). -/
def Obligations.ParseReadsCommandFrames : Prop :=
  ∀ (s : State) (dev r1 r0 o1 o0 cks : Byte) (payload : Bytes), (∀ v ∈ [r1, r0, o1, o0], v.toNat ≤ 127) →
    Answers
      (.parse ([0xF0, 0x41, dev, 0x00, 0x00, 0x00, 0x33, 0x12, r1, r0, o1, o0] ++ payload ++ [cks, 0xF7])) s
      (msgResponse (cks != checksumOf [[r1, r0, o1, o0], payload])
        (.command dev (BitVec.ofNat 16 (r1.toNat * 128 + r0.toNat)) (BitVec.ofNat 16 (o1.toNat * 128 + o0.toNat))
          payload))

/-- R146: for every frame of the vendor path that is parsed, the flag is set exactly when byte `n - 2` is not the
checksum of the address bytes and the payload, and a frame that differs from it in that byte alone gives the same
message, with the flag clear exactly for the checksum. -/
def Obligations.ChecksumMismatchIsAdvisory : Prop :=
  ∀ (s : State) (buf : Bytes) (warn : Bool) (m : Msg), buf[1]? = some 0x41 →
    Answers (.parse buf) s (msgResponse warn m) →
    (∀ k, buf[buf.length - 2]? = some k →
      warn = (k != checksumOf [(buf.drop 8).take 4, (buf.drop 12).take (buf.length - 14)])) ∧
    (∀ k : Byte, Answers (.parse (buf.set (buf.length - 2) k)) s
      (msgResponse (k != checksumOf [(buf.drop 8).take 4, (buf.drop 12).take (buf.length - 14)]) m))

/-! ## SERIALIZE -/

/-- R151, through `SERIALIZE` and through its IdRequest row. That a device id above 127 is emitted as it stands is the
spec's own choice (D14). -/
def Obligations.SerializeWritesIdRequest : Prop :=
  ∀ (s : State) (dev : Byte) (i : Instr), i ∈ [.serialize (.idRequest dev), .serializeIdRequest dev] →
    Answers i s (okResponse (.frame [0xF0, 0x7E, dev, 0x06, 0x01, 0xF7]))

/-- R152, through `SERIALIZE` and through its IdResponse row. The length error is the spec's own choice (D13). -/
def Obligations.SerializeWritesIdResponse : Prop :=
  ∀ (s : State) (dev : Byte) (fw : Option Bytes) (i : Instr),
    i ∈ [.serialize (.idResponse dev fw), .serializeIdResponse dev fw] →
    (fw = none → Answers i s (errorResponse .missingPayload .none)) ∧
    (∀ f, fw = some f → f.length ≠ 4 → Answers i s (errorResponse .length (.len 4 f.length))) ∧
    (∀ f, fw = some f → f.length = 4 → Answers i s (okResponse (.frame
      ([0xF0, 0x7E, dev, 0x06, 0x02, 0x41, 0x33, 0x03, 0x00, 0x00] ++ f ++ [0xF7]))))

/-- R153, through `SERIALIZE` and through its Query row. That the address is checked before the size, and the region
before the offset, is the spec's own choice (D12). -/
def Obligations.SerializeWritesQuery : Prop :=
  ∀ (s : State) (dev : Byte) (region offset : U16) (size : U32) (i : Instr),
    i ∈ [.serialize (.query dev region offset size), .serializeQuery dev region offset size] →
    (region.toNat ≤ 16383 → offset.toNat ≤ 16383 → size.toNat ≤ 268435455 →
      ∀ a z : Bytes,
        a = [BitVec.ofNat 8 (region.toNat / 128), BitVec.ofNat 8 (region.toNat % 128),
             BitVec.ofNat 8 (offset.toNat / 128), BitVec.ofNat 8 (offset.toNat % 128)] →
        z = [BitVec.ofNat 8 (size.toNat / 2097152), BitVec.ofNat 8 (size.toNat / 16384 % 128),
             BitVec.ofNat 8 (size.toNat / 128 % 128), BitVec.ofNat 8 (size.toNat % 128)] →
        Answers i s (okResponse (.frame
          ([0xF0, 0x41, dev, 0x00, 0x00, 0x00, 0x33, 0x11] ++ a ++ z ++ [checksumOf [a, z], 0xF7])))) ∧
    (16383 < region.toNat → Answers i s (errorResponse .bounds (.value region.toNat))) ∧
    (region.toNat ≤ 16383 → 16383 < offset.toNat →
      Answers i s (errorResponse .bounds (.value offset.toNat))) ∧
    (region.toNat ≤ 16383 → offset.toNat ≤ 16383 → 268435455 < size.toNat →
      Answers i s (errorResponse .bounds (.value size.toNat)))

/-- R154, through `SERIALIZE` and through its Command row. The order of the checks and that the data are not checked
are the spec's own choices (D12, D14). -/
def Obligations.SerializeWritesCommand : Prop :=
  ∀ (s : State) (dev : Byte) (region offset : U16) (data : Bytes) (i : Instr),
    i ∈ [.serialize (.command dev region offset data), .serializeCommand dev region offset data] →
    (region.toNat ≤ 16383 → offset.toNat ≤ 16383 →
      ∀ a : Bytes,
        a = [BitVec.ofNat 8 (region.toNat / 128), BitVec.ofNat 8 (region.toNat % 128),
             BitVec.ofNat 8 (offset.toNat / 128), BitVec.ofNat 8 (offset.toNat % 128)] →
        Answers i s (okResponse (.frame
          ([0xF0, 0x41, dev, 0x00, 0x00, 0x00, 0x33, 0x12] ++ a ++ data ++ [checksumOf [a, data], 0xF7])))) ∧
    (16383 < region.toNat → Answers i s (errorResponse .bounds (.value region.toNat))) ∧
    (region.toNat ≤ 16383 → 16383 < offset.toNat →
      Answers i s (errorResponse .bounds (.value offset.toNat)))

/-- R155 (a) to (c): the round-trip laws of the protocol. The spec marks the laws as derived from R140 to R154. -/
def Obligations.ParseAndSerializeAreInverse : Prop :=
  ∀ (s : State) (m : Msg) (frame : Bytes),
    (Answers (.serialize m) s (okResponse (.frame frame)) → Answers (.parse frame) s (msgResponse false m)) ∧
    (Answers (.parse frame) s (msgResponse false m) → Answers (.serialize m) s (okResponse (.frame frame))) ∧
    (Answers (.parse frame) s (msgResponse true m) →
      ∃ right : Bytes, Answers (.serialize m) s (okResponse (.frame right)) ∧ right ≠ frame ∧
        ∃ c : Byte, right = frame.set (frame.length - 2) c ∧
          c = checksumOf [(frame.drop 8).take 4, (frame.drop 12).take (frame.length - 14)])

/-! ## The frame rows of the opcode table -/

/-- A list of bytes is in the format of a frame row exactly when `PARSE` accepts it, and then the row's instruction
does what `PARSE` of the list does (R66 to R73). That a frame row is an instruction of its own is the model's choice
(log entry 3). -/
def Obligations.FrameRowsAgreeWithParse : Prop :=
  ∀ (s : State) (frame : Bytes),
    (∀ i, frameRowOf frame = some i → exec i s = exec (.parse frame) s ∧
      ∃ warn m, Answers (.parse frame) s (msgResponse warn m)) ∧
    (frameRowOf frame = none → ∃ status info, status ≠ .ok ∧
      Answers (.parse frame) s (errorResponse status info))

/-- What each frame row answers, from the fields of its bit pattern (R67 to R70 with R141, R142, R144 to R146). That a
frame row is an instruction of its own is the model's choice (log entry 3). -/
def Obligations.FrameRowsAnswerTheirMessages : Prop :=
  ∀ (s : State) (dev f0 f1 f2 f3 cks : Byte) (region offset : U14) (size : U28) (data : Bytes),
    Answers (.frameIdReq dev) s (msgResponse false (.idRequest dev)) ∧
    Answers (.frameIdResp dev f0 f1 f2 f3) s (msgResponse false (.idResponse dev (some [f0, f1, f2, f3]))) ∧
    Answers (.frameQuery dev region offset size cks) s
      (msgResponse
        (cks != checksumOf [[BitVec.ofNat 8 (region.toNat / 128), BitVec.ofNat 8 (region.toNat % 128),
          BitVec.ofNat 8 (offset.toNat / 128), BitVec.ofNat 8 (offset.toNat % 128)],
          [BitVec.ofNat 8 (size.toNat / 2097152), BitVec.ofNat 8 (size.toNat / 16384 % 128),
           BitVec.ofNat 8 (size.toNat / 128 % 128), BitVec.ofNat 8 (size.toNat % 128)]])
        (.query dev (region.setWidth 16) (offset.setWidth 16) (size.setWidth 32))) ∧
    Answers (.frameCommand dev region offset data cks) s
      (msgResponse
        (cks != checksumOf [[BitVec.ofNat 8 (region.toNat / 128), BitVec.ofNat 8 (region.toNat % 128),
          BitVec.ofNat 8 (offset.toNat / 128), BitVec.ofNat 8 (offset.toNat % 128)], data])
        (.command dev (region.setWidth 16) (offset.setWidth 16) data))

/-! ## The address-mapping lookup engine -/

/-- R41: the piecewise-linear map, over every natural number, with half-open rows (90_conflicts.md C3). -/
def Obligations.TranslateMapsTheFourRows : Prop :=
  ∀ a : Nat,
    translateAddr a =
      if a < 107 then .mapped a
      else if a < 192 then .discarded
      else if a < 1059 then .mapped (a - 85)
      else if a < 2064 then .discarded
      else if a < 2107 then .mapped (a - 1090)
      else if a < 2304 then .discarded
      else if a < 2327 then .mapped (a - 1287)
      else .discarded

/-- R42: the properties (a) to (f) of `Translate`. The spec marks them as derived from R41 and R28. -/
def Obligations.TranslateIsABijectionOntoStorage : Prop :=
  (∀ a t, translateAddr a = .mapped t ↔
    ∃ row ∈ boundaryTable, row.beginAt ≤ a ∧ a < row.endAt ∧ t = a - row.shift) ∧
  (∀ a t, translateAddr a = .mapped t → t ≤ 1039) ∧
  (∀ a b t, translateAddr a = .mapped t → translateAddr b = .mapped t → a = b) ∧
  (∀ t, t ≤ 1039 → ∃ a, translateAddr a = .mapped t) ∧
  (∀ a t, ∀ row ∈ boundaryTable, row.beginAt ≤ a → a + 1 < row.endAt → translateAddr a = .mapped t →
    translateAddr (a + 1) = .mapped (t + 1)) ∧
  (∀ t, t ≤ 1039 → translateAddr (deviceOf t) = .mapped t) ∧
  (∀ t, ∀ row ∈ boundaryTable, row.beginAt - row.shift ≤ t → t < row.endAt - row.shift →
    deviceOf t = t + row.shift)

/-- R28: the invariants (a) to (e) of the boundary table. The spec marks them as derived from R27. -/
def Obligations.BoundaryTableInvariants : Prop :=
  boundaryTable.Pairwise (fun row next => row.endAt < next.beginAt) ∧
  (boundaryTable.head?.map (fun row => row.beginAt - row.shift) = some 0 ∧
    (∀ k row next, boundaryTable[k]? = some row → boundaryTable[k + 1]? = some next →
      row.endAt - row.shift = next.beginAt - next.shift) ∧
    boundaryTable.getLast?.map (fun row => row.endAt - row.shift) = some 1040 ∧ storageSize = 1040) ∧
  (∀ row ∈ boundaryTable, row.beginAt < row.endAt) ∧
  (boundaryTable.getLast?.map (fun row => row.endAt - 1) = some 2326 ∧ maxOffset = 2326) ∧
  (∀ a : Nat, (∀ row ∈ boundaryTable, ¬ (row.beginAt ≤ a ∧ a < row.endAt)) ↔
    (107 ≤ a ∧ a < 192) ∨ (1059 ≤ a ∧ a < 2064) ∨ (2107 ≤ a ∧ a < 2304) ∨ 2326 < a)

/-! ## The store -/

/-- R180: PATCH_NEW; a slot that is already alive is re-created, and other slots are untouched. That a slot already
alive is re-created, and that a bad index raises NO_STORE before the encoding identifier is looked at, are the spec's
own choices (D8; D6 and D28). The clause on an index out of range says nothing where `N_STORES` is
256, which the open parameter allows. -/
def Obligations.PatchNewCreatesAZeroFilledSlot : Prop :=
  ∀ (s : State) (sid enc : Byte), s.Inv →
    decode (.req 0x20 [.byte sid, .byte enc]) = .ok (.patchNew sid enc) ∧
    (Config.nStores ≤ sid.toNat → Answers (.patchNew sid enc) s (errorResponse .noStore (.byte sid))) ∧
    (sid.toNat < Config.nStores → enc ≠ Config.sparseEncodingId →
      Answers (.patchNew sid enc) s (errorResponse .unknownEncoding (.byte enc))) ∧
    (sid.toNat < Config.nStores → enc = Config.sparseEncodingId →
      ∃ t, exec (.patchNew sid enc) s = .next t ∧
        t.alive sid.toNat = true ∧
        (∀ i, (t.cells sid.toNat).read i = 0) ∧
        (∀ j, j ≠ sid.toNat → t.slots[j]? = s.slots[j]?) ∧
        t.requests = s.requests ∧ t.responses = s.responses ++ [okResponse .none])

/-- R179: every store operation but PATCH_NEW on a slot that does not exist or is not alive, whatever its other
operands, raises NO_STORE. The check and its place are the spec's own choices (D6, D28). -/
def Obligations.StoreOperationsCheckTheSlotFirst : Prop :=
  ∀ (s : State) (sid : Byte) (m : Msg) (offset : U16) (data : Bytes) (i : Instr),
    (Config.nStores ≤ sid.toNat ∨ s.alive sid.toNat = false) →
    i ∈ [.apply sid m, .writeBytes sid offset data, .getByte sid offset, .getShort sid offset, .getFxChain sid] →
    Answers i s (errorResponse .noStore (.byte sid))

/-- R186 (a) to (e): what WRITE_BYTES stores, what it counts and what it leaves alone. The write walk's loop consumes
its input in at most `n + 4` passes, so a longer loop does no more, and no two input bytes go to one cell. The
response's containers are read as numbers: `written` always fits one, and `discarded` does below 2^32. What the
container holds for a count of 2^32 or more is the model's free value (DESIGN CHOICE, log entry 8), of which this says
nothing. The spec marks R186 as derived from R182, R41 and R42; that the address does not wrap is its own choice
(D20). -/
def Obligations.WriteBytesStoresTheMappedBytes : Prop :=
  ∀ (s : State) (sid : Byte) (offset : U16) (data : Bytes),
    s.Inv → sid.toNat < Config.nStores → s.alive sid.toNat = true →
    (∃ t, exec (.writeBytes sid offset data) s = .next t ∧
      (∀ j x k, data[j]? = some x → translateAddr (offset.toNat + j) = .mapped k →
        (t.cells sid.toNat).read k = x) ∧
      (∀ k, (∀ j, j < data.length → translateAddr (offset.toNat + j) ≠ .mapped k) →
        (t.cells sid.toNat).read k = (s.cells sid.toNat).read k) ∧
      t.alive sid.toNat = true ∧
      (∀ j, j ≠ sid.toNat → t.slots[j]? = s.slots[j]?) ∧
      t.requests = s.requests ∧
      (∀ written, written = (List.range data.length).countP (fun j => isMapped (offset.toNat + j)) →
        ∃ w d : U32, t.responses = s.responses ++ [okResponse (.writeStat w d)] ∧ w.toNat = written ∧
          (data.length - written < 2 ^ 32 → d.toNat = data.length - written))) ∧
    (∀ m : Memory, (writeWalk m offset.toNat data).i = data.length ∧
      ∀ fuel, data.length + 4 ≤ fuel →
        walkLoop data fuel (walkStart offset.toNat m) = writeWalk m offset.toNat data) ∧
    (∀ j l k, translateAddr (offset.toNat + j) = .mapped k → translateAddr (offset.toNat + l) = .mapped k → j = l)

/-- R181: APPLY writes, as WRITE_BYTES does at the message's offset, only for a Command to a mutable region; every
other message has its payload length counted as discarded, and changes nothing. A count below 2^32 is
the number in its 32-bit container; what the container holds for a payload of 2^32 bytes or more is the model's free
value (DESIGN CHOICE, log entry 8), of which this says nothing. The payload lengths of the messages other than Commands
and the slot check are the spec's own choices (D15, U10; D6, D28). -/
def Obligations.ApplyWritesOnlyMutableCommands : Prop :=
  ∀ (s : State) (sid : Byte),
    (∀ m : Msg, m.wellFormed = true → decode (.req 0x21 [.byte sid, .msg (encodeMsg m)]) = .ok (.apply sid m)) ∧
    ((Config.nStores ≤ sid.toNat ∨ s.alive sid.toNat = false) →
      ∀ m : Msg, Answers (.apply sid m) s (errorResponse .noStore (.byte sid))) ∧
    (sid.toNat < Config.nStores → s.alive sid.toNat = true →
      (∀ dev region offset data, region.toNat ∈ [2049, 2050, 2051, 2052, 12288] →
        ∃ t, exec (.apply sid (.command dev region offset data)) s = .next t ∧
          exec (.writeBytes sid offset data) s = .next t) ∧
      (∀ dev region offset data, region.toNat ∉ [2049, 2050, 2051, 2052, 12288] →
        ∃ d : U32, Answers (.apply sid (.command dev region offset data)) s (okResponse (.writeStat 0 d)) ∧
          (data.length < 2 ^ 32 → d.toNat = data.length)) ∧
      (∀ dev region offset size,
        Answers (.apply sid (.query dev region offset size)) s (okResponse (.writeStat 0 4))) ∧
      (∀ dev fw, ∃ d : U32, Answers (.apply sid (.idResponse dev (some fw))) s (okResponse (.writeStat 0 d)) ∧
        (fw.length < 2 ^ 32 → d.toNat = fw.length)) ∧
      (∀ dev, Answers (.apply sid (.idResponse dev none)) s (okResponse (.writeStat 0 0))) ∧
      (∀ dev, Answers (.apply sid (.idRequest dev)) s (okResponse (.writeStat 0 0))))

/-- R183: GET_BYTE. That a stored byte above 127 is an error (N31 has it as not in the source), the slot check and
its place, and the 16-bit container of the offset are the spec's own choices (D18; D6 and D28; D5). -/
def Obligations.GetByteReadsOneMappedCell : Prop :=
  ∀ (s : State) (sid : Byte) (offset : U16),
    decode (.req 0x23 [.byte sid, .u16 offset]) = .ok (.getByte sid offset) ∧
    ((Config.nStores ≤ sid.toNat ∨ s.alive sid.toNat = false) →
      Answers (.getByte sid offset) s (errorResponse .noStore (.byte sid))) ∧
    (sid.toNat < Config.nStores → s.alive sid.toNat = true →
      (2326 < offset.toNat → Answers (.getByte sid offset) s (errorResponse .bounds (.addr offset.toNat))) ∧
      (offset.toNat ≤ 2326 → translateAddr offset.toNat = .discarded →
        Answers (.getByte sid offset) s (errorResponse .discardedOffset (.addr offset.toNat))) ∧
      (∀ t x, translateAddr offset.toNat = .mapped t → (s.cells sid.toNat).read t = x →
        (127 < x.toNat → Answers (.getByte sid offset) s (errorResponse .bounds (.byte x))) ∧
        (x.toNat ≤ 127 → Answers (.getByte sid offset) s (okResponse (.byteValue x)))))

/-- R184: GET_SHORT: each of the two offsets is translated on its own, and only the first is range-checked. That only
the first offset is range-checked, which byte is reported, that a stored byte above 127 is an error, and the slot
check are the spec's own choices (D17; D11; D18; D6 and D28). -/
def Obligations.GetShortReadsTwoMappedCells : Prop :=
  ∀ (s : State) (sid : Byte) (offset : U16),
    decode (.req 0x24 [.byte sid, .u16 offset]) = .ok (.getShort sid offset) ∧
    ((Config.nStores ≤ sid.toNat ∨ s.alive sid.toNat = false) →
      Answers (.getShort sid offset) s (errorResponse .noStore (.byte sid))) ∧
    (sid.toNat < Config.nStores → s.alive sid.toNat = true →
      (2326 < offset.toNat → Answers (.getShort sid offset) s (errorResponse .bounds (.addr offset.toNat))) ∧
      (offset.toNat ≤ 2326 → translateAddr offset.toNat = .discarded →
        Answers (.getShort sid offset) s (errorResponse .discardedOffset (.addr offset.toNat))) ∧
      (∀ t, translateAddr offset.toNat = .mapped t → translateAddr (offset.toNat + 1) = .discarded →
        Answers (.getShort sid offset) s (errorResponse .discardedOffset (.addr (offset.toNat + 1)))) ∧
      (∀ t u x y, translateAddr offset.toNat = .mapped t → translateAddr (offset.toNat + 1) = .mapped u →
        (s.cells sid.toNat).read t = x → (s.cells sid.toNat).read u = y →
        (127 < x.toNat → Answers (.getShort sid offset) s (errorResponse .bounds (.byte x))) ∧
        (x.toNat ≤ 127 → 127 < y.toNat → Answers (.getShort sid offset) s (errorResponse .bounds (.byte y))) ∧
        (x.toNat ≤ 127 → y.toNat ≤ 127 →
          Answers (.getShort sid offset) s
            (okResponse (.shortValue (BitVec.ofNat 16 (x.toNat * 128 + y.toNat)))))))

/-- R185: GET_FX_CHAIN: storage 928..947, the first cell above 127 reported. That a cell above 127 is an error, and the
slot check, are the spec's own choices (D18; D6 and D28). -/
def Obligations.GetFxChainReadsTheFixedRange : Prop :=
  ∀ (s : State) (sid : Byte),
    decode (.req 0x25 [.byte sid]) = .ok (.getFxChain sid) ∧
    ((Config.nStores ≤ sid.toNat ∨ s.alive sid.toNat = false) →
      Answers (.getFxChain sid) s (errorResponse .noStore (.byte sid))) ∧
    (sid.toNat < Config.nStores → s.alive sid.toNat = true →
      ∀ v : Bytes, v = (List.range 20).map (fun j => (s.cells sid.toNat).read (928 + j)) →
        ((∀ x ∈ v, x.toNat ≤ 127) → Answers (.getFxChain sid) s (okResponse (.values v))) ∧
        (∀ pre x post, v = pre ++ x :: post → (∀ y ∈ pre, y.toNat ≤ 127) → 127 < x.toNat →
          Answers (.getFxChain sid) s (errorResponse .bounds (.byte x))))

/-- R187: the reader laws (a) to (c). The spec marks them as derived from R183 to R186. -/
def Obligations.ReadersReturnWhatWasWritten : Prop :=
  ∀ (s : State) (sid : Byte) (offset : U16), s.Inv → sid.toNat < Config.nStores → s.alive sid.toNat = true →
    (∀ x : Byte, isMapped offset.toNat = true → x.toNat ≤ 127 →
      ∃ t, exec (.writeBytes sid offset [x]) s = .next t ∧
        Answers (.getByte sid offset) t (okResponse (.byteValue x))) ∧
    (∀ hi lo : Byte, isMapped offset.toNat = true → isMapped (offset.toNat + 1) = true →
      hi.toNat ≤ 127 → lo.toNat ≤ 127 →
      ∃ t, exec (.writeBytes sid offset [hi, lo]) s = .next t ∧
        Answers (.getShort sid offset) t (okResponse (.shortValue (BitVec.ofNat 16 (hi.toNat * 128 + lo.toNat))))) ∧
    (∀ (v : Bytes) (j : Nat) (x : Byte), j < 20 →
      Answers (.getFxChain sid) s (okResponse (.values v)) →
      Answers (.getByte sid (BitVec.ofNat 16 (1013 + j))) s (okResponse (.byteValue x)) → v[j]? = some x)

/-- R48: WRITE_BYTES performed twice leaves the storage that performing it once leaves, with the same WriteStat, and
PATCH_NEW performed twice leaves the same slots. The spec marks this as derived from R180 to R185. -/
def Obligations.WritesAreIdempotent : Prop :=
  ∀ (s t : State) (i : Instr), s.Inv →
    (∃ sid offset data, i = .writeBytes sid offset data) ∨ (∃ sid enc, i = .patchNew sid enc) →
    exec i s = .next t →
    ∃ u r, exec i t = .next u ∧ u.slots = t.slots ∧
      t.responses = s.responses ++ [r] ∧ u.responses = s.responses ++ [r, r]

/-- R23: an operation on a slot reads and writes that slot alone. -/
def Obligations.SlotsAreIndependent : Prop :=
  ∀ (i : Instr) (sid : Byte), slotOf i = some sid →
    ∀ s t : State, s.slots[sid.toNat]? = t.slots[sid.toNat]? →
      ∃ s' t' r, exec i s = .next s' ∧ exec i t = .next t' ∧
        s'.responses = s.responses ++ [r] ∧ t'.responses = t.responses ++ [r] ∧
        s'.slots[sid.toNat]? = t'.slots[sid.toNat]? ∧
        (∀ j, j ≠ sid.toNat → s'.slots[j]? = s.slots[j]?) ∧ s'.requests = s.requests

/-- R18: the codec, address, checksum and frame operations read and write no state, and only PATCH_NEW, APPLY and
WRITE_BYTES write state. -/
def Obligations.OnlyTheStoreWritersWriteState : Prop :=
  (∀ i : Instr, slotOf i = none → ∃ r, ∀ s, Answers i s r) ∧
  (∀ (i : Instr) (s t : State), exec i s = .next t → t.slots ≠ s.slots →
    (∃ sid enc, i = .patchNew sid enc) ∨ (∃ sid m, i = .apply sid m) ∨
      (∃ sid offset data, i = .writeBytes sid offset data))

/-- R22: only PATCH_NEW sets a status bit, and no operation clears one. The status bit is the spec's own (D6). -/
def Obligations.AliveIsSetOnlyByPatchNew : Prop :=
  ∀ (i : Instr) (s t : State), exec i s = .next t → ∀ j,
    (s.alive j = true → t.alive j = true) ∧
    (s.alive j = false → t.alive j = true → ∃ sid enc, i = .patchNew sid enc ∧ sid.toNat = j)

/-- R26: CKSUM_WARN is set only in the response of a parse, of a PARSE request or of a Query or Command frame row.
Where the flag lives is the spec's own choice (D31); that a frame row sets it is the model's (log entry 3). -/
def Obligations.OnlyParseSetsTheWarning : Prop :=
  ∀ (i : Instr) (s t : State) (r : Response), exec i s = .next t → t.responses = s.responses ++ [r] →
    r.warn = true →
    r.status = .ok ∧
    ((∃ buf, i = .parse buf) ∨ (∃ dev region offset size cks, i = .frameQuery dev region offset size cks) ∨
      (∃ dev region offset data cks, i = .frameCommand dev region offset data cks))

/-- R60, R63, R220, R221: every step that takes a request gives one response, shaped as the spec says. The shapes are
the spec's own choices (D3, D4). -/
def Obligations.EveryResponseIsWellFormed : Prop :=
  ∀ (s : State) (r : Request) (rest : List Request), s.requests = r :: rest →
    ∃ t resp, step s = .next t ∧ t.requests = rest ∧ t.responses = s.responses ++ [resp] ∧ resp.Wf

/-- R224: a response whose status is not OK comes with unchanged state, from an operation or from a step. The spec
derives it from R13 and R179 to R185. -/
def Obligations.ErrorsChangeNoState : Prop :=
  (∀ (i : Instr) (s t : State) (r : Response), exec i s = .next t → t.responses = s.responses ++ [r] →
    r.status ≠ .ok → t.slots = s.slots ∧ t.requests = s.requests) ∧
  (∀ (s t : State) (r : Response), step s = .next t → t.responses = s.responses ++ [r] → r.status ≠ .ok →
    t.slots = s.slots)

/-! ## The machine -/

/-- A step takes the oldest request and performs the instruction it decodes to (R6, R64). That the requests are a list
of State is the model's choice (log entry 4). -/
def Obligations.StepPerformsTheDecodedRequest : Prop :=
  ∀ (s : State) (r : Request) (rest : List Request) (i : Instr),
    s.requests = r :: rest → decode r = .ok i → step s = exec i { s with requests := rest }

/-- R64: an illegal request reaches no operation. Its response is ILLEGAL_REQUEST, with the opcode where that is
unassigned and no info otherwise (R221), and nothing else changes but that the request is taken. The check, and that
no state changes, are the spec's own choices (D4, D25). -/
def Obligations.IllegalRequestsAreAnswered : Prop :=
  ∀ (s : State) (r : Request) (rest : List Request) (e : IllegalRequest),
    s.requests = r :: rest → decode r = .error e →
    ∀ info, info = (match e with | .unassignedOp op => Info.byte op | _ => Info.none) →
      step s = .next { s with
        requests := rest, responses := s.responses ++ [errorResponse .illegalRequest info] }

/-- R61 and R64: a request record is legal exactly when its opcode is assigned and its operand record fits; an
unassigned opcode is what is reported whatever the operands. The opcodes and the checks are the spec's own choices
(D3, D25); that fields not of the kind are malformed is the model's reading (log entry 9). -/
def Obligations.RequestIsLegalIffItFits : Prop :=
  ∀ (op : Byte) (operands : List Operand),
    ((∃ i, decode (.req op operands) = .ok i) ↔ ∃ o, opcodeByte o = op ∧ operandsFit o operands) ∧
    ((∃ o, opcodeByte o = op) ↔
      op.toNat ∈ [0x01, 0x02, 0x03, 0x04, 0x05, 0x06, 0x08, 0x09, 0x0A, 0x0B, 0x10, 0x11,
        0x20, 0x21, 0x22, 0x23, 0x24, 0x25]) ∧
    ((∀ o, opcodeByte o ≠ op) → decode (.req op operands) = .error (.unassignedOp op))

/-- R65: which message a record of each kind stands for, with its fields in their order, in a SERIALIZE request, in an
APPLY request and as the SERIALIZE row of its kind. The `fw` field of a record whose `fw_present` is 0 is ignored,
whatever it holds within `MAX_LIST_LEN`; that the ignored list still obeys that length is the model's reading (log entry
9). The opcodes and the kind codes are the spec's own choices (D3); that the row of a kind is an instruction with a
spelling of its own is the model's (log entry 3). -/
def Obligations.MessageRecordsDecodeToTheirMessages : Prop :=
  ∀ (dev : Byte) (region offset : U16) (size : U32) (fw data : Bytes),
    fw.length ≤ Config.maxListLen → data.length ≤ Config.maxListLen →
    ∀ (r : MsgRecord) (m : Msg) (row : Instr),
      (r, m, row) ∈
        [(⟨0, dev, []⟩, .idRequest dev, .serializeIdRequest dev),
         (⟨1, dev, [.bit true, .bytes fw]⟩, .idResponse dev (some fw), .serializeIdResponse dev (some fw)),
         (⟨1, dev, [.bit false, .bytes fw]⟩, .idResponse dev none, .serializeIdResponse dev none),
         (⟨2, dev, [.u16 region, .u16 offset, .u32 size]⟩, .query dev region offset size,
           .serializeQuery dev region offset size),
         (⟨3, dev, [.u16 region, .u16 offset, .bytes data]⟩, .command dev region offset data,
           .serializeCommand dev region offset data)] →
      decode (.req 0x11 [.msg r]) = .ok (.serialize m) ∧
      (∀ sid, decode (.req 0x21 [.byte sid, .msg r]) = .ok (.apply sid m)) ∧
      decode (.reqKind 0x11 r) = .ok row

/-- With no request waiting the block is idle and keeps its state (R239; log entry 7). That a step with no request is
a step that changes nothing is the model's reading. -/
def Obligations.IdleBlockKeepsItsState : Prop :=
  ∀ s : State, s.requests = [] → step s = .next s

/-- Every operation completes, and every request gets exactly one response, in order: as many steps as there are
requests take them all and give as many responses, from any state (R6, R50, R223, R262). The lists of requests and
responses are the model's choice (log entry 4). -/
def Obligations.RunsAnswerEveryRequest : Prop :=
  ∀ (s : State),
    (∀ k, SafeRun k s) ∧
    ∃ t given, Sys2Proof.core.run s.requests.length s = .next t ∧ t.requests = [] ∧
      t.responses = s.responses ++ given ∧ given.length = s.requests.length

/-- Every step keeps the invariant: `N_STORES` slots, each storage in canonical form and inside 0..1039 (R21, R182's
last corner case). The canonical form is the model's own. -/
def Obligations.StepKeepsTheInvariant : Prop :=
  ∀ s t : State, s.Inv → step s = .next t → t.Inv

/-- The invariant holds after reset. The storage at reset is the model's choice (log entry 2). -/
def Obligations.ResetMeetsTheInvariant : Prop := State.reset.Inv

/-- R250: the storage of a slot that is not alive cannot be observed. States that differ at most in it give the same
responses at every step, and go on differing at most in it. The spec marks this as derived from R179 and R180, and its
reset as its own (D9). -/
def Obligations.DeadStorageIsUnobservable : Prop :=
  ∀ (k : Nat) (s t : State), s.sameVisible t →
    ∃ s' t', Sys2Proof.core.run k s = .next s' ∧ Sys2Proof.core.run k t = .next t' ∧ s'.sameVisible t'

/-- What reset leaves, but for the storage, which R250 leaves open: no slot alive, no request in progress, no response
pending; and every store operation but PATCH_NEW then raises NO_STORE (R253). The reset is the spec's own (D9). -/
def Obligations.ResetLeavesNoSlotAlive : Prop :=
  State.reset.slots.length = Config.nStores ∧
  (∀ sid, State.reset.alive sid = false) ∧ State.reset.requests = [] ∧ State.reset.responses = [] ∧
  ∀ (sid : Byte) (m : Msg) (offset : U16) (data : Bytes) (i : Instr),
    i ∈ [.apply sid m, .writeBytes sid offset data, .getByte sid offset, .getShort sid offset, .getFxChain sid] →
    Answers i State.reset (errorResponse .noStore (.byte sid))

/-! ## Decoding -/

/-- Decoding the request that stands for a well-formed instruction gives it back, for every instruction and every
operand (R60 to R73). The request encoding is the spec's own choice (D3), the spellings of the table's other rows the
model's (log entry 3). -/
def Obligations.DecodeOfEncodeIsTheInstruction : Prop :=
  ∀ i : Instr, i.wellFormed = true → decode (encode i) = .ok i

/-- What the decoder gives is well-formed (R64). -/
def Obligations.DecodedInstructionsAreWellFormed : Prop :=
  ∀ (r : Request) (i : Instr), decode r = .ok i → i.wellFormed = true

/-- A few requests and frames written out from the spec's encodings (R61, R62, R65, R67, R69) decode to what they
stand for. The request encoding is the spec's own choice (D3). The spec gives R67 and R69 as frames, which PARSE reads:
that a frame is a request by itself (`Request.sysex`) and decodes to a frame row, as in the last two clauses, is the
model's choice (DESIGN CHOICE, log entry 3). -/
def Obligations.SpecEncodingsDecode : Prop :=
  decode (.req 0x05 [.u16 12288]) = .ok (.enc14 12288) ∧
  decode (.req 0x11 [.msg ⟨2, 0x10, [.u16 2049, .u16 0, .u32 0x7FFFFFF]⟩]) =
    .ok (.serialize (.query 0x10 2049 0 0x7FFFFFF)) ∧
  decode (.req 0x22 [.byte 0, .u16 100, .bytes [0x01, 0x02]]) = .ok (.writeBytes 0 100 [0x01, 0x02]) ∧
  decode (.req 0x24 [.byte 0, .u16 1013]) = .ok (.getShort 0 1013) ∧
  decode (.req 0x30 []) = .error (.unassignedOp 0x30) ∧
  decode (.sysex [0xF0, 0x7E, 0x7F, 0x06, 0x01, 0xF7]) = .ok (.frameIdReq 0x7F) ∧
  decode (.sysex [0xF0, 0x41, 0x00, 0x00, 0x00, 0x00, 0x33, 0x11, 0x60, 0x00, 0x00, 0x53, 0x00, 0x00, 0x00, 0x01,
    0x4C, 0xF7]) = .ok (.frameQuery 0x00 12288 0x53 1 0x4C)
end

