-- ==== Sys2Proof/Laws/Codec.lean ====
section
/-! SUPPORT. The base-128 codec, the address model and the checksum: one lemma for each outcome of each function. -/

namespace Sys2Proof.Machine

/-- Every byte is 7-bit safe. -/
abbrev Safe (b : Bytes) : Prop := ∀ x ∈ b, x.toNat ≤ 127

/-- The first unsafe byte of a list: nothing before it is unsafe. -/
theorem find_unsafe {pre post : Bytes} {x : Byte} (hp : Safe pre) (hx : 127 < x.toNat) :
    (pre ++ x :: post).find? (fun y => decide (127 < y.toNat)) = some x := by
  rw [List.find?_append, List.find?_eq_none.2 (by intro y hy; have := hp y hy; simpa using this)]
  simp [hx]

theorem find_safe {b : Bytes} (hb : Safe b) : b.find? (fun y => decide (127 < y.toNat)) = none :=
  List.find?_eq_none.2 (by intro y hy; have := hb y hy; simpa using this)

/-- A list is safe, or has a first unsafe byte. -/
theorem safe_or_first_unsafe (b : Bytes) :
    Safe b ∨ ∃ pre x post, b = pre ++ x :: post ∧ Safe pre ∧ 127 < x.toNat := by
  induction b with
  | nil => exact .inl (by simp [Safe])
  | cons y b ih =>
    by_cases hy : 127 < y.toNat
    · exact .inr ⟨[], y, b, rfl, by simp [Safe], hy⟩
    · rcases ih with h | ⟨pre, x, post, rfl, hp, hx⟩
      · exact .inl (by simpa [Safe] using ⟨by omega, h⟩)
      · exact .inr ⟨y :: pre, x, post, rfl, by simpa [Safe] using ⟨by omega, hp⟩, hx⟩

/-! ## `decodeK` -/

theorem decodeK_of_length {k : Nat} {b : Bytes} (h : b.length ≠ k) :
    decodeK k b = .error ⟨.length, .len k b.length⟩ := by simp [decodeK, h, raising]

theorem decodeK_of_safe {k : Nat} {b : Bytes} (h : b.length = k) (hb : Safe b) : decodeK k b = .ok (base128 b) := by
  simp [decodeK, h, find_safe hb]

theorem decodeK_of_unsafe {k : Nat} {pre post : Bytes} {x : Byte} (h : (pre ++ x :: post).length = k)
    (hp : Safe pre) (hx : 127 < x.toNat) : decodeK k (pre ++ x :: post) = .error ⟨.bounds, .byte x⟩ := by
  unfold decodeK
  rw [if_neg (by simpa using h), find_unsafe hp hx]
  rfl

/-- The three outcomes of `DecodeK`. -/
theorem decodeK_cases (k : Nat) (b : Bytes) :
    (b.length ≠ k ∧ decodeK k b = .error ⟨.length, .len k b.length⟩) ∨
    (b.length = k ∧ Safe b ∧ decodeK k b = .ok (base128 b)) ∨
    (b.length = k ∧ ∃ pre x post, b = pre ++ x :: post ∧ Safe pre ∧ 127 < x.toNat ∧
      decodeK k b = .error ⟨.bounds, .byte x⟩) := by
  by_cases h : b.length = k
  · rcases safe_or_first_unsafe b with hb | ⟨pre, x, post, rfl, hp, hx⟩
    · exact .inr (.inl ⟨h, hb, decodeK_of_safe h hb⟩)
    · exact .inr (.inr ⟨h, pre, x, post, rfl, hp, hx, decodeK_of_unsafe h hp hx⟩)
  · exact .inl ⟨h, decodeK_of_length h⟩

theorem decodeK_eq_ok {k v : Nat} {b : Bytes} (h : decodeK k b = .ok v) :
    b.length = k ∧ Safe b ∧ v = base128 b := by
  rcases decodeK_cases k b with ⟨_, e⟩ | ⟨h1, h2, e⟩ | ⟨_, _, _, _, _, _, _, e⟩ <;> rw [e] at h
  · cases h
  · exact ⟨h1, h2, (Except.ok.inj h).symm⟩
  · cases h

/-- A failed decode carries one of two statuses, neither of them `OK`. -/
theorem decodeK_error_status {k : Nat} {b : Bytes} {e : Raise} (h : decodeK k b = .error e) : e.status ≠ .ok := by
  rcases decodeK_cases k b with ⟨_, h'⟩ | ⟨_, _, h'⟩ | ⟨_, _, _, _, _, _, _, h'⟩ <;> rw [h'] at h <;> cases h <;> simp

theorem base128_lt {b : Bytes} (hb : Safe b) : base128 b < 128 ^ b.length := by
  induction b with
  | nil => simp [base128]
  | cons x b ih =>
    have hx : x.toNat ≤ 127 := hb x (by simp)
    have hi := ih fun y hy => hb y (by simp [hy])
    have h1 : x.toNat * 128 ^ b.length ≤ 127 * 128 ^ b.length := Nat.mul_le_mul_right _ hx
    simp only [base128, List.length_cons, pow_succ]
    omega

@[simp] theorem base128_one (x : Byte) : base128 [x] = x.toNat := by simp [base128]

@[simp] theorem base128_two (x y : Byte) : base128 [x, y] = x.toNat * 128 + y.toNat := by simp [base128]

@[simp] theorem base128_four (w x y z : Byte) :
    base128 [w, x, y, z] = w.toNat * 2097152 + x.toNat * 16384 + y.toNat * 128 + z.toNat := by
  simp [base128]
  omega

/-! ## `encodeK` -/

theorem encodeK_of_gt {k max v : Nat} (h : max < v) : encodeK k max v = .error ⟨.bounds, .value v⟩ := by
  simp [encodeK, h, raising]

/-- The two wire bytes of a 14-bit value. -/
def wire14 (v : Nat) : Bytes := [BitVec.ofNat 8 (v / 128), BitVec.ofNat 8 (v % 128)]

/-- The four wire bytes of a 28-bit value. -/
def wire28 (v : Nat) : Bytes :=
  [BitVec.ofNat 8 (v / 2097152), BitVec.ofNat 8 (v / 16384 % 128), BitVec.ofNat 8 (v / 128 % 128),
   BitVec.ofNat 8 (v % 128)]

theorem encodeK_one {v : Nat} (h : v ≤ max7) : encodeK 1 max7 v = .ok [BitVec.ofNat 8 v] := by
  have h' : v ≤ 127 := h
  have : v % 128 = v := by omega
  simp [encodeK, Nat.not_lt.2 h, List.range_succ, this]

theorem encodeK_two {v : Nat} (h : v ≤ max14) : encodeK 2 max14 v = .ok (wire14 v) := by
  have h' : v ≤ 16383 := h
  have : v / 128 % 128 = v / 128 := by omega
  simp [encodeK, Nat.not_lt.2 h, List.range_succ, this, wire14]

theorem encodeK_four {v : Nat} (h : v ≤ max28) : encodeK 4 max28 v = .ok (wire28 v) := by
  have h' : v ≤ 268435455 := h
  have : v / 2097152 % 128 = v / 2097152 := by omega
  simp [encodeK, Nat.not_lt.2 h, List.range_succ, this, wire28]

/-- The two outcomes of `EncodeK`. -/
theorem encodeK_eq_ok {k max v : Nat} {b : Bytes} (h : encodeK k max v = .ok b) : v ≤ max ∧ b.length = k := by
  unfold encodeK raising at h
  split at h
  · cases h
  · cases h
    exact ⟨by omega, by simp⟩

theorem encodeK_error_status {k max v : Nat} {e : Raise} (h : encodeK k max v = .error e) : e.status ≠ .ok := by
  unfold encodeK raising at h
  split at h <;> cases h
  simp

/-- A byte of a value below 256 is that value. -/
theorem toNat_ofNat8 {n : Nat} (h : n < 256) : (BitVec.ofNat 8 n).toNat = n := by simp; omega

theorem ofNat8_toNat (x : Byte) : BitVec.ofNat 8 x.toNat = x := by simp

theorem wire14_safe {v : Nat} (h : v ≤ 16383) : Safe (wire14 v) := by
  intro x hx
  simp only [wire14, List.mem_cons, List.not_mem_nil, or_false] at hx
  rcases hx with rfl | rfl <;> simp <;> omega

theorem wire28_safe {v : Nat} (h : v ≤ 268435455) : Safe (wire28 v) := by
  intro x hx
  simp only [wire28, List.mem_cons, List.not_mem_nil, or_false] at hx
  rcases hx with rfl | rfl | rfl | rfl <;> simp <;> omega

theorem base128_wire14 {v : Nat} (h : v ≤ 16383) : base128 (wire14 v) = v := by
  rw [wire14, base128_two, toNat_ofNat8 (by omega), toNat_ofNat8 (by omega)]
  omega

theorem base128_wire28 {v : Nat} (h : v ≤ 268435455) : base128 (wire28 v) = v := by
  rw [wire28, base128_four, toNat_ofNat8 (by omega), toNat_ofNat8 (by omega), toNat_ofNat8 (by omega),
    toNat_ofNat8 (by omega)]
  omega

theorem wire14_base128 {x y : Byte} (h : Safe [x, y]) : wire14 (base128 [x, y]) = [x, y] := by
  have hx := h x (by simp)
  have hy := h y (by simp)
  have h1 : (x.toNat * 128 + y.toNat) / 128 = x.toNat := by omega
  have h2 : (x.toNat * 128 + y.toNat) % 128 = y.toNat := by omega
  rw [base128_two, wire14, h1, h2, ofNat8_toNat, ofNat8_toNat]

theorem wire28_base128 {w x y z : Byte} (h : Safe [w, x, y, z]) : wire28 (base128 [w, x, y, z]) = [w, x, y, z] := by
  have hw := h w (by simp)
  have hx := h x (by simp)
  have hy := h y (by simp)
  have hz := h z (by simp)
  rw [base128_four, wire28]
  have h1 : (w.toNat * 2097152 + x.toNat * 16384 + y.toNat * 128 + z.toNat) / 2097152 = w.toNat := by omega
  have h2 : (w.toNat * 2097152 + x.toNat * 16384 + y.toNat * 128 + z.toNat) / 16384 % 128 = x.toNat := by omega
  have h3 : (w.toNat * 2097152 + x.toNat * 16384 + y.toNat * 128 + z.toNat) / 128 % 128 = y.toNat := by omega
  have h4 : (w.toNat * 2097152 + x.toNat * 16384 + y.toNat * 128 + z.toNat) % 128 = z.toNat := by omega
  rw [h1, h2, h3, h4, ofNat8_toNat, ofNat8_toNat, ofNat8_toNat, ofNat8_toNat]

/-! ## The address model -/

theorem addrDec_of_length {b : Bytes} (h : b.length ≠ 4) : addrDec b = .error ⟨.length, .len 4 b.length⟩ := by
  simp [addrDec, h, raising]

theorem addrDec_of_safe {r1 r0 o1 o0 : Byte} (h : Safe [r1, r0, o1, o0]) :
    addrDec [r1, r0, o1, o0] =
      .ok (BitVec.ofNat 16 (r1.toNat * 128 + r0.toNat), BitVec.ofNat 16 (o1.toNat * 128 + o0.toNat)) := by
  have hr : Safe [r1, r0] := fun x hx => h x (by simp at hx ⊢; tauto)
  have ho : Safe [o1, o0] := fun x hx => h x (by simp at hx ⊢; tauto)
  simp [addrDec, slice, decodeK_of_safe (k := 2) rfl hr, decodeK_of_safe (k := 2) rfl ho, bind, Except.bind, pure, Except.pure]

theorem addrDec_of_unsafe {pre post : Bytes} {x : Byte} (h : (pre ++ x :: post).length = 4) (hp : Safe pre)
    (hx : 127 < x.toNat) : addrDec (pre ++ x :: post) = .error ⟨.bounds, .byte x⟩ := by
  unfold addrDec
  rw [if_neg (by simpa using h)]
  match pre, post, h with
  | [], [a, b, c], _ =>
    have e := decodeK_of_unsafe (k := 2) (pre := []) (post := [a]) rfl (by simp [Safe]) hx
    simp only [List.nil_append] at e
    simp [slice, e, bind, Except.bind]
  | [a], [b, c], _ =>
    have e := decodeK_of_unsafe (k := 2) (pre := [a]) (post := []) rfl hp hx
    simp only [List.cons_append, List.nil_append] at e
    simp [slice, e, bind, Except.bind]
  | [a, b], [c], _ =>
    have e := decodeK_of_unsafe (k := 2) (pre := []) (post := [c]) rfl (by simp [Safe]) hx
    simp only [List.nil_append] at e
    simp [slice, decodeK_of_safe (k := 2) rfl hp, e, bind, Except.bind]
  | [a, b, c], [], _ =>
    have h1 : Safe [a, b] := fun y hy => hp y (by simp at hy ⊢; tauto)
    have h2 : Safe [c] := fun y hy => hp y (by simp at hy ⊢; tauto)
    have e := decodeK_of_unsafe (k := 2) (pre := [c]) (post := []) rfl h2 hx
    simp only [List.cons_append, List.nil_append] at e
    simp [slice, decodeK_of_safe (k := 2) rfl h1, e, bind, Except.bind]
  | [], [], h => simp at h
  | [], [_], h => simp at h
  | [], [_, _], h => simp at h
  | [], _ :: _ :: _ :: _ :: _, h => simp at h
  | [_], [], h => simp at h
  | [_], [_], h => simp at h
  | [_], _ :: _ :: _ :: _, h => simp at h
  | [_, _], [], h => simp at h
  | [_, _], _ :: _ :: _, h => simp at h
  | [_, _, _], _ :: _, h => simp at h
  | _ :: _ :: _ :: _ :: _, _, h => simp at h

/-- The three outcomes of `ADDR_DEC`. -/
theorem addrDec_cases (b : Bytes) :
    (b.length ≠ 4 ∧ addrDec b = .error ⟨.length, .len 4 b.length⟩) ∨
    (∃ r1 r0 o1 o0, b = [r1, r0, o1, o0] ∧ Safe b ∧
      addrDec b = .ok (BitVec.ofNat 16 (r1.toNat * 128 + r0.toNat), BitVec.ofNat 16 (o1.toNat * 128 + o0.toNat))) ∨
    (b.length = 4 ∧ ∃ pre x post, b = pre ++ x :: post ∧ Safe pre ∧ 127 < x.toNat ∧
      addrDec b = .error ⟨.bounds, .byte x⟩) := by
  by_cases h : b.length = 4
  · rcases safe_or_first_unsafe b with hb | ⟨pre, x, post, rfl, hp, hx⟩
    · match b, h with
      | [r1, r0, o1, o0], _ => exact .inr (.inl ⟨r1, r0, o1, o0, rfl, hb, addrDec_of_safe hb⟩)
    · exact .inr (.inr ⟨h, pre, x, post, rfl, hp, hx, addrDec_of_unsafe h hp hx⟩)
  · exact .inl ⟨h, addrDec_of_length h⟩

theorem addrDec_error_status {b : Bytes} {e : Raise} (h : addrDec b = .error e) : e.status ≠ .ok := by
  rcases addrDec_cases b with ⟨_, h'⟩ | ⟨_, _, _, _, _, _, h'⟩ | ⟨_, _, _, _, _, _, _, h'⟩ <;> rw [h'] at h <;>
    cases h <;> simp

/-- The three outcomes of `ADDR_ENC`. -/
theorem addrEnc_cases (region offset : U16) :
    (16383 < region.toNat ∧ addrEnc region offset = .error ⟨.bounds, .value region.toNat⟩) ∨
    (region.toNat ≤ 16383 ∧ 16383 < offset.toNat ∧ addrEnc region offset = .error ⟨.bounds, .value offset.toNat⟩) ∨
    (region.toNat ≤ 16383 ∧ offset.toNat ≤ 16383 ∧
      addrEnc region offset = .ok (wire14 region.toNat ++ wire14 offset.toNat)) := by
  by_cases hr : 16383 < region.toNat
  · refine .inl ⟨hr, ?_⟩
    simp [addrEnc, encodeK_of_gt (k := 2) (max := max14) hr, bind, Except.bind]
  · by_cases ho : 16383 < offset.toNat
    · refine .inr (.inl ⟨by omega, ho, ?_⟩)
      simp [addrEnc, encodeK_two (v := region.toNat) (Nat.not_lt.1 hr),
        encodeK_of_gt (k := 2) (max := max14) ho, bind, Except.bind]
    · refine .inr (.inr ⟨by omega, by omega, ?_⟩)
      simp [addrEnc, encodeK_two (v := region.toNat) (Nat.not_lt.1 hr),
        encodeK_two (v := offset.toNat) (Nat.not_lt.1 ho), bind, Except.bind, pure, Except.pure]

theorem addrEnc_error_status {region offset : U16} {e : Raise} (h : addrEnc region offset = .error e) :
    e.status ≠ .ok := by
  rcases addrEnc_cases region offset with ⟨_, h'⟩ | ⟨_, _, h'⟩ | ⟨_, _, h'⟩ <;> rw [h'] at h <;> cases h <;> simp

/-! ## The checksum -/

theorem groupsSum_flatten (g : List Bytes) : groupsSum g = (g.flatten.map BitVec.toNat).sum := by
  induction g with
  | nil => rfl
  | cons h g ih => simpa [groupsSum, List.sum_append] using ih

theorem checksumOf_toNat (g : List Bytes) : (checksumOf g).toNat = (128 - groupsSum g % 128) % 128 := by
  rw [checksumOf, toNat_ofNat8 (by omega)]

theorem checksumOf_le (g : List Bytes) : (checksumOf g).toNat ≤ 127 := by
  rw [checksumOf_toNat]
  omega

end Sys2Proof.Machine
end

