-- ==== Sys2Proof/Laws/Decode.lean ====
section
/-! SUPPORT. The decoder and the encoder: opcodes, message records, and the fields and formats of the frame rows. -/

namespace Sys2Proof

open Machine

/-! ## Opcodes and message records -/

@[simp] theorem opcodeOf_opcodeByte (o : Opcode) : opcodeOf (opcodeByte o) = some o := by cases o <;> rfl

/-- No two rows of the opcode map have the same opcode (R61). -/
theorem opcodeTable_distinct : opcodeTable.Pairwise fun a b => a.1 ≠ b.1 := by decide

theorem decode_request (o : Opcode) (operands : List Operand) :
    decode (request o operands) = decodeOperands o operands := by simp [request, decode]

@[simp] theorem limited_of_fits {α : Type} {n : Nat} (h : listFits n = true) (a : α) : limited n a = .ok a := by
  simp only [listFits, decide_eq_true_eq] at h
  simp [limited, h]

/-- A list operand is accepted when it is not too long, and nothing else. -/
theorem limited_eq_ok {α : Type} {n : Nat} {a b : α} (h : limited n a = .ok b) : listFits n = true ∧ a = b := by
  unfold limited at h
  split at h
  · exact ⟨by simpa [listFits] using ‹_›, Except.ok.inj h⟩
  · cases h

/-- The record of a message decodes to it. -/
theorem decodeMsg_encodeMsg {m : Msg} (h : m.wellFormed = true) : decodeMsg (encodeMsg m) = .ok m := by
  match m, h with
  | .idRequest _, _ => rfl
  | .idResponse _ none, _ => simp [decodeMsg, encodeMsg, limited]
  | .idResponse _ (some _), h => simp [decodeMsg, encodeMsg, limited_of_fits h]
  | .query _ _ _ _, _ => simp [decodeMsg, encodeMsg]
  | .command _ _ _ _, h => simp [decodeMsg, encodeMsg, limited_of_fits h]

/-! ## Frame fields -/

@[simp] theorem isSafe_safeByte (v : BitVec 7) : isSafe (safeByte v) = true := by
  simp [isSafe, safeByte, BitVec.msb_eq_decide]
  omega

theorem extract_safeByte (v : BitVec 7) : (safeByte v).extractLsb' 0 7 = v := by
  apply BitVec.eq_of_toNat_eq
  simp [safeByte]
  omega

/-- Two bit fields side by side, as a number. -/
theorem shiftLeft_or {a b n : Nat} (h : b < 2 ^ n) : a <<< n ||| b = a * 2 ^ n + b := by
  rw [← Nat.shiftLeft_add_eq_or_of_lt h, Nat.shiftLeft_eq]

theorem append7_toNat (a b : BitVec 7) : (a ++ b).toNat = a.toNat * 128 + b.toNat := by
  rw [BitVec.toNat_append, shiftLeft_or b.isLt]
  norm_num

theorem append14_toNat (a b : U14) : (a ++ b).toNat = a.toNat * 16384 + b.toNat := by
  rw [BitVec.toNat_append, shiftLeft_or b.isLt]
  norm_num

theorem extract7_toNat {w : Nat} (v : BitVec w) (start : Nat) :
    (v.extractLsb' start 7).toNat = v.toNat / 2 ^ start % 128 := by
  rw [BitVec.extractLsb'_toNat, Nat.shiftRight_eq_div_pow]

/-- The two wire bytes of a 14-bit field give it back. -/
@[simp] theorem field14_bytes (v : U14) : field14 (msbByte v) (lsbByte v) = v := by
  apply BitVec.eq_of_toNat_eq
  have := v.isLt
  rw [field14, msbByte, lsbByte, extract_safeByte, extract_safeByte, append7_toNat, extract7_toNat, extract7_toNat]
  omega

/-- The four wire bytes of a 28-bit field give it back. -/
theorem field28_bytes (v : U28) :
    field28 (safeByte (v.extractLsb' 21 7)) (safeByte (v.extractLsb' 14 7)) (safeByte (v.extractLsb' 7 7))
      (safeByte (v.extractLsb' 0 7)) = v := by
  apply BitVec.eq_of_toNat_eq
  have := v.isLt
  rw [field28, field14, field14, append14_toNat, append7_toNat, append7_toNat]
  simp only [extract_safeByte, extract7_toNat]
  omega

@[simp] theorem isSafe_msbByte (v : U14) : isSafe (msbByte v) = true := isSafe_safeByte _
@[simp] theorem isSafe_lsbByte (v : U14) : isSafe (lsbByte v) = true := isSafe_safeByte _

/-- A byte is 7-bit safe when it is at most 127. -/
theorem isSafe_iff (b : Byte) : isSafe b = true ↔ b.toNat ≤ 127 := by
  simp [isSafe, BitVec.msb_eq_decide]
  omega

/-! ## Frame formats -/

theorem frameRowOf_frameIdReq (dev : Byte) : frameRowOf (frameIdReqBytes dev) = some (.frameIdReq dev) := by
  simp [frameRowOf, frameIdReqBytes, frameIdReqOf]

theorem frameRowOf_frameIdResp (dev f0 f1 f2 f3 : Byte) :
    frameRowOf (frameIdRespBytes dev f0 f1 f2 f3) = some (.frameIdResp dev f0 f1 f2 f3) := by
  simp [frameRowOf, frameIdRespBytes, frameIdReqOf, frameIdRespOf]

theorem frameRowOf_frameQuery (dev : Byte) (region offset : U14) (size : U28) (cks : Byte) :
    frameRowOf (frameQueryBytes dev region offset size cks) = some (.frameQuery dev region offset size cks) := by
  simp [frameRowOf, frameQueryBytes, addressBytes, sizeBytes, frameIdReqOf, frameIdRespOf, frameQueryOf,
    field28_bytes]

/-- A list that begins as a vendor frame is in neither format of the Universal path. -/
theorem frameIdOf_vendor (dev : Byte) (rest : Bytes) :
    (frameIdReqOf (0xF0 :: 0x41 :: dev :: rest)).or (frameIdRespOf (0xF0 :: 0x41 :: dev :: rest)) = none := by
  have h1 : frameIdReqOf (0xF0 :: 0x41 :: dev :: rest) = none := by
    unfold frameIdReqOf
    split
    · rename_i h
      simp only [List.cons.injEq] at h
      obtain ⟨rfl, rfl, -⟩ := h
      simp
    · rfl
  have h2 : frameIdRespOf (0xF0 :: 0x41 :: dev :: rest) = none := by
    unfold frameIdRespOf
    split
    · rename_i h
      simp only [List.cons.injEq] at h
      obtain ⟨rfl, rfl, -⟩ := h
      simp
    · rfl
  rw [h1, h2]
  rfl

/-- A list that begins as a Command frame is not in format F-QUERY. -/
theorem frameQueryOf_command (b0 b1 dev b3 b4 b5 b6 : Byte) (rest : Bytes) :
    frameQueryOf (b0 :: b1 :: dev :: b3 :: b4 :: b5 :: b6 :: 0x12 :: rest) = none := by
  unfold frameQueryOf
  split
  · rename_i h
    simp only [List.cons.injEq] at h
    obtain ⟨-, -, -, -, -, -, -, rfl, -⟩ := h
    simp
  · rfl

theorem frameRowOf_frameCommand (dev : Byte) (region offset : U14) (data : Bytes) (cks : Byte) :
    frameRowOf (frameCommandBytes dev region offset data cks) = some (.frameCommand dev region offset data cks) := by
  have e : frameCommandBytes dev region offset data cks =
      0xF0 :: 0x41 :: dev :: 0x00 :: 0x00 :: 0x00 :: 0x33 :: 0x12 ::
        msbByte region :: lsbByte region :: msbByte offset :: lsbByte offset :: (data ++ [cks, 0xF7]) := by
    simp [frameCommandBytes, addressBytes]
  rw [e, frameRowOf, frameIdOf_vendor, frameQueryOf_command]
  simp [frameCommandOf]

theorem frameIdReqBytes_length (dev : Byte) : (frameIdReqBytes dev).length = 6 := rfl
theorem frameIdRespBytes_length (dev f0 f1 f2 f3 : Byte) : (frameIdRespBytes dev f0 f1 f2 f3).length = 15 := rfl
theorem frameQueryBytes_length (dev : Byte) (region offset : U14) (size : U28) (cks : Byte) :
    (frameQueryBytes dev region offset size cks).length = 18 := rfl
theorem frameCommandBytes_length (dev : Byte) (region offset : U14) (data : Bytes) (cks : Byte) :
    (frameCommandBytes dev region offset data cks).length = 14 + data.length := by
  simp [frameCommandBytes, addressBytes]
  omega

end Sys2Proof
end

