-- ==== Sys2Proof/Laws/Memory.lean ====
section
/-! SUPPORT. Storage: reads after writes, and the canonical form that every memory operation keeps. -/

namespace Sys2Proof.Machine

namespace Memory

@[simp] theorem read_nil (i : Nat) : read [] i = unlisted := rfl

/-- A cell below every listed one reads as an unlisted cell. -/
theorem read_of_lt {m : Memory} {i : Nat} (h : ∀ c ∈ m, i < c.1) : read m i = unlisted := by
  induction m with
  | nil => rfl
  | cons c m ih =>
    obtain ⟨k, b⟩ := c
    have hk : i < k := h (k, b) (by simp)
    have : k ≠ i := by omega
    simp only [read, this, if_false]
    exact ih fun d hd => h d (by simp [hd])

/-- A storage whose least listed cell is `k`. -/
theorem wf_cons {k : Nat} {b : Byte} {m : Memory} :
    Wf ((k, b) :: m) ↔ (∀ c ∈ m, k < c.1) ∧ b ≠ unlisted ∧ Wf m := by
  simp only [Wf, List.pairwise_cons, List.mem_cons, forall_eq_or_imp]
  tauto

@[simp] theorem wf_nil : Wf [] := by simp [Wf]

/-- Writing a cell of a canonical storage changes that cell and no other. -/
theorem read_write {m : Memory} (hm : Wf m) (i : Nat) (b : Byte) (j : Nat) :
    read (write m i b) j = if i = j then b else read m j := by
  induction m with
  | nil => by_cases hb : b = unlisted <;> by_cases hj : i = j <;> simp [write, cell, read, hb, hj]
  | cons c m ih =>
    obtain ⟨k, c⟩ := c
    obtain ⟨hk, hc, hm'⟩ := wf_cons.1 hm
    simp only [write]
    split
    · rename_i hik
      by_cases hb : b = unlisted
      · simp only [cell, hb, if_true]
        by_cases hj : i = j
        · subst hj
          rw [if_pos rfl]
          exact read_of_lt fun d hd => by
            rcases List.mem_cons.1 hd with rfl | hd
            · exact hik
            · exact Nat.lt_trans hik (hk d hd)
        · rw [if_neg hj]
      · simp [cell, hb, read]
    · split
      · rename_i hik
        subst hik
        by_cases hb : b = unlisted
        · simp only [cell, hb, if_true]
          by_cases hj : i = j
          · subst hj
            rw [if_pos rfl]
            exact read_of_lt hk
          · simp [read, hj]
        · by_cases hj : i = j <;> simp [cell, hb, read, hj]
      · simp only [read]
        by_cases hj : k = j
        · have : i ≠ j := by omega
          simp [hj, this]
        · simp [hj, ih hm']

@[simp] theorem read_write_self {m : Memory} (hm : Wf m) (i : Nat) (b : Byte) : read (write m i b) i = b := by
  simp [read_write hm]

theorem read_write_other {m : Memory} (hm : Wf m) {i j : Nat} (b : Byte) (h : i ≠ j) :
    read (write m i b) j = read m j := by
  simp [read_write hm, h]

/-- A write lists no cell but those listed before and the one written. -/
theorem mem_write {m : Memory} {i : Nat} {b : Byte} {d : Host.Cell} (h : d ∈ write m i b) : d = (i, b) ∨ d ∈ m := by
  induction m with
  | nil =>
    simp only [write, cell] at h
    split at h <;> simp_all
  | cons c m ih =>
    simp only [write, cell] at h
    split at h
    · split at h <;> simp_all
    · split at h
      · split at h <;> simp_all
        tauto
      · rcases List.mem_cons.1 h with rfl | h
        · simp
        · rcases ih h with rfl | h <;> simp [*]

/-- Writing a cell keeps the canonical form. -/
theorem write_wf {m : Memory} (hm : Wf m) (i : Nat) (b : Byte) : Wf (write m i b) := by
  induction m with
  | nil => by_cases hb : b = unlisted <;> simp [write, cell, hb, Wf]
  | cons c m ih =>
    obtain ⟨k, c⟩ := c
    obtain ⟨hk, hc, hm'⟩ := wf_cons.1 hm
    simp only [write]
    split
    · rename_i hik
      by_cases hb : b = unlisted
      · simpa [cell, hb] using hm
      · simp only [cell, hb, if_false]
        exact wf_cons.2 ⟨fun d hd => by
          rcases List.mem_cons.1 hd with rfl | hd
          · exact hik
          · exact Nat.lt_trans hik (hk d hd), hb, hm⟩
    · split
      · rename_i hik
        subst hik
        by_cases hb : b = unlisted
        · simpa [cell, hb] using hm'
        · simp only [cell, hb, if_false]
          exact wf_cons.2 ⟨hk, hb, hm'⟩
      · refine wf_cons.2 ⟨fun d hd => ?_, hc, ih hm'⟩
        rcases mem_write hd with rfl | hd
        · simp only; omega
        · exact hk d hd

/-- Writing a cell of a store keeps the storage inside the store. -/
theorem write_inRange {m : Memory} (hm : InRange m) {i : Nat} (hi : i < storageSize) (b : Byte) :
    InRange (write m i b) := by
  intro d hd
  rcases mem_write hd with rfl | hd
  · exact hi
  · exact hm d hd

/-- In canonical form, storages that read alike are the same data. -/
theorem ext_of_read {m n : Memory} (hm : Wf m) (hn : Wf n) (h : ∀ i, read m i = read n i) : m = n := by
  induction m generalizing n with
  | nil =>
    cases n with
    | nil => rfl
    | cons d n =>
      obtain ⟨k, b⟩ := d
      have := h k
      simp only [read, if_true] at this
      exact absurd this.symm (wf_cons.1 hn).2.1
  | cons c m ih =>
    obtain ⟨k, b⟩ := c
    obtain ⟨hk, hb, hm'⟩ := wf_cons.1 hm
    cases n with
    | nil =>
      have := h k
      simp only [read, if_true] at this
      exact absurd this hb
    | cons d n =>
      obtain ⟨l, d⟩ := d
      obtain ⟨hl, hd, hn'⟩ := wf_cons.1 hn
      have hkl : k = l := by
        rcases Nat.lt_trichotomy k l with hlt | heq | hlt
        · have := h k
          rw [read_of_lt (m := (l, d) :: n) (fun e he => by
            rcases List.mem_cons.1 he with rfl | he
            · exact hlt
            · exact Nat.lt_trans hlt (hl e he))] at this
          simp only [read, if_true] at this
          exact absurd this hb
        · exact heq
        · have := h l
          rw [read_of_lt (m := (k, b) :: m) (fun e he => by
            rcases List.mem_cons.1 he with rfl | he
            · exact hlt
            · exact Nat.lt_trans hlt (hk e he))] at this
          simp only [read, if_true] at this
          exact absurd this.symm hd
      subst hkl
      have hbd : b = d := by simpa [read] using h k
      subst hbd
      congr 1
      apply ih hm' hn'
      intro i
      by_cases hi : k = i
      · subst hi
        rw [read_of_lt hk, read_of_lt hl]
      · simpa [read, hi] using h i

@[simp] theorem read_zeroFill (i : Nat) : read zeroFill i = 0 := rfl

end Memory

open Memory

/-- `memWrite` writes byte `j` at offset `i + j` and leaves every other cell alone. -/
theorem read_memWrite {m : Memory} (hm : Wf m) (i : Nat) (v : Bytes) (j : Nat) :
    (memWrite m i v).read j = if i ≤ j then (v[j - i]?).getD (m.read j) else m.read j := by
  induction v generalizing m i with
  | nil => simp [memWrite]
  | cons b v ih =>
    rw [memWrite, ih (write_wf hm i b), read_write hm]
    rcases Nat.lt_trichotomy i j with h | h | h
    · have e : j - i = j - (i + 1) + 1 := by omega
      have h1 : i ≤ j := by omega
      have h2 : i ≠ j := by omega
      have h3 : i + 1 ≤ j := by omega
      simp [h1, h2, h3, e]
    · subst h
      simp
    · have h1 : ¬ i ≤ j := by omega
      have h2 : i ≠ j := by omega
      have h3 : ¬ i + 1 ≤ j := by omega
      simp [h1, h2, h3]

/-- `memWrite` keeps the canonical form. -/
theorem memWrite_wf {m : Memory} (hm : Wf m) (i : Nat) (v : Bytes) : Wf (memWrite m i v) := by
  induction v generalizing m i with
  | nil => exact hm
  | cons b v ih => exact ih (write_wf hm i b) _

/-- `memWrite` inside a store keeps the storage inside the store (00_scope.md R12). -/
theorem memWrite_inRange {m : Memory} (hm : InRange m) {i : Nat} {v : Bytes} (h : i + v.length ≤ storageSize) :
    InRange (memWrite m i v) := by
  induction v generalizing m i with
  | nil => exact hm
  | cons b v ih =>
    simp only [List.length_cons] at h
    exact ih (write_inRange hm (by omega) b) (by omega)

/-- The zero-filled storage is what `MemWrite(sid, 0, 1040, repeat(0x00, 1040))` leaves of a store's storage
(43_patch_store.md R180). -/
theorem memWrite_zeros {m : Memory} (hm : Wf m) (hr : InRange m) :
    memWrite m 0 (List.replicate storageSize 0) = zeroFill := by
  apply ext_of_read (memWrite_wf hm _ _) wf_nil
  intro i
  rw [read_memWrite hm]
  by_cases h : i < storageSize
  · simp [h, unlisted]
  · have hi : m.read i = unlisted := by
      clear hm
      induction m with
      | nil => rfl
      | cons c m ih =>
        obtain ⟨k, b⟩ := c
        have hk : k < storageSize := hr (k, b) (by simp)
        have : k ≠ i := by omega
        simp only [Memory.read, this, if_false]
        exact ih fun d hd => hr d (by simp [hd])
    simp [h, hi]

@[simp] theorem memRead_length (m : Memory) (i n : Nat) : (memRead m i n).length = n := by simp [memRead]

@[simp] theorem memRead_one (m : Memory) (i : Nat) : memRead m i 1 = [m.read i] := by
  simp [memRead, List.range_succ]

end Sys2Proof.Machine
end

