-- ==== Sys2Proof/Laws/PerInstr.lean ====
section
/-! SUPPORT. Statements made for every instruction, one lemma per constructor. -/

namespace Sys2Proof.Laws.RoundTrip

/-- Decoding the request that stands for a well-formed instruction gives it back. -/
def Statement (i : Instr) : Prop := i.wellFormed = true → decode (encode i) = .ok i

theorem dec7 (b : Bytes) : Statement (.dec7 b) := fun h => by
  simp [encode, decode_request, decodeOperands, takeBytes, limited_of_fits h]
theorem dec14 (b : Bytes) : Statement (.dec14 b) := fun h => by
  simp [encode, decode_request, decodeOperands, takeBytes, limited_of_fits h]
theorem dec28 (b : Bytes) : Statement (.dec28 b) := fun h => by
  simp [encode, decode_request, decodeOperands, takeBytes, limited_of_fits h]
theorem enc7 (v : Byte) : Statement (.enc7 v) := fun _ => by simp [encode, decode_request, decodeOperands]
theorem enc14 (v : U16) : Statement (.enc14 v) := fun _ => by simp [encode, decode_request, decodeOperands]
theorem enc28 (v : U32) : Statement (.enc28 v) := fun _ => by simp [encode, decode_request, decodeOperands]
theorem addrDec (b : Bytes) : Statement (.addrDec b) := fun h => by
  simp [encode, decode_request, decodeOperands, takeBytes, limited_of_fits h]
theorem addrEnc (region offset : U16) : Statement (.addrEnc region offset) := fun _ => by
  simp [encode, decode_request, decodeOperands]
theorem isMutable (region : U16) : Statement (.isMutable region) := fun _ => by
  simp [encode, decode_request, decodeOperands]
theorem checksum (g : List Bytes) : Statement (.checksum g) := fun h => by
  rw [encode, decode_request, decodeOperands]
  exact limited_of_fits h _
theorem parse (buf : Bytes) : Statement (.parse buf) := fun h => by
  simp [encode, decode_request, decodeOperands, takeBytes, limited_of_fits h]
theorem serialize (m : Msg) : Statement (.serialize m) := fun h => by
  simp [encode, decode_request, decodeOperands, decodeMsg_encodeMsg h, Except.map]
theorem patchNew (sid enc : Byte) : Statement (.patchNew sid enc) := fun _ => by
  simp [encode, decode_request, decodeOperands]
theorem apply (sid : Byte) (m : Msg) : Statement (.apply sid m) := fun h => by
  simp [encode, decode_request, decodeOperands, decodeMsg_encodeMsg h, Except.map]
theorem writeBytes (sid : Byte) (offset : U16) (data : Bytes) : Statement (.writeBytes sid offset data) := fun h => by
  simp [encode, decode_request, decodeOperands, limited_of_fits h]
theorem getByte (sid : Byte) (offset : U16) : Statement (.getByte sid offset) := fun _ => by
  simp [encode, decode_request, decodeOperands, takeSidOffset]
theorem getShort (sid : Byte) (offset : U16) : Statement (.getShort sid offset) := fun _ => by
  simp [encode, decode_request, decodeOperands, takeSidOffset]
theorem getFxChain (sid : Byte) : Statement (.getFxChain sid) := fun _ => by
  simp [encode, decode_request, decodeOperands]
theorem serializeIdRequest (dev : Byte) : Statement (.serializeIdRequest dev) := fun _ => by
  simp [encode, decode, decodeMsg_encodeMsg (m := .idRequest dev) rfl, serializeRowOf, Except.map]
theorem serializeIdResponse (dev : Byte) (fw : Option Bytes) : Statement (.serializeIdResponse dev fw) := fun h => by
  simp [encode, decode, decodeMsg_encodeMsg (m := .idResponse dev fw) h, serializeRowOf, Except.map]
theorem serializeQuery (dev : Byte) (region offset : U16) (size : U32) :
    Statement (.serializeQuery dev region offset size) := fun _ => by
  simp [encode, decode, decodeMsg_encodeMsg (m := .query dev region offset size) rfl, serializeRowOf, Except.map]
theorem serializeCommand (dev : Byte) (region offset : U16) (data : Bytes) :
    Statement (.serializeCommand dev region offset data) := fun h => by
  simp [encode, decode, decodeMsg_encodeMsg (m := .command dev region offset data) h, serializeRowOf, Except.map]
theorem frameIdReq (dev : Byte) : Statement (.frameIdReq dev) := fun h => by
  rw [encode, decode, frameIdReqBytes_length, limited_of_fits h, frameRowOf_frameIdReq]
  rfl
theorem frameIdResp (dev fw0 fw1 fw2 fw3 : Byte) : Statement (.frameIdResp dev fw0 fw1 fw2 fw3) := fun h => by
  rw [encode, decode, frameIdRespBytes_length, limited_of_fits h, frameRowOf_frameIdResp]
  rfl
theorem frameQuery (dev : Byte) (region offset : U14) (size : U28) (cks : Byte) :
    Statement (.frameQuery dev region offset size cks) := fun h => by
  rw [encode, decode, frameQueryBytes_length, limited_of_fits h, frameRowOf_frameQuery]
  rfl
theorem frameCommand (dev : Byte) (region offset : U14) (data : Bytes) (cks : Byte) :
    Statement (.frameCommand dev region offset data cks) := fun h => by
  rw [encode, decode, frameCommandBytes_length, limited_of_fits h, frameRowOf_frameCommand]
  rfl

end Sys2Proof.Laws.RoundTrip
end

