-- ==== Sys2Proof/Laws/Protocol.lean ====
section
/-! SUPPORT. The frame unit: what the framing checks let through, the shape of a vendor frame, and what PARSE and
SERIALIZE do on each. -/

namespace Sys2Proof.Machine

theorem byteAt_of_getElem? {b : Bytes} {i : Nat} {x : Byte} (h : b[i]? = some x) : byteAt b i = x := by
  simp [byteAt, List.getD, h]

theorem byteAt_zero_of_head? {b : Bytes} {x : Byte} (h : b.head? = some x) : byteAt b 0 = x :=
  byteAt_of_getElem? (by rwa [List.head?_eq_getElem?] at h)

theorem byteAt_last_of_getLast? {b : Bytes} {x : Byte} (h : b.getLast? = some x) : byteAt b (b.length - 1) = x :=
  byteAt_of_getElem? (by rwa [List.getLast?_eq_getElem?] at h)

/-! ## Framing (42_sysex_protocol.md R140) -/

theorem parseFrame_of_start {buf : Bytes} (h : buf.head? ≠ some 0xF0) :
    parseFrame buf = .error ⟨.frameStart, .none⟩ := by
  unfold parseFrame
  rw [if_pos]
  · rfl
  · cases buf with
    | nil => exact .inl rfl
    | cons b buf => exact .inr (by simpa [byteAt, sox] using h)

theorem parseFrame_of_end {buf : Bytes} (h1 : buf.head? = some 0xF0) (h2 : buf.getLast? ≠ some 0xF7) :
    parseFrame buf = .error ⟨.frameEnd, .none⟩ := by
  unfold parseFrame
  have hne : buf ≠ [] := by rintro rfl; simp at h1
  rw [if_neg (by simp [byteAt_zero_of_head? h1, hne, sox]), if_pos]
  · rfl
  · intro h
    apply h2
    rw [List.getLast?_eq_getElem?]
    have : buf.length - 1 < buf.length := by have := List.length_pos_iff.2 hne; omega
    rw [List.getElem?_eq_getElem this]
    simpa [byteAt, List.getD, List.getElem?_eq_getElem this, eox] using h

/-- A frame with both markers goes on to the length and the dialect. -/
theorem parseFrame_of_markers {buf : Bytes} (h1 : buf.head? = some 0xF0) (h2 : buf.getLast? = some 0xF7) :
    parseFrame buf =
      if buf.length < 6 then raising .length (.len 6 buf.length)
      else if byteAt buf 1 = univNrt then parseUniversal buf
      else if byteAt buf 1 = vendorId then parseVendor buf
      else raising .unknownVendor (.byte (byteAt buf 1)) := by
  have hne : buf ≠ [] := by rintro rfl; simp at h1
  rw [parseFrame, if_neg (by simp [byteAt_zero_of_head? h1, hne, sox]),
    if_neg (by simp [byteAt_last_of_getLast? h2, eox])]

/-- The three ways a list of bytes stands to the framing. -/
theorem framing_cases (buf : Bytes) :
    buf.head? ≠ some 0xF0 ∨ (buf.head? = some 0xF0 ∧ buf.getLast? ≠ some 0xF7) ∨
      (buf.head? = some 0xF0 ∧ buf.getLast? = some 0xF7) := by
  by_cases h1 : buf.head? = some 0xF0 <;> by_cases h2 : buf.getLast? = some 0xF7 <;> tauto

/-! ## The shape of a vendor frame (30_encoding.md R71) -/

/-- A frame of the vendor path, 14 bytes or longer, by its fields. -/
def vendorFrame (dev m0 m1 m2 m3 sel r1 r0 o1 o0 : Byte) (payload : Bytes) (cks : Byte) : Bytes :=
  [0xF0, 0x41, dev, m0, m1, m2, m3, sel, r1, r0, o1, o0] ++ payload ++ [cks, 0xF7]

/-- The last two elements of a list of two or more. -/
theorem exists_append_two {b : Bytes} (h : 2 ≤ b.length) : ∃ init x y, b = init ++ [x, y] := by
  match hb : b.reverse with
  | [] => simp [List.reverse_eq_nil_iff.1 hb] at h
  | [x] =>
    have : b.length = 1 := by rw [← List.length_reverse, hb]; rfl
    omega
  | y :: x :: rest =>
    refine ⟨rest.reverse, x, y, ?_⟩
    rw [← List.reverse_reverse b, hb]
    simp

/-- Every list of 14 bytes or more with both markers and the vendor dialect is a vendor frame. -/
theorem exists_vendorFrame {buf : Bytes} (h1 : buf.head? = some 0xF0) (h2 : buf.getLast? = some 0xF7)
    (h3 : 14 ≤ buf.length) (h4 : buf[1]? = some 0x41) :
    ∃ dev m0 m1 m2 m3 sel r1 r0 o1 o0 payload cks,
      buf = vendorFrame dev m0 m1 m2 m3 sel r1 r0 o1 o0 payload cks := by
  match buf, h3 with
  | b0 :: b1 :: dev :: m0 :: m1 :: m2 :: m3 :: sel :: r1 :: r0 :: o1 :: o0 :: rest, h3 =>
    obtain ⟨payload, cks, last, rfl⟩ := exists_append_two (b := rest) (by simp at h3; omega)
    have e0 : b0 = 0xF0 := by simpa using h1
    have e1 : b1 = 0x41 := by simpa using h4
    have e2 : last = 0xF7 := by
      have : (b0 :: b1 :: dev :: m0 :: m1 :: m2 :: m3 :: sel :: r1 :: r0 :: o1 :: o0 :: (payload ++ [cks, last])) =
          (b0 :: b1 :: dev :: m0 :: m1 :: m2 :: m3 :: sel :: r1 :: r0 :: o1 :: o0 :: (payload ++ [cks])) ++ [last] := by
        simp
      rw [this, List.getLast?_concat] at h2
      exact Option.some.inj h2
    subst e0 e1 e2
    exact ⟨dev, m0, m1, m2, m3, sel, r1, r0, o1, o0, payload, cks, by simp [vendorFrame]⟩

section
variable (dev m0 m1 m2 m3 sel r1 r0 o1 o0 : Byte) (payload : Bytes) (cks : Byte)

theorem vendorFrame_length :
    (vendorFrame dev m0 m1 m2 m3 sel r1 r0 o1 o0 payload cks).length = 14 + payload.length := by
  simp [vendorFrame]
  omega

theorem vendorFrame_head : (vendorFrame dev m0 m1 m2 m3 sel r1 r0 o1 o0 payload cks).head? = some 0xF0 := rfl

theorem vendorFrame_last : (vendorFrame dev m0 m1 m2 m3 sel r1 r0 o1 o0 payload cks).getLast? = some 0xF7 := by
  have : vendorFrame dev m0 m1 m2 m3 sel r1 r0 o1 o0 payload cks =
      ([0xF0, 0x41, dev, m0, m1, m2, m3, sel, r1, r0, o1, o0] ++ payload ++ [cks]) ++ [0xF7] := by
    simp [vendorFrame]
  rw [this, List.getLast?_concat]

theorem vendorFrame_payload : slice (vendorFrame dev m0 m1 m2 m3 sel r1 r0 o1 o0 payload cks) 12
    ((vendorFrame dev m0 m1 m2 m3 sel r1 r0 o1 o0 payload cks).length - 2) = payload := by
  rw [vendorFrame_length]
  have : 14 + payload.length - 2 - 12 = payload.length := by omega
  simp [slice, vendorFrame, this]

theorem vendorFrame_cks_index : (vendorFrame dev m0 m1 m2 m3 sel r1 r0 o1 o0 payload cks)[
    (vendorFrame dev m0 m1 m2 m3 sel r1 r0 o1 o0 payload cks).length - 2]? = some cks := by
  rw [vendorFrame_length]
  have : 14 + payload.length - 2 = 12 + payload.length := by omega
  rw [this, vendorFrame, List.append_assoc, List.getElem?_append_right (by simp)]
  simp

theorem vendorFrame_set (k : Byte) :
    (vendorFrame dev m0 m1 m2 m3 sel r1 r0 o1 o0 payload cks).set
      ((vendorFrame dev m0 m1 m2 m3 sel r1 r0 o1 o0 payload cks).length - 2) k =
    vendorFrame dev m0 m1 m2 m3 sel r1 r0 o1 o0 payload k := by
  rw [vendorFrame_length]
  have : 14 + payload.length - 2 = 12 + payload.length := by omega
  rw [this, vendorFrame, List.append_assoc, List.set_append_right _ _ (by simp)]
  simp [vendorFrame]

/-- What PARSE does with a vendor frame (42_sysex_protocol.md R143 to R146). -/
theorem parseFrame_vendorFrame :
    parseFrame (vendorFrame dev m0 m1 m2 m3 sel r1 r0 o1 o0 payload cks) =
      if [m0, m1, m2, m3] ≠ modelId then raising .modelMismatch .none
      else if sel ≠ opQuery ∧ sel ≠ opCommand then raising .unknownOp (.byte sel)
      else (addrDec [r1, r0, o1, o0]).bind fun a =>
        (if sel = opQuery then parseQuery dev a.1 a.2 payload else parseCommand dev a.1 a.2 payload).map fun m =>
          checkAndReturn m [r1, r0, o1, o0] payload cks := by
  rw [parseFrame_of_markers (vendorFrame_head ..) (vendorFrame_last ..)]
  have hn := vendorFrame_length dev m0 m1 m2 m3 sel r1 r0 o1 o0 payload cks
  have hp := vendorFrame_payload dev m0 m1 m2 m3 sel r1 r0 o1 o0 payload cks
  have hk := byteAt_of_getElem? (vendorFrame_cks_index dev m0 m1 m2 m3 sel r1 r0 o1 o0 payload cks)
  have b1 : byteAt (vendorFrame dev m0 m1 m2 m3 sel r1 r0 o1 o0 payload cks) 1 = 0x41 := rfl
  have b2 : byteAt (vendorFrame dev m0 m1 m2 m3 sel r1 r0 o1 o0 payload cks) 2 = dev := rfl
  have b7 : byteAt (vendorFrame dev m0 m1 m2 m3 sel r1 r0 o1 o0 payload cks) 7 = sel := rfl
  have s3 : slice (vendorFrame dev m0 m1 m2 m3 sel r1 r0 o1 o0 payload cks) 3 7 = [m0, m1, m2, m3] := by
    simp [slice, vendorFrame]
  have s8 : slice (vendorFrame dev m0 m1 m2 m3 sel r1 r0 o1 o0 payload cks) 8 12 = [r1, r0, o1, o0] := by
    simp [slice, vendorFrame]
  generalize vendorFrame dev m0 m1 m2 m3 sel r1 r0 o1 o0 payload cks = buf at *
  rw [if_neg (by omega), b1, if_neg (by decide), if_pos (show (0x41 : Byte) = vendorId from rfl), parseVendor]
  simp only [s3, s8, b2, b7, hp, hk]
  rw [if_neg (by omega)]
  simp only [bind, pure, Except.pure]
  split
  · rfl
  · split
    · rfl
    · congr 1
      funext a
      split <;> cases h : parseQuery dev a.1 a.2 payload <;> rfl

end

/-! ## What the unit answers with -/

theorem parseQuery_cases (dev : Byte) (region offset : U16) (payload : Bytes) :
    (payload.length ≠ 4 ∧
      parseQuery dev region offset payload = .error ⟨.length, .len 4 payload.length⟩) ∨
    (payload.length = 4 ∧ Safe payload ∧
      parseQuery dev region offset payload = .ok (.query dev region offset (BitVec.ofNat 32 (base128 payload)))) ∨
    (payload.length = 4 ∧ ∃ pre x post, payload = pre ++ x :: post ∧ Safe pre ∧ 127 < x.toNat ∧
      parseQuery dev region offset payload = .error ⟨.bounds, .byte x⟩) := by
  rcases decodeK_cases 4 payload with ⟨h, e⟩ | ⟨h, hs, e⟩ | ⟨h, pre, x, post, hp, hs, hx, e⟩
  · exact .inl ⟨h, by simp [parseQuery, e, bind, Except.bind]⟩
  · exact .inr (.inl ⟨h, hs, by simp [parseQuery, e, bind, Except.bind, pure, Except.pure]⟩)
  · exact .inr (.inr ⟨h, pre, x, post, hp, hs, hx, by simp [parseQuery, e, bind, Except.bind]⟩)

/-- The outcomes of `SER_QUERY` (R153). -/
theorem serQuery_cases (dev : Byte) (region offset : U16) (size : U32) :
    (16383 < region.toNat ∧ serQuery dev region offset size = .error ⟨.bounds, .value region.toNat⟩) ∨
    (region.toNat ≤ 16383 ∧ 16383 < offset.toNat ∧
      serQuery dev region offset size = .error ⟨.bounds, .value offset.toNat⟩) ∨
    (region.toNat ≤ 16383 ∧ offset.toNat ≤ 16383 ∧ 268435455 < size.toNat ∧
      serQuery dev region offset size = .error ⟨.bounds, .value size.toNat⟩) ∨
    (region.toNat ≤ 16383 ∧ offset.toNat ≤ 16383 ∧ size.toNat ≤ 268435455 ∧
      serQuery dev region offset size =
        .ok ([0xF0, 0x41, dev, 0x00, 0x00, 0x00, 0x33, 0x11] ++ (wire14 region.toNat ++ wire14 offset.toNat) ++
          wire28 size.toNat ++
          [checksumOf [wire14 region.toNat ++ wire14 offset.toNat, wire28 size.toNat], 0xF7])) := by
  rcases addrEnc_cases region offset with ⟨h, e⟩ | ⟨h, h', e⟩ | ⟨h, h', e⟩
  · exact .inl ⟨h, by simp [serQuery, e, bind, Except.bind]⟩
  · exact .inr (.inl ⟨h, h', by simp [serQuery, e, bind, Except.bind]⟩)
  · by_cases hs : 268435455 < size.toNat
    · refine .inr (.inr (.inl ⟨h, h', hs, ?_⟩))
      simp [serQuery, e, encodeK_of_gt (k := 4) (max := max28) hs, bind, Except.bind]
    · refine .inr (.inr (.inr ⟨h, h', by omega, ?_⟩))
      have hs' : size.toNat ≤ max28 := Nat.not_lt.1 hs
      simp [serQuery, e, encodeK_four hs', bind, Except.bind, pure, Except.pure, sox, vendorId, modelId, opQuery, eox]

/-- The outcomes of `SER_CMD` (R154). -/
theorem serCommand_cases (dev : Byte) (region offset : U16) (data : Bytes) :
    (16383 < region.toNat ∧ serCommand dev region offset data = .error ⟨.bounds, .value region.toNat⟩) ∨
    (region.toNat ≤ 16383 ∧ 16383 < offset.toNat ∧
      serCommand dev region offset data = .error ⟨.bounds, .value offset.toNat⟩) ∨
    (region.toNat ≤ 16383 ∧ offset.toNat ≤ 16383 ∧
      serCommand dev region offset data =
        .ok ([0xF0, 0x41, dev, 0x00, 0x00, 0x00, 0x33, 0x12] ++ (wire14 region.toNat ++ wire14 offset.toNat) ++
          data ++ [checksumOf [wire14 region.toNat ++ wire14 offset.toNat, data], 0xF7])) := by
  rcases addrEnc_cases region offset with ⟨h, e⟩ | ⟨h, h', e⟩ | ⟨h, h', e⟩
  · exact .inl ⟨h, by simp [serCommand, e, bind, Except.bind]⟩
  · exact .inr (.inl ⟨h, h', by simp [serCommand, e, bind, Except.bind]⟩)
  · refine .inr (.inr ⟨h, h', ?_⟩)
    simp [serCommand, e, bind, Except.bind, pure, Except.pure, sox, vendorId, modelId, opCommand, eox]

/-! ## What PARSE accepts, and what it reports -/

/-- Every frame that `PARSE` accepts, with the message it reads and the flag (R140 to R146). -/
theorem parseFrame_ok_cases {buf : Bytes} {m : Msg} {warn : Bool} (h : parseFrame buf = .ok ⟨m, warn⟩) :
    (∃ dev, buf = [0xF0, 0x7E, dev, 0x06, 0x01, 0xF7] ∧ m = .idRequest dev ∧ warn = false) ∨
    (∃ dev a b c d, buf = [0xF0, 0x7E, dev, 0x06, 0x02, 0x41, 0x33, 0x03, 0x00, 0x00, a, b, c, d, 0xF7] ∧
      m = .idResponse dev (some [a, b, c, d]) ∧ warn = false) ∨
    (∃ dev r1 r0 o1 o0 s3 s2 s1 s0 cks,
      buf = vendorFrame dev 0x00 0x00 0x00 0x33 0x11 r1 r0 o1 o0 [s3, s2, s1, s0] cks ∧
      Safe [r1, r0, o1, o0] ∧ Safe [s3, s2, s1, s0] ∧
      m = .query dev (BitVec.ofNat 16 (base128 [r1, r0])) (BitVec.ofNat 16 (base128 [o1, o0]))
        (BitVec.ofNat 32 (base128 [s3, s2, s1, s0])) ∧
      warn = (cks != checksumOf [[r1, r0, o1, o0], [s3, s2, s1, s0]])) ∨
    (∃ dev r1 r0 o1 o0 data cks,
      buf = vendorFrame dev 0x00 0x00 0x00 0x33 0x12 r1 r0 o1 o0 data cks ∧ Safe [r1, r0, o1, o0] ∧
      m = .command dev (BitVec.ofNat 16 (base128 [r1, r0])) (BitVec.ofNat 16 (base128 [o1, o0])) data ∧
      warn = (cks != checksumOf [[r1, r0, o1, o0], data])) := by
  rcases framing_cases buf with h1 | ⟨h1, h2⟩ | ⟨h1, h2⟩
  · rw [parseFrame_of_start h1] at h
    cases h
  · rw [parseFrame_of_end h1 h2] at h
    cases h
  have h0 := h
  rw [parseFrame_of_markers h1 h2] at h
  by_cases h3 : buf.length < 6
  · rw [if_pos h3] at h
    cases h
  rw [if_neg h3] at h
  have hb1 : buf[1]? = some (byteAt buf 1) := by
    have : 1 < buf.length := by omega
    simp [byteAt, this]
  by_cases hu : byteAt buf 1 = univNrt
  · rw [if_pos hu] at h
    unfold parseUniversal parseIdResponse raising at h
    split at h
    · cases h
    rename_i g3
    split at h
    · rename_i g4
      split at h
      · cases h
      · rename_i gl
        cases h
        left
        have gl' : buf.length = 6 := by simpa using gl
        match buf, gl' with
        | [b0, b1, b2, b3, b4, b5], _ =>
          simp only [byteAt, List.getD, genInfo, idReq, univNrt] at *
          simp at *
          simp [h1, hu, g3, g4, h2]
    · split at h
      · rename_i g4
        split at h
        · cases h
        · split at h
          · cases h
          · rename_i gl gs
            cases h
            right; left
            have gl' : buf.length = 15 := by simpa using gl
            match buf, gl' with
            | [b0, b1, b2, b3, b4, b5, b6, b7, b8, b9, b10, b11, b12, b13, b14], _ =>
              simp only [byteAt, List.getD, genInfo, idReq, idResp, univNrt, slice, idSig, vendorId, familyCode] at *
              simp at *
              obtain ⟨q1, q2, q3, q4, q5⟩ := gs
              simp [h1, hu, g3, g4, q1, q2, q3, q4, q5, h2]
      · cases h
  · rw [if_neg hu] at h
    by_cases hv : byteAt buf 1 = vendorId
    · rw [if_pos hv] at h
      have h14 : 14 ≤ buf.length := by
        by_contra hc
        rw [parseVendor] at h
        simp only [] at h
        rw [if_pos (by omega)] at h
        cases h
      obtain ⟨dev, m0, m1, m2, m3, sel, r1, r0, a1, a0, payload, cks, rfl⟩ :=
        exists_vendorFrame h1 h2 h14 (by rw [hb1, hv]; rfl)
      rw [parseFrame_vendorFrame] at h0
      clear h hv hu hb1
      split at h0
      · cases h0
      rename_i gm
      split at h0
      · cases h0
      rename_i gs
      have gm' : [m0, m1, m2, m3] = [0, 0, 0, 0x33] := by simpa [modelId] using gm
      simp only [List.cons.injEq, and_true] at gm'
      obtain ⟨rfl, rfl, rfl, rfl⟩ := gm'
      rcases addrDec_cases [r1, r0, a1, a0] with ⟨q, _⟩ | ⟨_, _, _, _, q, qs, e⟩ | ⟨_, pre, x, post, _, _, _, e⟩
      · simp at q
      · simp only [List.cons.injEq, and_true] at q
        obtain ⟨rfl, rfl, rfl, rfl⟩ := q
        rw [e] at h0
        simp only [Except.bind] at h0
        by_cases hq : sel = opQuery
        · rw [if_pos hq] at h0
          subst hq
          rcases parseQuery_cases dev (BitVec.ofNat 16 (r1.toNat * 128 + r0.toNat))
              (BitVec.ofNat 16 (a1.toNat * 128 + a0.toNat)) payload with
            ⟨h, e⟩ | ⟨h, hs, e⟩ | ⟨h, pre, x, post, hpx, hsx, hx, e⟩ <;> rw [e] at h0
          · cases h0
          · match payload, h with
            | [s3, s2, s1, s0], _ =>
              cases h0
              right; right; left
              exact ⟨dev, r1, r0, a1, a0, s3, s2, s1, s0, cks, rfl, qs, hs, by rw [base128_two, base128_two], rfl⟩
          · cases h0
        · rw [if_neg hq] at h0
          have hc : sel = opCommand := by tauto
          subst hc
          cases h0
          right; right; right
          exact ⟨dev, r1, r0, a1, a0, payload, cks, rfl, qs, by rw [base128_two, base128_two], rfl⟩
      · rw [e] at h0
        cases h0
    · rw [if_neg hv] at h
      cases h

/-- What `PARSE` reports for a frame it does not accept is an error. -/
theorem parseFrame_error_status {buf : Bytes} {e : Raise} (h : parseFrame buf = .error e) : e.status ≠ .ok := by
  rcases framing_cases buf with h1 | ⟨h1, h2⟩ | ⟨h1, h2⟩
  · rw [parseFrame_of_start h1] at h
    cases h
    simp
  · rw [parseFrame_of_end h1 h2] at h
    cases h
    simp
  rw [parseFrame_of_markers h1 h2] at h
  split at h
  · cases h
    simp
  split at h
  · unfold parseUniversal parseIdResponse raising at h
    repeat' split at h
    all_goals cases h
    all_goals simp
  split at h
  · unfold parseVendor raising at h
    simp only [] at h
    split at h
    · cases h
      simp
    split at h
    · cases h
      simp
    split at h
    · cases h
      simp
    · cases ha : addrDec (slice buf 8 12) with
      | error e' =>
        rw [ha] at h
        cases h
        exact addrDec_error_status ha
      | ok a =>
        rw [ha] at h
        simp only [bind, Except.bind] at h
        split at h
        · rename_i hq
          unfold parseQuery at h
          cases hd : decodeK 4 (slice buf 12 (buf.length - 2)) with
          | error e'' =>
            rw [hd] at h
            cases h
            exact decodeK_error_status hd
          | ok v =>
            rw [hd] at h
            cases h
        · cases h
  · cases h
    simp

/-- What `SERIALIZE` reports for a message it does not accept is an error. -/
theorem serializeMsg_error_status {m : Msg} {e : Raise} (h : serializeMsg m = .error e) : e.status ≠ .ok := by
  cases m with
  | idRequest dev => cases h
  | idResponse dev fw =>
    cases fw with
    | none =>
      cases h
      simp
    | some fw =>
      simp only [serializeMsg, serIdResponse] at h
      split at h
      · cases h
        simp
      · cases h
  | query dev r o z =>
    simp only [serializeMsg] at h
    rcases serQuery_cases dev r o z with ⟨_, e⟩ | ⟨_, _, e⟩ | ⟨_, _, _, e⟩ | ⟨_, _, _, e⟩ <;> rw [e] at h <;> cases h <;>
      simp
  | command dev r o d =>
    simp only [serializeMsg] at h
    rcases serCommand_cases dev r o d with ⟨_, e⟩ | ⟨_, _, e⟩ | ⟨_, _, e⟩ <;> rw [e] at h <;> cases h <;> simp

/-! ## The frame rows -/

/-- Every list of bytes in the format of a frame row, with the row's instruction (30_encoding.md R67 to R70). -/
theorem frameRowOf_cases {frame : Bytes} {i : Instr} (h : frameRowOf frame = some i) :
    (∃ dev, frame = frameIdReqBytes dev ∧ i = .frameIdReq dev) ∨
    (∃ dev a b c d, frame = frameIdRespBytes dev a b c d ∧ i = .frameIdResp dev a b c d) ∨
    (∃ dev r1 r0 o1 o0 s3 s2 s1 s0 cks,
      frame = vendorFrame dev 0x00 0x00 0x00 0x33 0x11 r1 r0 o1 o0 [s3, s2, s1, s0] cks ∧
      Safe [r1, r0, o1, o0] ∧ Safe [s3, s2, s1, s0] ∧
      i = .frameQuery dev (field14 r1 r0) (field14 o1 o0) (field28 s3 s2 s1 s0) cks) ∨
    (∃ dev r1 r0 o1 o0 data cks,
      frame = vendorFrame dev 0x00 0x00 0x00 0x33 0x12 r1 r0 o1 o0 data cks ∧ Safe [r1, r0, o1, o0] ∧
      i = .frameCommand dev (field14 r1 r0) (field14 o1 o0) data cks) := by
  have hsafe : ∀ {l : Bytes}, l.all isSafe = true ↔ Safe l := by simp only [List.all_eq_true, isSafe_iff, implies_true]
  unfold frameRowOf at h
  simp only [Option.or_eq_some_iff] at h
  rcases h with (h | ⟨_, h⟩) | ⟨_, h | ⟨_, h⟩⟩
  · left
    unfold frameIdReqOf at h
    repeat' split at h
    all_goals cases h
    rename_i hh
    simp only [List.cons.injEq] at hh
    obtain ⟨rfl, rfl, rfl, rfl, rfl, -⟩ := hh
    exact ⟨_, rfl, rfl⟩
  · right; left
    unfold frameIdRespOf at h
    repeat' split at h
    all_goals cases h
    rename_i hh
    simp only [List.cons.injEq] at hh
    obtain ⟨rfl, rfl, rfl, rfl, rfl, rfl, rfl, rfl, rfl, rfl, -⟩ := hh
    exact ⟨_, _, _, _, _, rfl, rfl⟩
  · right; right; left
    unfold frameQueryOf at h
    repeat' split at h
    all_goals cases h
    rename_i hh
    obtain ⟨hh, hs⟩ := hh
    simp only [List.cons.injEq] at hh
    obtain ⟨rfl, rfl, rfl, rfl, rfl, rfl, rfl, rfl, -⟩ := hh
    rw [hsafe] at hs
    exact ⟨_, _, _, _, _, _, _, _, _, _, rfl, fun x hx => hs x (by simp at hx ⊢; tauto),
      fun x hx => hs x (by simp at hx ⊢; tauto), rfl⟩
  · right; right; right
    unfold frameCommandOf at h
    split at h
    · split at h
      · rename_i hr
        split at h
        · rename_i hh
          cases h
          obtain ⟨hh, hs⟩ := hh
          simp only [List.cons.injEq] at hh
          obtain ⟨rfl, rfl, rfl, rfl, rfl, rfl, rfl, rfl, -⟩ := hh
          rw [hsafe] at hs
          have hr' := congrArg List.reverse hr
          simp only [List.reverse_reverse, List.reverse_cons] at hr'
          subst hr'
          refine ⟨_, _, _, _, _, _, _, ?_, hs, rfl⟩
          simp [vendorFrame]
        · cases h
      · cases h
    · cases h

end Sys2Proof.Machine
end

