-- ==== Sys2Proof/Laws/State.lean ====
section
/-! SUPPORT. The small lemmas of the state's updates and accessors: one per field per update. -/

namespace Sys2Proof.Machine

/-! ## `respond` and `raise` -/

@[simp] theorem respond_slots (s : State) (r : Response) : (s.respond r).slots = s.slots := rfl
@[simp] theorem respond_requests (s : State) (r : Response) : (s.respond r).requests = s.requests := rfl
@[simp] theorem respond_responses (s : State) (r : Response) : (s.respond r).responses = s.responses ++ [r] := rfl
@[simp] theorem respond_alive (s : State) (r : Response) (j : Nat) : (s.respond r).alive j = s.alive j := rfl
@[simp] theorem respond_cells (s : State) (r : Response) (j : Nat) : (s.respond r).cells j = s.cells j := rfl
@[simp] theorem raise_eq (s : State) (e : Raise) : raise s e = s.respond (Response.ofRaise e) := rfl

@[simp] theorem ofReply_status (r : Reply) : (Response.ofReply r).status = .ok := rfl
@[simp] theorem ofReply_warn (r : Reply) : (Response.ofReply r).warn = r.warn := rfl
@[simp] theorem ofReply_info (r : Reply) : (Response.ofReply r).info = .none := rfl
@[simp] theorem ofReply_result (r : Reply) : (Response.ofReply r).result = r.result := rfl
@[simp] theorem ofRaise_status (e : Raise) : (Response.ofRaise e).status = e.status := rfl
@[simp] theorem ofRaise_warn (e : Raise) : (Response.ofRaise e).warn = false := rfl
@[simp] theorem ofRaise_info (e : Raise) : (Response.ofRaise e).info = e.info := rfl
@[simp] theorem ofRaise_result (e : Raise) : (Response.ofRaise e).result = .none := rfl

/-! ## Ending an operation -/

@[simp] theorem complete_error (s : State) (e : Raise) : complete s (.error e) = s.respond (Response.ofRaise e) := rfl
@[simp] theorem complete_ok (s t : State) (r : Reply) : complete s (.ok (t, r)) = t.respond (Response.ofReply r) := rfl
@[simp] theorem finish_eq (s : State) (o : Except Raise (State × Reply)) : finish s o = .next (complete s o) := rfl
@[simp] theorem answer_ok (s : State) (r : Reply) : answer s (.ok r) = .next (s.respond (Response.ofReply r)) := rfl
@[simp] theorem answer_error (s : State) (e : Raise) : answer s (.error e) = .next (s.respond (Response.ofRaise e)) := rfl

/-- The response of an outcome: of its result or of its error (00_scope.md R13). -/
def responseOf : Except Raise Reply → Response
  | .ok r => Response.ofReply r
  | .error e => Response.ofRaise e

@[simp] theorem responseOf_ok (r : Reply) : responseOf (.ok r) = Response.ofReply r := rfl
@[simp] theorem responseOf_error (e : Raise) : responseOf (.error e) = Response.ofRaise e := rfl

/-- An operation that writes no state gives a next state, whatever it computes: one response is added. -/
theorem answer_eq (s : State) (o : Except Raise Reply) : answer s o = .next (s.respond (responseOf o)) := by
  cases o <;> rfl

/-! ## `setCells` and `createSlot` -/

@[simp] theorem setCells_requests (s : State) (sid : Nat) (m : Memory) : (s.setCells sid m).requests = s.requests := rfl
@[simp] theorem setCells_responses (s : State) (sid : Nat) (m : Memory) :
    (s.setCells sid m).responses = s.responses := rfl
@[simp] theorem createSlot_requests (s : State) (sid : Nat) : (s.createSlot sid).requests = s.requests := rfl
@[simp] theorem createSlot_responses (s : State) (sid : Nat) : (s.createSlot sid).responses = s.responses := rfl

@[simp] theorem setCells_length (s : State) (sid : Nat) (m : Memory) :
    (s.setCells sid m).slots.length = s.slots.length := by simp [State.setCells]

@[simp] theorem createSlot_length (s : State) (sid : Nat) : (s.createSlot sid).slots.length = s.slots.length := by
  simp [State.createSlot]

/-- The written slot keeps its status bit and holds the storage written. -/
theorem setCells_slot_self (s : State) (sid : Nat) (m : Memory) :
    (s.setCells sid m).slots[sid]? = s.slots[sid]?.map fun slot => { slot with cells := m } := by
  simp [State.setCells]

theorem setCells_slot_other (s : State) {sid j : Nat} (m : Memory) (h : j ≠ sid) :
    (s.setCells sid m).slots[j]? = s.slots[j]? := by
  simp [State.setCells, Ne.symm h]

theorem createSlot_slot_self (s : State) (sid : Nat) :
    (s.createSlot sid).slots[sid]? = s.slots[sid]?.map fun _ => ⟨true, Memory.zeroFill⟩ := by
  simp [State.createSlot]

theorem createSlot_slot_other (s : State) {sid j : Nat} (h : j ≠ sid) :
    (s.createSlot sid).slots[j]? = s.slots[j]? := by
  simp [State.createSlot, Ne.symm h]

/-! ## The accessors -/

/-- A slot that is alive exists. -/
theorem slot_of_alive {s : State} {sid : Nat} (h : s.alive sid = true) :
    ∃ m, s.slots[sid]? = some ⟨true, m⟩ ∧ s.cells sid = m := by
  unfold State.alive State.cells at *
  cases hs : s.slots[sid]? with
  | none => simp [hs] at h
  | some slot =>
    obtain ⟨alive, m⟩ := slot
    simp only [hs] at h
    exact ⟨m, by rw [h], rfl⟩

/-- The accessors depend on the one slot only. -/
theorem alive_congr {s t : State} {j : Nat} (h : s.slots[j]? = t.slots[j]?) : s.alive j = t.alive j := by
  simp [State.alive, h]

theorem cells_congr {s t : State} {j : Nat} (h : s.slots[j]? = t.slots[j]?) : s.cells j = t.cells j := by
  simp [State.cells, h]

@[simp] theorem setCells_alive (s : State) (sid j : Nat) (m : Memory) : (s.setCells sid m).alive j = s.alive j := by
  by_cases h : j = sid
  · subst h
    simp only [State.alive, setCells_slot_self]
    cases s.slots[j]? <;> rfl
  · exact alive_congr (setCells_slot_other s m h)

theorem setCells_cells_self {s : State} {sid : Nat} (m : Memory) (h : s.alive sid = true) :
    (s.setCells sid m).cells sid = m := by
  obtain ⟨_, hs, _⟩ := slot_of_alive h
  simp [State.cells, setCells_slot_self, hs]

theorem setCells_cells_other (s : State) {sid j : Nat} (m : Memory) (h : j ≠ sid) :
    (s.setCells sid m).cells j = s.cells j :=
  cells_congr (setCells_slot_other s m h)

theorem createSlot_self {s : State} {sid : Nat} (h : sid < s.slots.length) :
    (s.createSlot sid).slots[sid]? = some ⟨true, Memory.zeroFill⟩ := by
  simp [createSlot_slot_self, List.getElem?_eq_getElem h]

/-- Storage that a slot has already is written back without effect. -/
theorem setCells_cells_eq (s : State) (sid : Nat) : s.setCells sid (s.cells sid) = s := by
  have : s.slots.modify sid (fun slot => { slot with cells := s.cells sid }) = s.slots := by
    apply List.ext_getElem?
    intro j
    rw [List.getElem?_modify]
    by_cases h : sid = j
    · subst h
      cases hs : s.slots[sid]? with
      | none => simp
      | some slot => simp [State.cells, hs]
    · simp [h]
  simp [State.setCells, this]

theorem setCells_setCells (s : State) (sid : Nat) (m n : Memory) :
    (s.setCells sid m).setCells sid n = s.setCells sid n := by
  simp only [State.setCells, State.mk.injEq, and_self, and_true]
  apply List.ext_getElem?
  intro j
  simp only [List.getElem?_modify]
  by_cases h : sid = j
  · subst h
    cases s.slots[sid]? <;> simp
  · simp [h]

/-! ## The request port -/

@[simp] theorem issue_slots (s : State) (r : Request) : (s.issue r).slots = s.slots := rfl
@[simp] theorem issue_requests (s : State) (r : Request) : (s.issue r).requests = s.requests ++ [r] := rfl
@[simp] theorem issue_responses (s : State) (r : Request) : (s.issue r).responses = s.responses := rfl
@[simp] theorem placeRequest_slots (s : State) (r : Request) : (placeRequest s r).slots = s.slots := rfl
@[simp] theorem placeRequest_requests (s : State) (r : Request) : (placeRequest s r).requests = r :: s.requests := rfl
@[simp] theorem placeRequest_responses (s : State) (r : Request) : (placeRequest s r).responses = s.responses := rfl

/-- A request put where the next step takes its request is the one it takes. -/
@[simp] theorem fetchRequest_placeRequest (s : State) (r : Request) : fetchRequest (placeRequest s r) = some (r, s) := rfl

@[simp] theorem illegalRaise_status (e : IllegalRequest) : (illegalRaise e).status = .illegalRequest := by
  cases e <;> rfl

/-- One step of a run that ends in a next state. -/
theorem run_succ {M : Host.Core} {k : Nat} {s t : M.State} (h : M.step s = .next t) : M.run (k + 1) s = M.run k t := by
  simp [Host.Core.run, h]

/-- Everything a step can do: stay idle, answer an illegal request, or perform the decoded one. -/
theorem step_cases (s : State) :
    (s.requests = [] ∧ step s = .next s) ∨
    (∃ r rest, s.requests = r :: rest ∧
      ((∃ e, decode r = .error e ∧
          step s = .next (({ s with requests := rest } : State).respond (Response.ofRaise (illegalRaise e)))) ∨
       (∃ i, decode r = .ok i ∧ step s = exec i { s with requests := rest }))) := by
  obtain ⟨slots, requests, responses⟩ := s
  cases requests with
  | nil => exact .inl ⟨rfl, rfl⟩
  | cons r rest =>
    refine .inr ⟨r, rest, rfl, ?_⟩
    cases h : decode r with
    | error e => exact .inl ⟨e, rfl, by simp [step, fetchRequest, h]⟩
    | ok i => exact .inr ⟨i, rfl, by simp [step, fetchRequest, h]⟩

end Sys2Proof.Machine
end

