-- ==== Sys2Proof/Laws/Walk.lean ====
section
/-! SUPPORT. The address-mapping lookup engine and the write walk: what one pass can do, and that the walk keeps the
storage canonical and inside the store. -/

namespace Sys2Proof.Machine

open Memory

/-! ## `Translate` -/

@[simp] theorem translateIn_nil (a : Nat) : translateIn [] a = .discarded := rfl

/-- A row that lies wholly below the address is skipped. -/
theorem translateIn_skip {row : Boundary} {rows : List Boundary} {a : Nat} (h : row.endAt ≤ a) :
    translateIn (row :: rows) a = translateIn rows a := by simp [translateIn, h]

/-- An address before the row is in the gap before it. -/
theorem translateIn_gap {row : Boundary} {rows : List Boundary} {a : Nat} (h1 : a < row.endAt)
    (h2 : a < row.beginAt) : translateIn (row :: rows) a = .discarded := by
  simp [translateIn, Nat.not_le.2 h1, h2]

/-- An address inside the row is mapped by the row's shift. -/
theorem translateIn_hit {row : Boundary} {rows : List Boundary} {a : Nat} (h1 : row.beginAt ≤ a)
    (h2 : a < row.endAt) : translateIn (row :: rows) a = .mapped (a - row.shift) := by
  simp [translateIn, Nat.not_le.2 h2, Nat.not_lt.2 h1]

/-- Each row's storage image lies inside the store (10_state.md R28). -/
theorem boundary_inside : ∀ row ∈ boundaryTable,
    row.shift ≤ row.beginAt ∧ row.beginAt < row.endAt ∧ row.endAt - row.shift ≤ storageSize := by decide

theorem boundaryTable_length : boundaryTable.length = 4 := rfl

/-! ## One pass of the write walk -/

/-- Everything one pass can do (R182): discard the rest, advance the cursor, skip a gap, or copy a run. -/
theorem walkPass_cases (data : Bytes) (w : Walk) :
    (4 ≤ w.k ∧ walkPass data w =
      { w with discarded := w.discarded + (data.length - w.i), i := data.length }) ∨
    (∃ row, boundaryTable[w.k]? = some row ∧
      ((row.endAt ≤ w.a ∧ walkPass data w = { w with k := w.k + 1 }) ∨
       (w.a < row.endAt ∧ w.a < row.beginAt ∧ ∃ g, g = min (row.beginAt - w.a) (data.length - w.i) ∧
         walkPass data w = { w with discarded := w.discarded + g, i := w.i + g, a := w.a + g }) ∨
       (w.a < row.endAt ∧ row.beginAt ≤ w.a ∧ ∃ r, r = min (data.length - w.i) (row.endAt - w.a) ∧
         walkPass data w =
           { w with
             cells := memWrite w.cells (w.a - row.shift) ((data.drop w.i).take r)
             written := w.written + r, i := w.i + r, a := w.a + r }))) := by
  unfold walkPass
  cases h : boundaryTable[w.k]? with
  | none =>
    refine .inl ⟨?_, rfl⟩
    have := List.getElem?_eq_none_iff.1 h
    rwa [boundaryTable_length] at this
  | some row =>
    refine .inr ⟨row, rfl, ?_⟩
    by_cases h1 : row.endAt ≤ w.a
    · exact .inl ⟨h1, by simp [h1]⟩
    · by_cases h2 : w.a < row.beginAt
      · exact .inr (.inl ⟨by omega, h2, _, rfl, by simp [h1, h2]⟩)
      · exact .inr (.inr ⟨by omega, by omega, _, rfl, by simp [h1, h2]⟩)

/-- A property that every pass keeps holds after the loop. -/
theorem walkLoop_induction {data : Bytes} {P : Walk → Prop}
    (pass : ∀ w, w.i < data.length → P w → P (walkPass data w)) (fuel : Nat) {w : Walk} (h : P w) :
    P (walkLoop data fuel w) := by
  induction fuel generalizing w with
  | zero => exact h
  | succ fuel ih =>
    unfold walkLoop
    split
    · exact ih (pass w ‹_› h)
    · exact h

/-- A pass keeps the storage canonical. -/
theorem walkPass_wf {data : Bytes} {w : Walk} (h : Wf w.cells) : Wf (walkPass data w).cells := by
  rcases walkPass_cases data w with ⟨_, e⟩ | ⟨row, _, ⟨_, e⟩ | ⟨_, _, g, _, e⟩ | ⟨_, _, r, _, e⟩⟩ <;> rw [e]
  · exact h
  · exact h
  · exact h
  · exact memWrite_wf h _ _

/-- A pass keeps the storage inside the store: the run copied ends at `endAt - shift ≤ 1040` (R182). -/
theorem walkPass_inRange {data : Bytes} {w : Walk} (h : InRange w.cells) : InRange (walkPass data w).cells := by
  rcases walkPass_cases data w with ⟨_, e⟩ | ⟨row, hrow, ⟨_, e⟩ | ⟨_, _, g, _, e⟩ | ⟨h1, h2, r, hr, e⟩⟩ <;> rw [e]
  · exact h
  · exact h
  · exact h
  · obtain ⟨b1, b2, b3⟩ := boundary_inside row (List.mem_of_getElem? hrow)
    apply memWrite_inRange h
    have : ((data.drop w.i).take r).length ≤ r := by simp
    omega

/-- The write walk keeps the canonical form of the storage. -/
theorem writeWalk_wf {m : Memory} (h : Wf m) (off : Nat) (data : Bytes) : Wf (writeWalk m off data).cells :=
  walkLoop_induction (P := fun w => Wf w.cells) (fun _ _ => walkPass_wf) _ h

/-- The write walk keeps the storage inside the store. -/
theorem writeWalk_inRange {m : Memory} (h : InRange m) (off : Nat) (data : Bytes) :
    InRange (writeWalk m off data).cells :=
  walkLoop_induction (P := fun w => InRange w.cells) (fun _ _ => walkPass_inRange) _ h

/-- The walk's run over data of no bytes writes nothing. -/
@[simp] theorem writeWalk_nil (m : Memory) (off : Nat) : writeWalk m off [] = walkStart off m := by
  simp [writeWalk, walkLoop, walkStart]

/-! ## What the whole walk does -/

/-- Rows that lie wholly below the address do not matter to `Translate`. -/
theorem translateAddr_drop (k a : Nat)
    (h : ∀ j row, j < k → boundaryTable[j]? = some row → row.endAt ≤ a) :
    translateAddr a = translateIn (boundaryTable.drop k) a := by
  unfold translateAddr
  generalize boundaryTable = l at h
  induction k generalizing l with
  | zero => rfl
  | succ k ih =>
    cases l with
    | nil => rfl
    | cons row l =>
      rw [translateIn_skip (h 0 row (by omega) rfl), List.drop_succ_cons]
      exact ih l fun j r hj hr => h (j + 1) r (by omega) (by simpa using hr)

/-- Two addresses are never stored in one cell. -/
theorem translateAddr_injective {a b t : Nat} (ha : translateAddr a = .mapped t) (hb : translateAddr b = .mapped t) :
    a = b := by
  simp only [translateAddr, boundaryTable, translateIn] at ha hb
  repeat' split at ha
  all_goals repeat' split at hb
  all_goals simp at ha hb <;> omega

/-- The count over `i + g` addresses, where the last `g` are all alike. -/
theorem countP_range_add (p : Nat → Bool) (i g : Nat) (b : Bool) (h : ∀ j, i ≤ j → j < i + g → p j = b) :
    (List.range (i + g)).countP p = (List.range i).countP p + if b then g else 0 := by
  induction g with
  | zero => simp
  | succ g ih =>
    rw [← Nat.add_assoc, List.range_succ, List.countP_append, ih fun j h1 h2 => h j h1 (by omega)]
    have := h (i + g) (by omega) (by omega)
    cases b <;> simp [this]
    omega

/-- What holds before every pass of the walk over `data` at `off` on the storage `m` (R182, R186). -/
structure WalkInv (m : Memory) (off : Nat) (data : Bytes) (w : Walk) : Prop where
  le        : w.i ≤ data.length
  wf        : Wf w.cells
  address   : w.i < data.length → w.a = off + w.i
  below     : w.i < data.length → ∀ j row, j < w.k → boundaryTable[j]? = some row → row.endAt ≤ w.a
  written   : w.written = (List.range w.i).countP fun j => isMapped (off + j)
  counts    : w.written + w.discarded = w.i
  stored    : ∀ j x t, j < w.i → data[j]? = some x → translateAddr (off + j) = .mapped t → w.cells.read t = x
  untouched : ∀ t, (∀ j, j < w.i → translateAddr (off + j) ≠ .mapped t) → w.cells.read t = m.read t

/-- Consuming `g` bytes at discarded addresses keeps the invariant. -/
theorem WalkInv.discard {m : Memory} {off : Nat} {data : Bytes} {w : Walk} {g k a : Nat} (h : WalkInv m off data w)
    (hw : w.i < data.length) (hg : w.i + g ≤ data.length)
    (hd : ∀ j, w.i ≤ j → j < w.i + g → translateAddr (off + j) = .discarded)
    (hl : w.i + g < data.length → a = off + w.i + g ∧ k = w.k) :
    WalkInv m off data { w with k := k, a := a, discarded := w.discarded + g, i := w.i + g } where
  le := hg
  wf := h.wf
  address hh := by
    have := hl hh
    simp only
    omega
  below hh j row hj hr := by
    have h1 := hl hh
    simp only at hj ⊢
    have h2 := h.below hw j row (by omega) hr
    have h3 := h.address hw
    omega
  written := by
    have := countP_range_add (fun j => isMapped (off + j)) w.i g false fun j h1 h2 => by simp [isMapped, hd j h1 h2]
    simpa [h.written] using this.symm
  counts := by
    have := h.counts
    simp only
    omega
  stored j x t hj hx ht := by
    by_cases h1 : j < w.i
    · exact h.stored j x t h1 hx ht
    · rw [hd j (by omega) hj] at ht
      cases ht
  untouched t ht := h.untouched t fun j hj => ht j (by simp only; omega)

/-- Copying a run of `r` bytes inside one row keeps the invariant. -/
theorem WalkInv.copy {m : Memory} {off : Nat} {data : Bytes} {w : Walk} {r shift : Nat} (h : WalkInv m off data w)
    (hw : w.i < data.length) (hr : w.i + r ≤ data.length) (hs : shift ≤ w.a)
    (hm : ∀ j, w.i ≤ j → j < w.i + r → translateAddr (off + j) = .mapped (off + j - shift)) :
    WalkInv m off data
      { w with
        cells := memWrite w.cells (w.a - shift) ((data.drop w.i).take r)
        written := w.written + r, i := w.i + r, a := w.a + r } := by
  have ha := h.address hw
  have hread : ∀ t, (memWrite w.cells (w.a - shift) ((data.drop w.i).take r)).read t =
      if w.a - shift ≤ t then (((data.drop w.i).take r)[t - (w.a - shift)]?).getD (w.cells.read t)
      else w.cells.read t := fun t => read_memWrite h.wf _ _ t
  -- a cell outside the run's image is not written
  have hout : ∀ t, (w.a - shift ≤ t → r ≤ t - (w.a - shift)) →
      (memWrite w.cells (w.a - shift) ((data.drop w.i).take r)).read t = w.cells.read t := by
    intro t ht
    rw [hread]
    split
    · rw [List.getElem?_eq_none (by have := ht ‹_›; simp; omega)]
      rfl
    · rfl
  refine ⟨hr, memWrite_wf h.wf _ _, fun _ => ?_, fun _ j row hj hrow => ?_, ?_, ?_, ?_, ?_⟩
  · simp only
    omega
  · have := h.below hw j row hj hrow
    simp only
    omega
  · have := countP_range_add (fun j => isMapped (off + j)) w.i r true fun j h1 h2 => by simp [isMapped, hm j h1 h2]
    simpa [h.written] using this.symm
  · have := h.counts
    simp only
    omega
  · intro j x t hj hx ht
    simp only at hj ⊢
    by_cases h1 : j < w.i
    · rw [hout t, h.stored j x t h1 hx ht]
      intro hle
      by_contra hc
      have := hm (w.i + (t - (w.a - shift))) (by omega) (by omega)
      have := translateAddr_injective ht (this.trans (by congr 1; omega))
      omega
    · have h2 := hm j (by omega) hj
      rw [h2] at ht
      cases ht
      have e1 : off + j - shift - (w.a - shift) = j - w.i := by omega
      have e2 : w.i + (j - w.i) = j := by omega
      rw [hread, if_pos (by omega), e1, List.getElem?_take_of_lt (by omega), List.getElem?_drop, e2, hx]
      rfl
  · intro t ht
    simp only at ht ⊢
    rw [hout t, h.untouched t fun j hj => ht j (by omega)]
    intro hle
    by_contra hc
    have := hm (w.i + (t - (w.a - shift))) (by omega) (by omega)
    exact ht _ (by omega) (this.trans (by congr 1; omega))

/-- Every pass keeps the invariant. -/
theorem WalkInv.pass {m : Memory} {off : Nat} {data : Bytes} {w : Walk} (hw : w.i < data.length)
    (h : WalkInv m off data w) : WalkInv m off data (walkPass data w) := by
  have ha := h.address hw
  have hbelow := h.below hw
  rcases walkPass_cases data w with ⟨hk, e⟩ | ⟨row, hrow, ⟨h1, e⟩ | ⟨h1, h2, g, hg, e⟩ | ⟨h1, h2, r, hr, e⟩⟩ <;> rw [e]
  · have e2 : data.length = w.i + (data.length - w.i) := by omega
    have := h.discard (g := data.length - w.i) (k := w.k) (a := w.a) hw (by omega) (fun j hj1 hj2 => by
      rw [translateAddr_drop 4 (off + j) fun j' r' hj' hr' => by have := hbelow j' r' (by omega) hr'; omega]
      rfl) (by omega)
    rwa [← e2] at this
  · refine ⟨h.le, h.wf, h.address, fun _ j r hj hr => ?_, h.written, h.counts, h.stored, h.untouched⟩
    by_cases hjk : j < w.k
    · exact hbelow j r hjk hr
    · have : j = w.k := by simp only at hj; omega
      subst this
      rw [hrow] at hr
      cases hr
      exact h1
  · obtain ⟨hlt, hget⟩ := List.getElem?_eq_some_iff.1 hrow
    have hb := boundary_inside row (List.mem_of_getElem? hrow)
    refine h.discard (k := w.k) hw (by omega) (fun j hj1 hj2 => ?_) (by intro; omega)
    rw [translateAddr_drop w.k (off + j) fun j' r' hj' hr' => by have := hbelow j' r' hj' hr'; omega,
      List.drop_eq_getElem_cons hlt, hget]
    exact translateIn_gap (by omega) (by omega)
  · obtain ⟨hlt, hget⟩ := List.getElem?_eq_some_iff.1 hrow
    have hb := boundary_inside row (List.mem_of_getElem? hrow)
    refine h.copy hw (by omega) (by omega) fun j hj1 hj2 => ?_
    rw [translateAddr_drop w.k (off + j) fun j' r' hj' hr' => by have := hbelow j' r' hj' hr'; omega,
      List.drop_eq_getElem_cons hlt, hget]
    exact translateIn_hit (by omega) (by omega)

/-- Every pass consumes a byte or advances the cursor. -/
theorem walkPass_measure {data : Bytes} {w : Walk} (hw : w.i < data.length) :
    (walkPass data w).i ≤ data.length ∧
    (data.length - (walkPass data w).i) + (4 - (walkPass data w).k) < (data.length - w.i) + (4 - w.k) := by
  rcases walkPass_cases data w with ⟨hk, e⟩ | ⟨row, hrow, ⟨h1, e⟩ | ⟨h1, h2, g, hg, e⟩ | ⟨h1, h2, r, hr, e⟩⟩ <;> rw [e]
  · simp only
    omega
  · have := (List.getElem?_eq_some_iff.1 hrow).1
    rw [boundaryTable_length] at this
    simp only
    omega
  · simp only
    omega
  · simp only
    omega

/-- The loop ends with all its input consumed, once it is given as many passes as the measure says. -/
theorem walkLoop_consumes {data : Bytes} (fuel : Nat) {w : Walk}
    (h : (data.length - w.i) + (4 - w.k) ≤ fuel) (hle : w.i ≤ data.length) :
    (walkLoop data fuel w).i = data.length := by
  induction fuel generalizing w with
  | zero => exact (by omega : w.i = data.length)
  | succ fuel ih =>
    unfold walkLoop
    split
    · have := walkPass_measure ‹_›
      exact ih (by omega) this.1
    · omega

/-- The walk consumes all its input, and leaves what `WalkInv` says of all of it. -/
theorem writeWalk_spec {m : Memory} (hm : Wf m) (off : Nat) (data : Bytes) :
    WalkInv m off data (writeWalk m off data) ∧ (writeWalk m off data).i = data.length := by
  refine ⟨walkLoop_induction (P := WalkInv m off data) (fun w hw h => h.pass hw) _ ?_,
    walkLoop_consumes _ (by simp [walkStart]) (by simp [walkStart])⟩
  constructor <;> first | exact hm | simp [walkStart]

/-! ## The counts -/

/-- A count below 2^32 stands in its 32-bit container as it is (30_encoding.md R63). -/
theorem countField_of_lt {n : Nat} (h : n < 2 ^ 32) : (countField n).toNat = n := by
  rw [countField, if_pos h]
  simp
  omega

end Sys2Proof.Machine
end

