-- ==== Sys2Proof/Laws/Store.lean ====
section
/-! SUPPORT. What each instruction can do: the ones that answer and write nothing, the checks of the store operations,
and the readers and writers of an alive slot. -/

namespace Sys2Proof.Machine

/-! ## Answers -/

/-- An instruction that ends by answering gives the response of its outcome, and nothing else changes. -/
theorem answers_iff {i : Instr} {s : State} {o : Except Raise Reply} {r : Response} (h : exec i s = answer s o) :
    Answers i s r ↔ responseOf o = r := by
  unfold Answers
  rw [h, answer_eq]
  simp [State.respond]

/-- An instruction on no slot computes its outcome without the state (00_scope.md R18). -/
theorem exec_of_slotOf_none {i : Instr} (h : slotOf i = none) : ∃ o, ∀ s, exec i s = answer s o := by
  cases i <;> first | exact ⟨_, fun _ => rfl⟩ | cases h

/-! ## The checks -/

/-- The two outcomes of `CheckSlot` (43_patch_store.md R179). -/
theorem checkSlot_cases (s : State) (sid : Byte) :
    ((Config.nStores ≤ sid.toNat ∨ s.alive sid.toNat = false) ∧ checkSlot s sid = .error ⟨.noStore, .byte sid⟩) ∨
    (sid.toNat < Config.nStores ∧ s.alive sid.toNat = true ∧ checkSlot s sid = .ok ()) := by
  by_cases h : Config.nStores ≤ sid.toNat ∨ s.alive sid.toNat = false
  · exact .inl ⟨h, by rw [checkSlot, if_pos h]; rfl⟩
  · refine .inr ⟨?_, ?_, by rw [checkSlot, if_neg h]⟩
    · by_contra hc
      exact h (.inl (by omega))
    · simpa using fun hc => h (.inr hc)

/-- The two outcomes of a reader's range check (R183). -/
theorem checkOffset_cases (offset : U16) :
    (2326 < offset.toNat ∧ checkOffset offset = .error ⟨.bounds, .addr offset.toNat⟩) ∨
    (offset.toNat ≤ 2326 ∧ checkOffset offset = .ok ()) := by
  by_cases h : 2326 < offset.toNat
  · exact .inl ⟨h, if_pos h⟩
  · exact .inr ⟨by omega, if_neg h⟩

/-- The two outcomes of a reader's translation (R183). -/
theorem storageOf_cases (a : Nat) :
    (translateAddr a = .discarded ∧ storageOf a = .error ⟨.discardedOffset, .addr a⟩) ∨
    (∃ t, translateAddr a = .mapped t ∧ storageOf a = .ok t) := by
  unfold storageOf
  cases translateAddr a with
  | discarded => exact .inl ⟨rfl, rfl⟩
  | mapped t => exact .inr ⟨t, rfl, rfl⟩

/-- The two outcomes of the 7-bit check of stored bytes (R185). -/
theorem checkSafe_cases (v : Bytes) :
    (Safe v ∧ checkSafe v = .ok v) ∨
    (∃ pre x post, v = pre ++ x :: post ∧ Safe pre ∧ 127 < x.toNat ∧ checkSafe v = .error ⟨.bounds, .byte x⟩) := by
  rcases safe_or_first_unsafe v with h | ⟨pre, x, post, rfl, hp, hx⟩
  · exact .inl ⟨h, by rw [checkSafe, find_safe h]⟩
  · exact .inr ⟨pre, x, post, rfl, hp, hx, by rw [checkSafe, find_unsafe hp hx]; rfl⟩

/-- The three outcomes of `PATCH_NEW` (R180). -/
theorem patchNew_cases (s : State) (sid enc : Byte) :
    (Config.nStores ≤ sid.toNat ∧ patchNew s sid enc = .error ⟨.noStore, .byte sid⟩) ∨
    (sid.toNat < Config.nStores ∧ enc ≠ Config.sparseEncodingId ∧
      patchNew s sid enc = .error ⟨.unknownEncoding, .byte enc⟩) ∨
    (sid.toNat < Config.nStores ∧ enc = Config.sparseEncodingId ∧
      patchNew s sid enc = .ok (s.createSlot sid.toNat, reply .none)) := by
  unfold patchNew
  by_cases h : Config.nStores ≤ sid.toNat
  · exact .inl ⟨h, if_pos h⟩
  · rw [if_neg h]
    by_cases he : enc = Config.sparseEncodingId
    · exact .inr (.inr ⟨by omega, he, if_neg (by simpa using he)⟩)
    · exact .inr (.inl ⟨by omega, he, if_pos he⟩)

/-! ## The writers on an alive slot -/

/-- What `APPLY` does to the slot is a function of its storage alone: it writes the cells and counts (R181). -/
theorem applyMsg_eq (sid : Byte) (m : Msg) : ∃ (f : Memory → Memory) (g : Memory → Reply),
    ∀ s : State, applyMsg s sid m = (s.setCells sid.toNat (f (s.cells sid.toNat)), g (s.cells sid.toNat)) := by
  by_cases h : ∃ dev r o d, m = .command dev r o d ∧ isMutable r = true
  · obtain ⟨dev, r, o, d, rfl, hm⟩ := h
    refine ⟨fun c => (writeWalk c o.toNat d).cells,
      fun c => writeStat (writeWalk c o.toNat d).written (writeWalk c o.toNat d).discarded, fun s => ?_⟩
    rw [applyMsg, if_pos hm]
    rfl
  · refine ⟨id, fun _ => writeStat 0 (payloadLen m), fun s => ?_⟩
    rw [id, setCells_cells_eq]
    unfold applyMsg
    split
    · split
      · exact absurd ⟨_, _, _, _, rfl, ‹_›⟩ h
      · rfl
    · rfl

variable {s : State} {sid : Byte}

theorem exec_apply (m : Msg) (h1 : sid.toNat < Config.nStores) (h2 : s.alive sid.toNat = true) :
    exec (.apply sid m) s = .next ((applyMsg s sid m).1.respond (Response.ofReply (applyMsg s sid m).2)) := by
  have h : checkSlot s sid = .ok () := by
    rcases checkSlot_cases s sid with ⟨h | h, _⟩ | ⟨_, _, h⟩
    · omega
    · rw [h2] at h
      cases h
    · exact h
  show execApply sid m s = _
  rw [execApply, h]
  rfl

theorem exec_writeBytes (offset : U16) (data : Bytes) (h1 : sid.toNat < Config.nStores)
    (h2 : s.alive sid.toNat = true) :
    exec (.writeBytes sid offset data) s =
      .next ((s.setCells sid.toNat (writeWalk (s.cells sid.toNat) offset.toNat data).cells).respond
        (statResponse (writeWalk (s.cells sid.toNat) offset.toNat data).written
          (writeWalk (s.cells sid.toNat) offset.toNat data).discarded)) := by
  have h : checkSlot s sid = .ok () := by
    rcases checkSlot_cases s sid with ⟨h | h, _⟩ | ⟨_, _, h⟩
    · omega
    · rw [h2] at h
      cases h
    · exact h
  show execWriteBytes sid offset data s = _
  rw [execWriteBytes, h]
  rfl

/-! ## The storage of a slot in a state that meets the invariant -/

theorem State.Inv.cells_wf (h : s.Inv) (j : Nat) : Memory.Wf (s.cells j) := by
  unfold State.cells
  cases hs : s.slots[j]? with
  | none => exact Memory.wf_nil
  | some slot => exact (h.2 slot (List.mem_of_getElem? hs)).1

theorem State.Inv.cells_inRange (h : s.Inv) (j : Nat) : Memory.InRange (s.cells j) := by
  unfold State.cells
  cases hs : s.slots[j]? with
  | none => intro c hc; cases hc
  | some slot => exact (h.2 slot (List.mem_of_getElem? hs)).2

/-- Writing canonical storage that lies inside the store keeps the invariant. -/
theorem State.Inv.setCells (h : s.Inv) {m : Memory} (hm : Memory.Wf m) (hr : Memory.InRange m) (j : Nat) :
    (s.setCells j m).Inv := by
  refine ⟨by simp [h.1], fun slot hslot => ?_⟩
  obtain ⟨k, hk⟩ := List.mem_iff_getElem?.1 hslot
  by_cases hkj : k = j
  · subst hkj
    rw [setCells_slot_self] at hk
    cases hs : s.slots[k]? with
    | none => simp [hs] at hk
    | some x =>
      rw [hs] at hk
      cases hk
      exact ⟨hm, hr⟩
  · rw [setCells_slot_other s _ hkj] at hk
    exact h.2 _ (List.mem_of_getElem? hk)

/-- Creating a store keeps the invariant. -/
theorem State.Inv.createSlot (h : s.Inv) (j : Nat) : (s.createSlot j).Inv := by
  refine ⟨by simp [h.1], fun slot hslot => ?_⟩
  obtain ⟨k, hk⟩ := List.mem_iff_getElem?.1 hslot
  by_cases hkj : k = j
  · subst hkj
    rw [createSlot_slot_self] at hk
    cases hs : s.slots[k]? with
    | none => simp [hs] at hk
    | some x =>
      rw [hs] at hk
      cases hk
      exact ⟨Memory.wf_nil, by intro c hc; cases hc⟩
  · rw [createSlot_slot_other s hkj] at hk
    exact h.2 _ (List.mem_of_getElem? hk)

end Sys2Proof.Machine
end

