-- ==== Sys2Proof/Machine/Text.lean ====
section
/-! DEFINITION. The textual syntax of requests and responses (30_encoding.md R75, R76; 95_test_vectors.md). No operation
reads it. Numbers are written in decimal, one of the two ways R75 allows (log entry 11). -/

namespace Sys2Proof.Machine

/-- Items separated by commas. -/
def commaText (items : List String) : String := ", ".intercalate items

/-- A `Bytes` operand: `[b0, b1, …]` (R75). -/
def bytesText (b : Bytes) : String := "[" ++ commaText (b.map fun x => toString x.toNat) ++ "]"

/-- A `Groups` operand: `[[…], […]]` (R75). -/
def groupsText (g : List Bytes) : String := "[" ++ commaText (g.map bytesText) ++ "]"

/-- A message literal (R76). -/
def msgText : Msg → String
  | .idRequest dev => "IdRequest(" ++ toString dev.toNat ++ ")"
  | .idResponse dev none => "IdResponse(" ++ toString dev.toNat ++ ", absent)"
  | .idResponse dev (some fw) => "IdResponse(" ++ toString dev.toNat ++ ", " ++ bytesText fw ++ ")"
  | .query dev region offset size =>
    "Query(" ++ commaText (([dev.toNat, region.toNat, offset.toNat, size.toNat] : List Nat).map toString) ++ ")"
  | .command dev region offset data =>
    "Command(" ++ commaText (([dev.toNat, region.toNat, offset.toNat] : List Nat).map toString ++ [bytesText data]) ++
      ")"

/-- The mnemonic of an operation (30_encoding.md R61). -/
def mnemonicText : Opcode → String
  | .dec7 => "DEC7" | .dec14 => "DEC14" | .dec28 => "DEC28" | .enc7 => "ENC7" | .enc14 => "ENC14" | .enc28 => "ENC28"
  | .addrDec => "ADDR_DEC" | .addrEnc => "ADDR_ENC" | .isMutable => "IS_MUTABLE" | .checksum => "CHECKSUM"
  | .parse => "PARSE" | .serialize => "SERIALIZE"
  | .patchNew => "PATCH_NEW" | .apply => "APPLY" | .writeBytes => "WRITE_BYTES" | .getByte => "GET_BYTE"
  | .getShort => "GET_SHORT" | .getFxChain => "GET_FX_CHAIN"

/-- `MNEMONIC operand, operand, …` (R75). -/
def lineText (o : Opcode) (operands : List String) : String := mnemonicText o ++ " " ++ commaText operands

/-- The request line of an instruction. A frame row is the `PARSE` of its frame, and a SERIALIZE row the `SERIALIZE` of
its message (log entry 3). -/
def requestText : Instr → String
  | .dec7 b => lineText .dec7 [bytesText b]
  | .dec14 b => lineText .dec14 [bytesText b]
  | .dec28 b => lineText .dec28 [bytesText b]
  | .enc7 v => lineText .enc7 [toString v.toNat]
  | .enc14 v => lineText .enc14 [toString v.toNat]
  | .enc28 v => lineText .enc28 [toString v.toNat]
  | .addrDec b => lineText .addrDec [bytesText b]
  | .addrEnc region offset => lineText .addrEnc [toString region.toNat, toString offset.toNat]
  | .isMutable region => lineText .isMutable [toString region.toNat]
  | .checksum g => lineText .checksum [groupsText g]
  | .parse buf => lineText .parse [bytesText buf]
  | .serialize m => lineText .serialize [msgText m]
  | .patchNew sid enc => lineText .patchNew [toString sid.toNat, toString enc.toNat]
  | .apply sid m => lineText .apply [toString sid.toNat, msgText m]
  | .writeBytes sid offset data => lineText .writeBytes [toString sid.toNat, toString offset.toNat, bytesText data]
  | .getByte sid offset => lineText .getByte [toString sid.toNat, toString offset.toNat]
  | .getShort sid offset => lineText .getShort [toString sid.toNat, toString offset.toNat]
  | .getFxChain sid => lineText .getFxChain [toString sid.toNat]
  | .serializeIdRequest dev => lineText .serialize [msgText (.idRequest dev)]
  | .serializeIdResponse dev fw => lineText .serialize [msgText (.idResponse dev fw)]
  | .serializeQuery dev region offset size => lineText .serialize [msgText (.query dev region offset size)]
  | .serializeCommand dev region offset data => lineText .serialize [msgText (.command dev region offset data)]
  | .frameIdReq dev => lineText .parse [bytesText (frameIdReqBytes dev)]
  | .frameIdResp dev fw0 fw1 fw2 fw3 => lineText .parse [bytesText (frameIdRespBytes dev fw0 fw1 fw2 fw3)]
  | .frameQuery dev region offset size cks => lineText .parse [bytesText (frameQueryBytes dev region offset size cks)]
  | .frameCommand dev region offset data cks =>
    lineText .parse [bytesText (frameCommandBytes dev region offset data cks)]

/-- The name of a status (60_exceptions.md R220). -/
def statusText : Status → String
  | .ok => "OK" | .bounds => "BOUNDS" | .length => "LENGTH" | .frameStart => "FRAME_START" | .frameEnd => "FRAME_END"
  | .unknownVendor => "UNKNOWN_VENDOR" | .universalSubid => "UNIVERSAL_SUBID"
  | .identityMismatch => "IDENTITY_MISMATCH" | .modelMismatch => "MODEL_MISMATCH" | .unknownOp => "UNKNOWN_OP"
  | .discardedOffset => "DISCARDED_OFFSET" | .unknownEncoding => "UNKNOWN_ENCODING"
  | .missingPayload => "MISSING_PAYLOAD" | .noStore => "NO_STORE" | .illegalRequest => "ILLEGAL_REQUEST"

/-- The diagnostic information, in parentheses after a status (95_test_vectors.md; 60_exceptions.md R221). -/
def infoText : Info → String
  | .none => ""
  | .value v => "(VALUE(" ++ toString v ++ "))"
  | .byte x => "(BYTE(" ++ toString x.toNat ++ "))"
  | .len expected actual => "(LEN(" ++ toString expected ++ "," ++ toString actual ++ "))"
  | .addr a => "(ADDR(" ++ toString a ++ "))"

/-- A pair, as 95_test_vectors.md writes a WriteStat or an Address: two numbers between braces. -/
def pairText (x y : Nat) : String :=
  String.singleton (Char.ofNat 123) ++ toString x ++ ", " ++ toString y ++ String.singleton (Char.ofNat 125)

/-- A result (R63, R75), after a space; nothing where there is none. -/
def resultText : Result → String
  | .none => ""
  | .value v => " " ++ toString v.toNat
  | .bytes b => " " ++ bytesText b
  | .address region offset => " " ++ pairText region.toNat offset.toNat
  | .isMutable b => " " ++ toString b
  | .checksum c => " " ++ toString c.toNat
  | .msg m => " " ++ msgText m
  | .frame b => " " ++ bytesText b
  | .writeStat written discarded => " " ++ pairText written.toNat discarded.toNat
  | .byteValue v => " " ++ toString v.toNat
  | .shortValue v => " " ++ toString v.toNat
  | .values v => " " ++ bytesText v

/-- `-> STATUS result`, or `-> OK+WARN result` where the flag is set (R75). -/
def responseText (r : Response) : String :=
  "-> " ++ statusText r.status ++ (if r.warn then "+WARN" else "") ++ infoText r.info ++ resultText r.result

end Sys2Proof.Machine
end

