-- ==== Sys2Proof/Tests/Slice0.lean ====
section
/-! SUPPORT. Tests: ill-formed terms that the checks refuse, requests and frames written out from the spec's encodings,
single steps with the expected responses of 95_test_vectors.md, and a witness for the hypotheses of every statement.
`SPARSE_ENCODING_ID`, `N_STORES` and `MAX_LIST_LEN` have no value here: slot 0 exists and lists of 18 bytes fit
whatever they are. -/

namespace Sys2Proof.Tests

open Sys2Proof Sys2Proof.Machine

/-! ## Small states -/

/-- A block whose slot 0 is alive and holds `m`. -/
def liveWith (m : Memory) : State := ⟨[⟨true, m⟩], [], []⟩

/-- A block whose slot 0 is alive and zero-filled. -/
def live : State := liveWith []

/-- A block whose slots are all alive and zero-filled. -/
def liveAll : State := ⟨List.replicate Config.nStores ⟨true, []⟩, [], []⟩

/-- The state with one request waiting. -/
def ask (s : State) (r : Request) : State := { s with requests := [r] }

/-- The responses of an outcome. -/
def given : Host.Outcome State Fault Refusal → List Response
  | .next t => t.responses
  | .fault _ => []
  | .refused _ => []

/-- The storage of slot 0 of an outcome. -/
def stored : Host.Outcome State Fault Refusal → Memory
  | .next t => t.cells 0
  | .fault _ => []
  | .refused _ => []

/-! ## WellFormed refuses ill-formed terms -/

/-- A list one byte longer than the port accepts. -/
def overlong : Bytes := List.replicate (Config.maxListLen + 1) 0

theorem overlong_length : overlong.length = Config.maxListLen + 1 := by simp [overlong]

theorem listFits_overlong : listFits overlong.length = false := by simp [listFits, overlong_length]

theorem illFormed_dec7 : (Instr.dec7 overlong).wellFormed = false := listFits_overlong
theorem illFormed_dec14 : (Instr.dec14 overlong).wellFormed = false := listFits_overlong
theorem illFormed_dec28 : (Instr.dec28 overlong).wellFormed = false := listFits_overlong
theorem illFormed_addrDec : (Instr.addrDec overlong).wellFormed = false := listFits_overlong
theorem illFormed_parse : (Instr.parse overlong).wellFormed = false := listFits_overlong
theorem illFormed_writeBytes : (Instr.writeBytes 0 0 overlong).wellFormed = false := listFits_overlong
theorem illFormed_serialize_command : (Instr.serialize (.command 0 0 0 overlong)).wellFormed = false :=
  listFits_overlong
theorem illFormed_apply_idResponse : (Instr.apply 0 (.idResponse 0 (some overlong))).wellFormed = false :=
  listFits_overlong
theorem illFormed_serializeIdResponse : (Instr.serializeIdResponse 0 (some overlong)).wellFormed = false :=
  listFits_overlong
theorem illFormed_serializeCommand : (Instr.serializeCommand 0 0 0 overlong).wellFormed = false := listFits_overlong
theorem illFormed_checksum : (Instr.checksum [[], overlong]).wellFormed = false := by
  simp [Instr.wellFormed, groupsLength, listFits, overlong_length]
theorem illFormed_frameCommand : (Instr.frameCommand 0 0 0 overlong 0).wellFormed = false := by
  simp [Instr.wellFormed, listFits, overlong_length]
  omega

/-! ## Decoding: requests and frames from 30_encoding.md R61, R62, R65, R67 to R70 -/

theorem decode_dec7 : decode (.req 0x01 [.bytes [0x53]]) = .ok (.dec7 [0x53]) := by rfl
theorem decode_dec14 : decode (.req 0x02 [.bytes [0x60, 0x00]]) = .ok (.dec14 [0x60, 0x00]) := by rfl
theorem decode_dec28 : decode (.req 0x03 [.bytes [0, 0, 0, 1]]) = .ok (.dec28 [0, 0, 0, 1]) := by rfl
theorem decode_enc7 : decode (.req 0x04 [.byte 0x53]) = .ok (.enc7 0x53) := by rfl
theorem decode_enc14 : decode (.req 0x05 [.u16 12288]) = .ok (.enc14 12288) := by rfl
theorem decode_enc28 : decode (.req 0x06 [.u32 1]) = .ok (.enc28 1) := by rfl
theorem decode_addrDec : decode (.req 0x08 [.bytes [0x10, 1, 0, 0]]) = .ok (.addrDec [0x10, 1, 0, 0]) := by rfl
theorem decode_addrEnc : decode (.req 0x09 [.u16 2049, .u16 5]) = .ok (.addrEnc 2049 5) := by rfl
theorem decode_isMutable : decode (.req 0x0A [.u16 2049]) = .ok (.isMutable 2049) := by rfl
theorem decode_checksum : decode (.req 0x0B [.groups [[1], [2, 3]]]) = .ok (.checksum [[1], [2, 3]]) := by rfl
theorem decode_parse : decode (.req 0x10 [.bytes [0xF0, 0xF7]]) = .ok (.parse [0xF0, 0xF7]) := by rfl
theorem decode_serialize : decode (.req 0x11 [.msg ⟨3, 0x10, [.u16 2049, .u16 7, .bytes [1]]⟩]) =
    .ok (.serialize (.command 0x10 2049 7 [1])) := by rfl
theorem decode_patchNew : decode (.req 0x20 [.byte 1, .byte 2]) = .ok (.patchNew 1 2) := by rfl
theorem decode_apply : decode (.req 0x21 [.byte 1, .msg ⟨1, 9, [.bit true, .bytes [1, 2, 3, 4]]⟩]) =
    .ok (.apply 1 (.idResponse 9 (some [1, 2, 3, 4]))) := by rfl
theorem decode_writeBytes : decode (.req 0x22 [.byte 1, .u16 100, .bytes [7]]) = .ok (.writeBytes 1 100 [7]) := by rfl
theorem decode_getByte : decode (.req 0x23 [.byte 1, .u16 100]) = .ok (.getByte 1 100) := by rfl
theorem decode_getShort : decode (.req 0x24 [.byte 1, .u16 1013]) = .ok (.getShort 1 1013) := by rfl
theorem decode_getFxChain : decode (.req 0x25 [.byte 1]) = .ok (.getFxChain 1) := by rfl
theorem decode_serializeIdRequest : decode (.reqKind 0x11 ⟨0, 0x7F, []⟩) = .ok (.serializeIdRequest 0x7F) := by rfl
theorem decode_serializeIdResponse : decode (.reqKind 0x11 ⟨1, 5, [.bit false, .bytes [1]]⟩) =
    .ok (.serializeIdResponse 5 none) := by rfl
theorem decode_serializeQuery : decode (.reqKind 0x11 ⟨2, 0, [.u16 12288, .u16 0x53, .u32 1]⟩) =
    .ok (.serializeQuery 0 12288 0x53 1) := by rfl
theorem decode_serializeCommand : decode (.reqKind 0x11 ⟨3, 0, [.u16 12288, .u16 0x20, .bytes [1]]⟩) =
    .ok (.serializeCommand 0 12288 0x20 [1]) := by rfl
theorem decode_frameIdReq : decode (.sysex
    [0b11110000, 0b01111110, 0b10010000, 0b00000110, 0b00000001, 0b11110111]) = .ok (.frameIdReq 0x90) := by rfl
theorem decode_frameIdResp : decode (.sysex
    [0b11110000, 0b01111110, 0b00000101, 0b00000110, 0b00000010, 0b01000001, 0b00110011, 0b00000011, 0b00000000,
     0b00000000, 0b00000001, 0b00000010, 0b00000011, 0b10000100, 0b11110111]) =
    .ok (.frameIdResp 5 1 2 3 0x84) := by rfl
theorem decode_frameQuery : decode (.sysex
    [0b11110000, 0b01000001, 0b00000101, 0b00000000, 0b00000000, 0b00000000, 0b00110011, 0b00010001,
     0b01100000, 0b00000001, 0b00000111, 0b01110101, 0b00000001, 0b00000010, 0b00000011, 0b00000100,
     0b01001100, 0b11110111]) = .ok (.frameQuery 5 12289 1013 0x208184 0x4C) := by rfl
theorem decode_frameCommand : decode (.sysex
    [0b11110000, 0b01000001, 0b00000101, 0b00000000, 0b00000000, 0b00000000, 0b00110011, 0b00010010,
     0b01100000, 0b00000001, 0b00000111, 0b01110101, 0b11110111, 0b10000000, 0b01001100, 0b11110111]) =
    .ok (.frameCommand 5 12289 1013 [0xF7, 0x80] 0x4C) := by rfl

/-- A frame in no format is the `PARSE` that reports what is wrong with it. -/
theorem decode_badFrame : decode (.sysex [0xF0, 0x43, 0, 0, 0, 0xF7]) = .ok (.parse [0xF0, 0x43, 0, 0, 0, 0xF7]) := by
  rfl

/-! ## Illegal requests (30_encoding.md R64), in the order of its checks -/

theorem decode_unassigned : decode (.req 0x07 [.msg ⟨4, 0, []⟩]) = .error (.unassignedOp 0x07) := by rfl
theorem decode_missing : decode (.req 0x09 [.u16 0]) = .error .malformedOperands := by rfl
theorem decode_excess : decode (.req 0x0A [.u16 0, .u16 0]) = .error .malformedOperands := by rfl
theorem decode_wrongType : decode (.req 0x04 [.u16 0]) = .error .malformedOperands := by rfl
theorem decode_wrongFields : decode (.req 0x11 [.msg ⟨0, 0, [.u16 0]⟩]) = .error .malformedOperands := by rfl
theorem decode_tooLong : decode (.req 0x01 [.bytes overlong]) = .error .listTooLong := by
  simp [decode, opcodeOf, opcodeTable, decodeOperands, takeBytes, limited, overlong_length]
theorem decode_unknownKind : decode (.req 0x21 [.byte 0, .msg ⟨4, 0, []⟩]) = .error (.unknownMsgKind 4) := by rfl

theorem test_illegal_unassigned : given (step (ask live (.req 0x26 []))) =
    [⟨.illegalRequest, false, .byte 0x26, .none⟩] := by decide
theorem test_illegal_kind : given (step (ask live (.req 0x11 [.msg ⟨4, 0, []⟩]))) =
    [⟨.illegalRequest, false, .none, .none⟩] := by decide

/-! ## The opcode table's words (log entry 6) -/

theorem table_enc14 : decodeTableWord 8 0x05 = some (.enc14 0) := by decide
theorem table_serializeQuery : decodeTableWord 16 0x0211 = some (.serializeQuery 0 0 0 0) := by decide
theorem table_frameIdReq : decodeTableWord 48 0xF70106007EF0 = some (.frameIdReq 0) := by decide
theorem table_step : given (step (State.reset.withFetchWord 8 0x0B)) = [okResponse (.checksum 0)] := by decide

/-! ## Single steps: 95_test_vectors.md section 2.1 -/

theorem test_dec7 : given (step (ask live (.req 0x01 [.bytes [0x7F]]))) = [okResponse (.value 127)] := by decide
theorem test_dec7_length_first : given (step (ask live (.req 0x01 [.bytes [0xFF, 0xFF]]))) =
    [errorResponse .length (.len 1 2)] := by decide
theorem test_dec14 : given (step (ask live (.req 0x02 [.bytes [0x01, 0x00]]))) = [okResponse (.value 128)] := by decide
theorem test_dec14_lowest : given (step (ask live (.req 0x02 [.bytes [0x90, 0xA0]]))) =
    [errorResponse .bounds (.byte 0x90)] := by decide
theorem test_dec28 : given (step (ask live (.req 0x03 [.bytes [0x01, 0x00, 0x00, 0x00]]))) =
    [okResponse (.value 2097152)] := by decide
theorem test_dec28_length : given (step (ask live (.req 0x03 [.bytes [0, 0, 0]]))) =
    [errorResponse .length (.len 4 3)] := by decide
theorem test_enc7 : given (step (ask live (.req 0x04 [.byte 127]))) = [okResponse (.bytes [0x7F])] := by decide
theorem test_enc7_bounds : given (step (ask live (.req 0x04 [.byte 128]))) =
    [errorResponse .bounds (.value 128)] := by decide
theorem test_enc14 : given (step (ask live (.req 0x05 [.u16 1013]))) = [okResponse (.bytes [0x07, 0x75])] := by decide
theorem test_enc14_bounds : given (step (ask live (.req 0x05 [.u16 16384]))) =
    [errorResponse .bounds (.value 16384)] := by decide
theorem test_enc28 : given (step (ask live (.req 0x06 [.u32 2097152]))) =
    [okResponse (.bytes [0x01, 0x00, 0x00, 0x00])] := by decide
theorem test_enc28_bounds : given (step (ask live (.req 0x06 [.u32 0xFFFFFFFF]))) =
    [errorResponse .bounds (.value 4294967295)] := by decide

/-! ## Single steps: section 2.2 -/

theorem test_addrDec : given (step (ask live (.req 0x08 [.bytes [0x10, 0x01, 0x00, 0x00]]))) =
    [okResponse (.address 2049 0)] := by decide
theorem test_addrDec_region_first : given (step (ask live (.req 0x08 [.bytes [0x81, 0x00, 0x00, 0x82]]))) =
    [errorResponse .bounds (.byte 0x81)] := by decide
theorem test_addrEnc : given (step (ask live (.req 0x09 [.u16 2049, .u16 83]))) =
    [okResponse (.bytes [0x10, 0x01, 0x00, 0x53])] := by decide
theorem test_addrEnc_region_first : given (step (ask live (.req 0x09 [.u16 20000, .u16 30000]))) =
    [errorResponse .bounds (.value 20000)] := by decide
theorem test_isMutable : given (step (ask live (.req 0x0A [.u16 2052]))) = [okResponse (.isMutable true)] := by decide
theorem test_isMutable_not : given (step (ask live (.req 0x0A [.u16 2053]))) =
    [okResponse (.isMutable false)] := by decide
theorem test_checksum : given (step (ask live (.req 0x0B [.groups [[0x10, 0x01, 0x00, 0x00], [0xF7, 0x80]]]))) =
    [okResponse (.checksum 0x78)] := by decide
theorem test_checksum_wraps : given (step (ask live (.req 0x0B [.groups [[0x40, 0x40]]]))) =
    [okResponse (.checksum 0)] := by decide

/-! ## Single steps: sections 2.3 and 2.4 -/

theorem test_parse_warn : given (step (ask live (.req 0x10 [.bytes [0xF0, 0x41, 0x00, 0x00, 0x00, 0x00, 0x33, 0x11,
    0x60, 0x00, 0x00, 0x53, 0x00, 0x00, 0x00, 0x01, 0x4D, 0xF7]]))) =
    [⟨.ok, true, .none, .msg (.query 0x00 12288 0x53 1)⟩] := by decide
theorem test_parse_identity : given (step (ask live (.req 0x10 [.bytes [0xF0, 0x7E, 0x00, 0x06, 0x02, 0x41, 0x33, 0x03,
    0x00, 0x01, 0x01, 0x02, 0x03, 0x04, 0xF7]]))) = [errorResponse .identityMismatch .none] := by decide
theorem test_serialize : given (step (ask live (.req 0x11 [.msg ⟨2, 0x10, [.u16 2049, .u16 0, .u32 0x7FFFFFF]⟩]))) =
    [okResponse (.frame [0xF0, 0x41, 0x10, 0x00, 0x00, 0x00, 0x33, 0x11, 0x10, 0x01, 0x00, 0x00, 0x3F, 0x7F, 0x7F,
      0x7F, 0x33, 0xF7])] := by decide
theorem test_serialize_missing : given (step (ask live (.req 0x11 [.msg ⟨1, 0, [.bit false, .bytes []]⟩]))) =
    [errorResponse .missingPayload .none] := by decide
theorem test_serializeIdRequest : given (step (ask live (.reqKind 0x11 ⟨0, 0x00, []⟩))) =
    [okResponse (.frame [0xF0, 0x7E, 0x00, 0x06, 0x01, 0xF7])] := by decide
theorem test_serializeIdResponse : given (step (ask live (.reqKind 0x11 ⟨1, 0, [.bit true, .bytes [1, 2, 3, 4]]⟩))) =
    [okResponse (.frame [0xF0, 0x7E, 0x00, 0x06, 0x02, 0x41, 0x33, 0x03, 0x00, 0x00, 0x01, 0x02, 0x03, 0x04,
      0xF7])] := by decide
theorem test_serializeIdResponse_empty : given (step (ask live (.reqKind 0x11 ⟨1, 0, [.bit true, .bytes []]⟩))) =
    [errorResponse .length (.len 4 0)] := by decide
theorem test_serializeQuery : given (step (ask live (.reqKind 0x11 ⟨2, 0, [.u16 0, .u16 0, .u32 268435456]⟩))) =
    [errorResponse .bounds (.value 268435456)] := by decide
theorem test_serializeCommand : given (step (ask live (.reqKind 0x11 ⟨3, 0x7F, [.u16 16383, .u16 16383,
    .bytes [0x7F]]⟩))) =
    [okResponse (.frame [0xF0, 0x41, 0x7F, 0x00, 0x00, 0x00, 0x33, 0x12, 0x7F, 0x7F, 0x7F, 0x7F, 0x7F, 0x05,
      0xF7])] := by decide
theorem test_makeIdRequest : serializeMsg makeIdRequest = .ok [0xF0, 0x7E, 0x7F, 0x06, 0x01, 0xF7] := by rfl
theorem test_makeCommand : serializeMsg (makeCommand 12288 0x20 [0x01]) =
    .ok [0xF0, 0x41, 0x00, 0x00, 0x00, 0x00, 0x33, 0x12, 0x60, 0x00, 0x00, 0x20, 0x01, 0x7F, 0xF7] := by rfl
theorem test_frameIdReq : given (step (ask live (.sysex [0xF0, 0x7E, 0x90, 0x06, 0x01, 0xF7]))) =
    [okResponse (.msg (.idRequest 0x90))] := by decide
theorem test_frameIdResp : given (step (ask live (.sysex [0xF0, 0x7E, 0x00, 0x06, 0x02, 0x41, 0x33, 0x03, 0x00, 0x00,
    0x01, 0x02, 0x03, 0x04, 0xF7]))) = [okResponse (.msg (.idResponse 0x00 (some [1, 2, 3, 4])))] := by decide
theorem test_frameQuery : given (step (ask live (.sysex [0xF0, 0x41, 0x00, 0x00, 0x00, 0x00, 0x33, 0x11,
    0x60, 0x00, 0x00, 0x53, 0x00, 0x00, 0x00, 0x01, 0x4C, 0xF7]))) =
    [okResponse (.msg (.query 0x00 12288 0x53 1))] := by decide
theorem test_frameCommand : given (step (ask live (.sysex [0xF0, 0x41, 0x10, 0x00, 0x00, 0x00, 0x33, 0x12,
    0x10, 0x01, 0x00, 0x00, 0xF7, 0x80, 0x78, 0xF7]))) =
    [okResponse (.msg (.command 0x10 2049 0 [0xF7, 0x80]))] := by decide
theorem test_frameCommand_warn : given (step (ask live (.sysex [0xF0, 0x41, 0x10, 0x00, 0x00, 0x00, 0x33, 0x12,
    0x10, 0x01, 0x00, 0x00, 0xF7, 0x80, 0x6E, 0xF7]))) =
    [⟨.ok, true, .none, .msg (.command 0x10 2049 0 [0xF7, 0x80])⟩] := by decide

/-! ## Single steps: sections 2.5 and 2.6 -/

theorem test_translate : [0, 106, 107, 191, 192, 1013, 1032, 1058, 1059, 2063, 2064, 2106, 2107, 2303, 2304, 2326,
    2327].map translateAddr =
    [.mapped 0, .mapped 106, .discarded, .discarded, .mapped 107, .mapped 928, .mapped 947, .mapped 973, .discarded,
     .discarded, .mapped 974, .mapped 1016, .discarded, .discarded, .mapped 1017, .mapped 1039, .discarded] := by decide
theorem test_patchNew : given (exec (.patchNew 0 Config.sparseEncodingId) (liveWith [(5, 7)])) =
      [okResponse .none] ∧
    stored (exec (.patchNew 0 Config.sparseEncodingId) (liveWith [(5, 7)])) = [] := by
  have h : patchNew (liveWith [(5, 7)]) 0 Config.sparseEncodingId =
      .ok ((liveWith [(5, 7)]).createSlot 0, reply .none) := by simp [patchNew, Config.nStores]
  simp only [exec, execPatchNew, h]
  decide
theorem test_patchNew_encoding : given (exec (.patchNew 0 (Config.sparseEncodingId + 1)) live) =
    [errorResponse .unknownEncoding (.byte (Config.sparseEncodingId + 1))] := by
  simp [exec, execPatchNew, patchNew, Config.nStores, raising, given, errorResponse, live, liveWith, State.respond,
    Response.ofRaise]
theorem test_writeBytes : given (exec (.writeBytes 0 100 (List.replicate 20 1)) live) =
    [okResponse (.writeStat 7 13)] := by decide
theorem test_writeBytes_across : given (exec (.writeBytes 0 180 (List.replicate 20 1)) live) =
      [okResponse (.writeStat 8 12)] ∧
    stored (exec (.writeBytes 0 180 (List.replicate 20 1)) live) =
      [(107, 1), (108, 1), (109, 1), (110, 1), (111, 1), (112, 1), (113, 1), (114, 1)] := by decide
theorem test_apply : stored (exec (.apply 0 (.command 0 12288 1013 [1, 0, 3])) (liveWith [(929, 9)])) =
    [(928, 1), (930, 3)] := by decide
theorem test_apply_not_mutable : given (exec (.apply 0 (.command 0 1 0 [5, 6, 7])) live) =
      [okResponse (.writeStat 0 3)] ∧
    stored (exec (.apply 0 (.command 0 1 0 [5, 6, 7])) live) = [] := by decide
theorem test_getByte : given (exec (.getByte 0 192) (liveWith [(107, 5)])) = [okResponse (.byteValue 5)] := by decide
theorem test_getByte_bounds : given (exec (.getByte 0 2327) live) = [errorResponse .bounds (.addr 2327)] := by decide
theorem test_getShort : given (exec (.getShort 0 105) (liveWith [(105, 6), (106, 7)])) =
    [okResponse (.shortValue 775)] := by decide
theorem test_getShort_second : given (exec (.getShort 0 106) (liveWith [(106, 7), (107, 8)])) =
    [errorResponse .discardedOffset (.addr 107)] := by decide
theorem test_getFxChain : given (exec (.getFxChain 0) (liveWith [(928, 1), (947, 20)])) =
    [okResponse (.values [1, 0, 0, 0, 0, 0, 0, 0, 0, 0, 0, 0, 0, 0, 0, 0, 0, 0, 0, 20])] := by decide
theorem test_getFxChain_unsafe : given (exec (.getFxChain 0) (liveWith [(930, 0x80), (931, 0x81)])) =
    [errorResponse .bounds (.byte 0x80)] := by decide
theorem test_noStore : given (step (ask State.reset (.req 0x23 [.byte 0, .u16 0]))) =
    [errorResponse .noStore (.byte 0)] := by
  simp [ask, State.reset, step, fetchRequest, decode, opcodeOf, opcodeTable, decodeOperands, takeSidOffset, exec,
    execGetByte, getByte, checkSlot, State.alive, Config.nStores, raising, bind, Except.bind, given, errorResponse,
    State.respond, Response.ofRaise]

/-! ## The text of 30_encoding.md R75 -/

theorem test_requestText : requestText (.writeBytes 0 100 [1, 2]) = "WRITE_BYTES 0, 100, [1, 2]" := by decide
theorem test_responseText : responseText ⟨.ok, true, .none, .msg (.query 0 12288 83 1)⟩ =
    "-> OK+WARN Query(0, 12288, 83, 1)" := by decide

/-! ## Witnesses: the hypotheses of each statement are met together -/

theorem slot0 : (0 : Byte).toNat < Config.nStores := by simp [Config.nStores]

theorem liveAll_inv : liveAll.Inv := by
  refine ⟨by simp [liveAll], fun slot h => ?_⟩
  rw [List.eq_of_mem_replicate h]
  simp [Memory.Wf, Memory.InRange]

theorem liveAll_alive : liveAll.alive 0 = true := by simp [liveAll, State.alive, Config.nStores]

theorem witness_Dec7DecodesOneSafeByte : ([0x7F] : Bytes).length ≤ Config.maxListLen ∧ (0x7F : Byte).toNat ≤ 127 ∧
    127 < (0x80 : Byte).toNat ∧ ([] : Bytes).length ≠ 1 := by decide
theorem witness_Dec14DecodesTwoSafeBytes : ([0x7F, 0x7F] : Bytes).length ≤ Config.maxListLen ∧
    (0x7F : Byte).toNat ≤ 127 ∧ 127 < (0x80 : Byte).toNat ∧ ([1] : Bytes).length ≠ 2 := by decide
theorem witness_Dec28DecodesFourSafeBytes : (∀ v ∈ ([0x7F, 0x7F, 0x7F, 0x7F] : Bytes), v.toNat ≤ 127) ∧
    ([0, 0, 0, 0x80] : Bytes) = [0, 0, 0] ++ 0x80 :: [] ∧ (∀ v ∈ ([0, 0, 0] : Bytes), v.toNat ≤ 127) ∧
    127 < (0x80 : Byte).toNat ∧ ([0, 0, 0] : Bytes).length ≠ 4 := by decide
theorem witness_Enc7EncodesSevenBits : (127 : Byte).toNat ≤ 127 ∧ 127 < (128 : Byte).toNat := by decide
theorem witness_Enc14EncodesFourteenBits : (16383 : U16).toNat ≤ 16383 ∧ 16383 < (16384 : U16).toNat := by decide
theorem witness_Enc28EncodesTwentyEightBits : (268435455 : U32).toNat ≤ 268435455 ∧
    268435455 < (268435456 : U32).toNat := by decide
theorem witness_CodecRoundTrips : (4, 268435455) ∈ [(1, 127), (2, 16383), (4, 268435455)] ∧
    ([0x7F, 0x7F, 0x7F, 0x7F] : Bytes).length = 4 ∧ (∀ x ∈ ([0x7F, 0x7F, 0x7F, 0x7F] : Bytes), x.toNat ≤ 127) ∧
    (∃ x ∈ ([0, 0, 0, 0x80] : Bytes), 128 ≤ x.toNat) := by decide
theorem witness_AddrDecDecodesRegionThenOffset : (∀ v ∈ ([0x7F, 0x7F, 0x7F, 0x7F] : Bytes), v.toNat ≤ 127) ∧
    ([0, 0, 0x80, 0] : Bytes) = [0, 0] ++ 0x80 :: [0] ∧ 127 < (0x80 : Byte).toNat ∧
    ([0, 0, 0, 0, 0] : Bytes).length ≠ 4 := by decide
theorem witness_AddrEncEncodesRegionThenOffset : (16383 : U16).toNat ≤ 16383 ∧ 16383 < (16384 : U16).toNat := by decide
theorem witness_ChecksumSumsAllGroups : (([[1], [2, 3]] : List Bytes).map List.length).sum ≤ Config.maxListLen := by
  decide
theorem witness_ChecksumLaws : ([[1], [2, 3]] : List Bytes).flatten.Perm ([[3, 2, 1]] : List Bytes).flatten ∧
    (127 : Byte).toNat ≤ 127 ∧ 128 ≤ (128 : Byte).toNat := by decide
theorem witness_AddressRoundTrips : (16383 : U16).toNat ≤ 16383 ∧ ([0x7F, 0, 0, 0x7F] : Bytes).length = 4 ∧
    (∀ x ∈ ([0x7F, 0, 0, 0x7F] : Bytes), x.toNat ≤ 127) := by decide

/-- An empty list, a lone start marker, two markers, and a six-byte frame of each dialect. -/
theorem witness_ParseChecksFramingThenDialect : ([] : Bytes).head? ≠ some 0xF0 ∧
    (([0xF0] : Bytes).head? = some 0xF0 ∧ ([0xF0] : Bytes).getLast? ≠ some 0xF7) ∧
    (([0xF0, 0xF7] : Bytes).getLast? = some 0xF7 ∧ ([0xF0, 0xF7] : Bytes).length < 6) ∧
    (6 ≤ ([0xF0, 0x7E, 0, 0, 0, 0xF7] : Bytes).length ∧
      ([0xF0, 0x7E, 0, 0, 0, 0xF7] : Bytes)[1]? = some 0x7E) ∧
    ([0xF0, 0x41, 0, 0, 0, 0xF7] : Bytes)[1]? = some 0x41 ∧
    (([0xF0, 0x43, 0, 0, 0, 0xF7] : Bytes)[1]? = some 0x43 ∧ (0x43 : Byte) ≠ 0x7E ∧ (0x43 : Byte) ≠ 0x41) := by decide
theorem witness_ParseReadsUniversalFrames : ∀ sub sel : Byte, (sub, sel) ∈ [(7, 1), (6, 3), (6, 1)] →
    let buf : Bytes := [0xF0, 0x7E, 0, sub, sel, 0xF7]
    buf.head? = some 0xF0 ∧ buf.getLast? = some 0xF7 ∧ 6 ≤ buf.length ∧ buf[1]? = some 0x7E ∧ buf[2]? = some 0 ∧
      buf[3]? = some sub ∧ buf[4]? = some sel := by
  intro sub sel h
  simp
theorem witness_ParseReadsUniversalFrames_long :
    let buf : Bytes := [0xF0, 0x7E, 0, 6, 1, 0, 0xF7]
    buf.head? = some 0xF0 ∧ buf.getLast? = some 0xF7 ∧ 6 ≤ buf.length ∧ buf[1]? = some 0x7E ∧ buf[2]? = some 0 ∧
      buf[3]? = some 6 ∧ buf[4]? = some 1 ∧ buf.length ≠ 6 := by decide
theorem witness_ParseReadsIdResponseFrames : ∀ sig : Byte, sig = 0 ∨ sig = 1 →
    let buf : Bytes := [0xF0, 0x7E, 0, 6, 2, 0x41, 0x33, 3, 0, sig, 1, 2, 3, 4, 0xF7]
    buf.head? = some 0xF0 ∧ buf.getLast? = some 0xF7 ∧ buf[1]? = some 0x7E ∧ buf[2]? = some 0 ∧ buf[3]? = some 6 ∧
      buf[4]? = some 2 ∧ buf.length = 15 ∧ (sig = 1 → (buf.drop 5).take 5 ≠ [0x41, 0x33, 3, 0, 0]) ∧
      (sig = 0 → (buf.drop 5).take 5 = [0x41, 0x33, 3, 0, 0]) := by
  rintro _ (rfl | rfl) <;> decide
theorem witness_ParseReadsIdResponseFrames_short :
    let buf : Bytes := [0xF0, 0x7E, 0, 6, 2, 0xF7]
    buf.head? = some 0xF0 ∧ buf.getLast? = some 0xF7 ∧ 6 ≤ buf.length ∧ buf[4]? = some 2 ∧ buf.length ≠ 15 := by decide
theorem witness_ParseChecksVendorFrames : ([0xF0, 0x41, 0, 0, 0, 0xF7] : Bytes).length < 14 ∧
    (∀ model sel r1 : Byte, (model, sel, r1) ∈ [(0x34, 0x11, 0), (0x33, 0x13, 0), (0x33, 0x11, 0x80)] →
      let buf : Bytes := [0xF0, 0x41, 0, 0, 0, 0, model, sel, r1, 0, 0, 0, 0, 0xF7]
      buf.head? = some 0xF0 ∧ buf.getLast? = some 0xF7 ∧ 14 ≤ buf.length ∧ buf[1]? = some 0x41 ∧
        (buf.drop 3).take 4 = [0, 0, 0, model] ∧ buf[7]? = some sel ∧ (buf.drop 8).take 4 = [] ++ r1 :: [0, 0, 0]) := by
  refine ⟨by decide, fun model sel r1 _ => ?_⟩
  simp
theorem witness_ParseReadsQueryFrames : (∀ v ∈ ([0x7F, 0, 0, 0x7F] : Bytes), v.toNat ≤ 127) ∧
    (∀ v ∈ ([0x7F, 0x7F, 0x7F, 0x7F] : Bytes), v.toNat ≤ 127) ∧
    (([0, 0x80, 0, 0] : Bytes) = [0] ++ 0x80 :: [0, 0] ∧ 127 < (0x80 : Byte).toNat) ∧
    ([0, 0, 0] : Bytes).length ≠ 4 := by decide
theorem witness_ParseReadsCommandFrames : ∀ v ∈ ([0x7F, 0, 0, 0x7F] : Bytes), v.toNat ≤ 127 := by decide

/-- The Query frame of 95_test_vectors.md S6, with the checksum byte `k`. -/
def query6 (k : Byte) : Bytes :=
  [0xF0, 0x41, 0x00, 0x00, 0x00, 0x00, 0x33, 0x11, 0x60, 0x00, 0x00, 0x53, 0x00, 0x00, 0x00, 0x01, k, 0xF7]

theorem witness_ChecksumMismatchIsAdvisory : (query6 0x4D)[1]? = some 0x41 ∧
    (query6 0x4D)[(query6 0x4D).length - 2]? = some 0x4D ∧
    Answers (.parse (query6 0x4D)) live (msgResponse true (.query 0 12288 0x53 1)) := ⟨rfl, rfl, rfl⟩
theorem witness_SerializeWritesIdResponse : ([] : Bytes).length ≠ 4 ∧ ([1, 2, 3, 4] : Bytes).length = 4 := by decide
theorem witness_SerializeWritesQuery : (16383 : U16).toNat ≤ 16383 ∧ (268435455 : U32).toNat ≤ 268435455 ∧
    16383 < (16384 : U16).toNat ∧ 268435455 < (268435456 : U32).toNat := by decide
theorem witness_SerializeWritesCommand : (16383 : U16).toNat ≤ 16383 ∧ 16383 < (16384 : U16).toNat := by decide
theorem witness_ParseAndSerializeAreInverse :
    Answers (.serialize (.query 0 12288 0x53 1)) live (okResponse (.frame (query6 0x4C))) ∧
    Answers (.parse (query6 0x4C)) live (msgResponse false (.query 0 12288 0x53 1)) ∧
    Answers (.parse (query6 0xCC)) live (msgResponse true (.query 0 12288 0x53 1)) := ⟨rfl, rfl, rfl⟩
theorem witness_FrameRowsAgreeWithParse : frameRowOf (query6 0x4C) = some (.frameQuery 0 12288 0x53 1 0x4C) ∧
    frameRowOf [0xF0, 0xF7] = none := by decide
theorem witness_TranslateIsABijectionOntoStorage : translateAddr 2326 = .mapped 1039 ∧ 1039 ≤ 1039 ∧
    (⟨2304, 2327, 1287⟩ : Boundary) ∈ boundaryTable ∧ translateAddr 2304 = .mapped 1017 ∧ 2304 + 1 < 2327 ∧
    1017 ≤ 1039 ∧ 1039 < 2327 - 1287 := by decide
theorem witness_BoundaryTableInvariants : boundaryTable[2]? = some ⟨2064, 2107, 1090⟩ ∧
    boundaryTable[2 + 1]? = some ⟨2304, 2327, 1287⟩ := by decide
theorem witness_PatchNewCreatesAZeroFilledSlot : liveAll.Inv ∧ (0 : Byte).toNat < Config.nStores ∧
    (∃ enc, enc ≠ Config.sparseEncodingId) ∧ (∃ enc, enc = Config.sparseEncodingId) :=
  ⟨liveAll_inv, slot0, ⟨~~~Config.sparseEncodingId, by
    intro h
    have := congrArg (fun v : Byte => v[0]) h
    simp at this⟩, _, rfl⟩
/-- An index out of range exists unless `N_STORES` is 256. -/
theorem witness_PatchNewCreatesAZeroFilledSlot_index (h : Config.nStores ≤ 255) :
    ∃ sid : Byte, Config.nStores ≤ sid.toNat := ⟨255, h⟩
theorem witness_StoreOperationsCheckTheSlotFirst : State.reset.alive (0 : Byte).toNat = false ∧
    Instr.getByte 0 0 ∈ [Instr.apply 0 (.idRequest 0), .writeBytes 0 0 [], .getByte 0 0, .getShort 0 0,
      .getFxChain 0] := by
  refine ⟨?_, by decide⟩
  simp [State.reset, State.alive, Config.nStores]
theorem witness_WriteBytesStoresTheMappedBytes : liveAll.Inv ∧ (0 : Byte).toNat < Config.nStores ∧
    liveAll.alive (0 : Byte).toNat = true ∧
    (([1, 2] : Bytes)[0]? = some 1 ∧ translateAddr ((106 : U16).toNat + 0) = .mapped 106) ∧
    (∀ j, j < ([1, 2] : Bytes).length → translateAddr ((106 : U16).toNat + j) ≠ .mapped 107) ∧
    ((List.range ([1, 2] : Bytes).length).countP (fun j => isMapped ((106 : U16).toNat + j)) = 1 ∧
      ([1, 2] : Bytes).length - 1 < 2 ^ 32) ∧ 2 + 4 ≤ 6 :=
  ⟨liveAll_inv, slot0, liveAll_alive, by decide, by decide, by decide, by decide⟩
theorem witness_ApplyWritesOnlyMutableCommands : (Msg.command 0 1 0 [1]).wellFormed = true ∧
    State.reset.alive (0 : Byte).toNat = false ∧ (0 : Byte).toNat < Config.nStores ∧
    liveAll.alive (0 : Byte).toNat = true ∧ (2052 : U16).toNat ∈ [2049, 2050, 2051, 2052, 12288] ∧
    (2053 : U16).toNat ∉ [2049, 2050, 2051, 2052, 12288] ∧ ([1, 2, 3, 4] : Bytes).length < 2 ^ 32 :=
  ⟨by decide, by simp [State.reset, State.alive, Config.nStores], slot0, liveAll_alive, by decide, by decide,
    by decide⟩
theorem witness_GetByteReadsOneMappedCell : (0 : Byte).toNat < Config.nStores ∧
    (liveWith [(0, 127), (1, 128)]).alive (0 : Byte).toNat = true ∧ 2326 < (2327 : U16).toNat ∧
    translateAddr (2303 : U16).toNat = .discarded ∧
    (translateAddr (0 : U16).toNat = .mapped 0 ∧ ((liveWith [(0, 127), (1, 128)]).cells 0).read 0 = 127) ∧
    (translateAddr (1 : U16).toNat = .mapped 1 ∧ ((liveWith [(0, 127), (1, 128)]).cells 0).read 1 = 128) := by
  decide
theorem witness_GetShortReadsTwoMappedCells : (0 : Byte).toNat < Config.nStores ∧
    (liveWith [(0, 127), (1, 128), (2, 127)]).alive (0 : Byte).toNat = true ∧ 2326 < (2327 : U16).toNat ∧
    translateAddr (2303 : U16).toNat = .discarded ∧
    (translateAddr (106 : U16).toNat = .mapped 106 ∧ translateAddr ((106 : U16).toNat + 1) = .discarded) ∧
    (translateAddr (0 : U16).toNat = .mapped 0 ∧ translateAddr ((0 : U16).toNat + 1) = .mapped 1 ∧
      translateAddr ((1 : U16).toNat + 1) = .mapped 2 ∧ translateAddr ((2 : U16).toNat + 1) = .mapped 3) ∧
    [0, 1, 2, 3].map ((liveWith [(0, 127), (1, 128), (2, 127)]).cells 0).read = [127, 128, 127, 0] := by decide
theorem witness_GetFxChainReadsTheFixedRange : (0 : Byte).toNat < Config.nStores ∧ live.alive (0 : Byte).toNat = true ∧
    (∀ x ∈ (List.range 20).map (fun j => (live.cells 0).read (928 + j)), x.toNat ≤ 127) ∧
    (List.range 20).map (fun j => ((liveWith [(947, 128)]).cells 0).read (928 + j)) =
      List.replicate 19 0 ++ 128 :: [] := by decide
theorem witness_ReadersReturnWhatWasWritten : liveAll.Inv ∧ (0 : Byte).toNat < Config.nStores ∧
    liveAll.alive (0 : Byte).toNat = true ∧ isMapped (105 : U16).toNat = true ∧
    isMapped ((105 : U16).toNat + 1) = true :=
  ⟨liveAll_inv, slot0, liveAll_alive, by decide, by decide⟩
theorem witness_ReadersReturnWhatWasWritten_fx :
    Answers (.getFxChain 0) live (okResponse (.values (List.replicate 20 0))) ∧
    Answers (.getByte 0 (BitVec.ofNat 16 (1013 + 19))) live (okResponse (.byteValue 0)) := ⟨rfl, rfl⟩
theorem witness_WritesAreIdempotent : liveAll.Inv ∧
    (∃ t, exec (.writeBytes 0 100 [1]) liveAll = .next t) ∧ ∃ t, exec (.patchNew 0 0) liveAll = .next t :=
  ⟨liveAll_inv, ⟨_, rfl⟩, _, rfl⟩
theorem witness_SlotsAreIndependent : slotOf (.writeBytes 1 0 [1]) = some 1 ∧
    (⟨[⟨true, []⟩, ⟨true, [(3, 3)]⟩], [], []⟩ : State).slots[(1 : Byte).toNat]? =
      (⟨[⟨false, []⟩, ⟨true, [(3, 3)]⟩], [], []⟩ : State).slots[(1 : Byte).toNat]? := by decide
theorem witness_OnlyTheStoreWritersWriteState : slotOf (.dec7 [1]) = none ∧
    ∃ t, exec (.writeBytes 0 0 [1]) live = .next t ∧ t.slots ≠ live.slots := ⟨rfl, _, rfl, by decide⟩
theorem witness_AliveIsSetOnlyByPatchNew : live.alive 0 = true ∧
    ∃ s t, exec (.patchNew 0 Config.sparseEncodingId) s = .next t ∧ s.alive 0 = false ∧ t.alive 0 = true := by
  refine ⟨rfl, ⟨[⟨false, []⟩], [], []⟩, ⟨[⟨true, []⟩], [], [okResponse .none]⟩, ?_, rfl, rfl⟩
  have h : patchNew ⟨[⟨false, []⟩], [], []⟩ 0 Config.sparseEncodingId =
      .ok (State.createSlot ⟨[⟨false, []⟩], [], []⟩ 0, reply .none) := by simp [patchNew, Config.nStores]
  show finish _ (patchNew ⟨[⟨false, []⟩], [], []⟩ 0 Config.sparseEncodingId) = _
  rw [h]
  rfl
theorem witness_OnlyParseSetsTheWarning : ∃ t, exec (.parse (query6 0x4D)) live = .next t ∧
    t.responses = live.responses ++ [msgResponse true (.query 0 12288 0x53 1)] := ⟨_, rfl, rfl⟩
theorem witness_EveryResponseIsWellFormed : (ask live (.req 0x04 [.byte 1])).requests = .req 0x04 [.byte 1] :: [] := rfl
theorem witness_ErrorsChangeNoState : (∃ t, exec (.enc7 128) live = .next t ∧
      t.responses = live.responses ++ [errorResponse .bounds (.value 128)]) ∧
    ∃ t, step (ask live (.req 0x26 [])) = .next t ∧
      t.responses = (ask live (.req 0x26 [])).responses ++ [errorResponse .illegalRequest (.byte 0x26)] :=
  ⟨⟨_, rfl, rfl⟩, _, rfl, rfl⟩
theorem witness_StepPerformsTheDecodedRequest : (ask live (.req 0x04 [.byte 1])).requests = .req 0x04 [.byte 1] :: [] ∧
    decode (.req 0x04 [.byte 1]) = .ok (.enc7 1) := ⟨rfl, rfl⟩
theorem witness_IllegalRequestsAreAnswered : (ask live (.req 0x26 [])).requests = .req 0x26 [] :: [] ∧
    decode (.req 0x26 []) = .error (.unassignedOp 0x26) ∧ decode (.req 0x25 []) = .error .malformedOperands :=
  ⟨rfl, rfl, rfl⟩
theorem witness_RequestIsLegalIffItFits : ∀ o, opcodeByte o ≠ 0x26 := by intro o; cases o <;> decide
/-- The longest list that fits, and a record of each kind; one carries an `fw` that is ignored. -/
theorem witness_MessageRecordsDecodeToTheirMessages :
    (List.replicate Config.maxListLen (0 : Byte)).length ≤ Config.maxListLen ∧
    ([7, 8] : Bytes).length ≤ Config.maxListLen ∧
    decode (.req 0x21 [.byte 1, .msg ⟨1, 9, [.bit false, .bytes [7, 8]]⟩]) = .ok (.apply 1 (.idResponse 9 none)) ∧
    decode (.req 0x11 [.msg ⟨0, 9, []⟩]) = .ok (.serialize (.idRequest 9)) ∧
    decode (.reqKind 0x11 ⟨3, 9, [.u16 1, .u16 2, .bytes [7, 8]]⟩) = .ok (.serializeCommand 9 1 2 [7, 8]) :=
  ⟨by simp, by decide, rfl, rfl, rfl⟩
theorem witness_IdleBlockKeepsItsState : live.requests = [] := rfl
theorem witness_StepKeepsTheInvariant : liveAll.Inv ∧ ∃ t, step liveAll = .next t := ⟨liveAll_inv, _, rfl⟩
/-- Two states that differ in dead storage. -/
theorem witness_DeadStorageIsUnobservable :
    (⟨[⟨false, []⟩], [], []⟩ : State).sameVisible ⟨[⟨false, [(0, 1)]⟩], [], []⟩ :=
  ⟨.cons ⟨rfl, fun h => by cases h⟩ .nil, rfl, rfl⟩
theorem witness_ResetLeavesNoSlotAlive : Instr.getFxChain 0 ∈ [Instr.apply 0 (.idRequest 0), .writeBytes 0 0 [],
    .getByte 0 0, .getShort 0 0, .getFxChain 0] := by decide
theorem witness_DecodeOfEncodeIsTheInstruction : (Instr.writeBytes 255 65535 [255]).wellFormed = true := by decide
theorem witness_DecodedInstructionsAreWellFormed : decode (.sysex (query6 0x4C)) =
    .ok (.frameQuery 0 12288 0x53 1 0x4C) := by rfl

end Sys2Proof.Tests
end

section
/-! Proofs for 00_scope.md (R6, R18): everything an instruction can do, one lemma for all of them, and from it that
each step takes one request and gives one response. -/

namespace Sys2Proof.Machine

/-! ## What an instruction can do -/

/-- An instruction that ends by answering answers with the response of its outcome. -/
theorem answers_of_exec_eq {i : Instr} {s : State} {o : Except Raise Reply} (h : exec i s = answer s o) :
    Answers i s (responseOf o) := (answers_iff h).2 rfl

/-- `PATCH_NEW` answers an error, or creates the store and returns no result (R180). -/
theorem exec_patchNew_cases (sid enc : Byte) (s : State) :
    (∃ r, Answers (.patchNew sid enc) s r) ∨
    (sid.toNat < Config.nStores ∧ enc = Config.sparseEncodingId ∧
      exec (.patchNew sid enc) s = .next ((s.createSlot sid.toNat).respond (okResponse .none))) := by
  have hexec : exec (.patchNew sid enc) s = finish s (patchNew s sid enc) := rfl
  rcases patchNew_cases s sid enc with ⟨_, h⟩ | ⟨_, _, h⟩ | ⟨hsid, henc, h⟩
  · exact .inl ⟨_, by rw [Answers, hexec, h]; rfl⟩
  · exact .inl ⟨_, by rw [Answers, hexec, h]; rfl⟩
  · exact .inr ⟨hsid, henc, by rw [hexec, h]; rfl⟩

/-- `APPLY` answers `NO_STORE`, or does what `applyMsg` does on an alive slot (R179, R181). -/
theorem exec_apply_cases (sid : Byte) (m : Msg) (s : State) :
    Answers (.apply sid m) s (errorResponse .noStore (.byte sid)) ∨
    (sid.toNat < Config.nStores ∧ s.alive sid.toNat = true ∧
      exec (.apply sid m) s =
        .next ((applyMsg s sid m).1.respond (Response.ofReply (applyMsg s sid m).2))) := by
  have hexec : exec (.apply sid m) s = finish s ((checkSlot s sid).map fun _ => applyMsg s sid m) := rfl
  rcases checkSlot_cases s sid with ⟨_, h⟩ | ⟨hsid, halive, _⟩
  · exact .inl (by rw [Answers, hexec, h]; rfl)
  · exact .inr ⟨hsid, halive, exec_apply m hsid halive⟩

/-- `WRITE_BYTES` answers `NO_STORE`, or walks the bytes into the storage of an alive slot (R179, R182). -/
theorem exec_writeBytes_cases (sid : Byte) (offset : U16) (data : Bytes) (s : State) :
    Answers (.writeBytes sid offset data) s (errorResponse .noStore (.byte sid)) ∨
    (sid.toNat < Config.nStores ∧ s.alive sid.toNat = true ∧
      exec (.writeBytes sid offset data) s =
        .next ((s.setCells sid.toNat (writeWalk (s.cells sid.toNat) offset.toNat data).cells).respond
          (statResponse (writeWalk (s.cells sid.toNat) offset.toNat data).written
            (writeWalk (s.cells sid.toNat) offset.toNat data).discarded))) := by
  have hexec : exec (.writeBytes sid offset data) s =
      finish s ((checkSlot s sid).map fun _ => walkSlot s sid offset data) := rfl
  rcases checkSlot_cases s sid with ⟨_, h⟩ | ⟨hsid, halive, _⟩
  · exact .inl (by rw [Answers, hexec, h]; rfl)
  · exact .inr ⟨hsid, halive, exec_writeBytes offset data hsid halive⟩

/-- Everything an instruction can do: answer and change nothing else, or write the state as `PATCH_NEW`, `APPLY` or
`WRITE_BYTES`, and then answer (R18). -/
theorem exec_cases (i : Instr) (s : State) :
    (∃ r, Answers i s r) ∨
    (∃ sid enc, i = .patchNew sid enc ∧ sid.toNat < Config.nStores ∧ enc = Config.sparseEncodingId ∧
      exec i s = .next ((s.createSlot sid.toNat).respond (okResponse .none))) ∨
    (∃ sid m, i = .apply sid m ∧ sid.toNat < Config.nStores ∧ s.alive sid.toNat = true ∧
      exec i s = .next ((applyMsg s sid m).1.respond (Response.ofReply (applyMsg s sid m).2))) ∨
    (∃ sid offset data, i = .writeBytes sid offset data ∧ sid.toNat < Config.nStores ∧ s.alive sid.toNat = true ∧
      exec i s = .next ((s.setCells sid.toNat (writeWalk (s.cells sid.toNat) offset.toNat data).cells).respond
        (statResponse (writeWalk (s.cells sid.toNat) offset.toNat data).written
          (writeWalk (s.cells sid.toNat) offset.toNat data).discarded))) := by
  cases hslot : slotOf i with
  | none =>
    obtain ⟨o, ho⟩ := exec_of_slotOf_none hslot
    exact .inl ⟨_, answers_of_exec_eq (ho s)⟩
  | some _ =>
    cases i with
    | patchNew sid enc =>
      exact (exec_patchNew_cases sid enc s).imp id fun h => .inl ⟨sid, enc, rfl, h⟩
    | apply sid m =>
      exact (exec_apply_cases sid m s).imp (⟨_, ·⟩) fun h => .inr (.inl ⟨sid, m, rfl, h⟩)
    | writeBytes sid offset data =>
      exact (exec_writeBytes_cases sid offset data s).imp (⟨_, ·⟩) fun h => .inr (.inr ⟨sid, offset, data, rfl, h⟩)
    | getByte sid offset => exact .inl ⟨_, answers_of_exec_eq (o := getByte s sid offset) rfl⟩
    | getShort sid offset => exact .inl ⟨_, answers_of_exec_eq (o := getShort s sid offset) rfl⟩
    | getFxChain sid => exact .inl ⟨_, answers_of_exec_eq (o := getFxChain s sid) rfl⟩
    | _ => cases hslot

@[simp] theorem applyMsg_requests (s : State) (sid : Byte) (m : Msg) :
    (applyMsg s sid m).1.requests = s.requests := by
  obtain ⟨f, g, h⟩ := applyMsg_eq sid m
  rw [h]
  rfl

@[simp] theorem applyMsg_responses (s : State) (sid : Byte) (m : Msg) :
    (applyMsg s sid m).1.responses = s.responses := by
  obtain ⟨f, g, h⟩ := applyMsg_eq sid m
  rw [h]
  rfl

/-- Every instruction completes with one response and leaves the waiting requests as they are (R6). -/
theorem exec_responds (i : Instr) (s : State) :
    ∃ t r, exec i s = .next t ∧ t.requests = s.requests ∧ t.responses = s.responses ++ [r] := by
  rcases exec_cases i s with ⟨r, h⟩ | ⟨_, _, _, _, _, h⟩ | ⟨sid, m, _, _, _, h⟩ | ⟨_, _, _, _, _, _, h⟩
  · exact ⟨_, r, h, rfl, rfl⟩
  · exact ⟨_, _, h, rfl, rfl⟩
  · exact ⟨_, Response.ofReply (applyMsg s sid m).2, h, by simp, by simp⟩
  · exact ⟨_, _, h, rfl, rfl⟩

/-! ## Steps and runs -/

/-- The oldest waiting request is the one taken (R6). -/
theorem fetchRequest_of_requests {s : State} {r : Request} {rest : List Request} (h : s.requests = r :: rest) :
    fetchRequest s = some (r, { s with requests := rest }) := by
  rw [fetchRequest, h]

/-- A step performs the instruction that the oldest waiting request decodes to (R6, R64). -/
theorem step_of_decode_ok {s : State} {r : Request} {rest : List Request} {i : Instr}
    (hreq : s.requests = r :: rest) (hdec : decode r = .ok i) : step s = exec i { s with requests := rest } := by
  simp only [step, fetchRequest_of_requests hreq, hdec]

/-- A step answers an illegal request and changes nothing else but that it is taken (R64). -/
theorem step_of_decode_error {s : State} {r : Request} {rest : List Request} {e : IllegalRequest}
    (hreq : s.requests = r :: rest) (hdec : decode r = .error e) :
    step s = .next (({ s with requests := rest } : State).respond (Response.ofRaise (illegalRaise e))) := by
  simp only [step, fetchRequest_of_requests hreq, hdec, raise_eq]

/-- A step with a request waiting takes it and gives one response, legal or not (R6, R64). -/
theorem step_takes_oldest {s : State} {r : Request} {rest : List Request} (hreq : s.requests = r :: rest) :
    ∃ t resp, step s = .next t ∧ t.requests = rest ∧ t.responses = s.responses ++ [resp] := by
  cases hdec : decode r with
  | error e => exact ⟨_, _, step_of_decode_error hreq hdec, rfl, rfl⟩
  | ok i =>
    rw [step_of_decode_ok hreq hdec]
    exact exec_responds i _

/-- No step ends in a fault or a refusal (R223). -/
theorem step_next (s : State) : ∃ t, step s = .next t := by
  cases hreq : s.requests with
  | nil => exact ⟨s, by simp [step, fetchRequest, hreq]⟩
  | cons r rest =>
    obtain ⟨t, _, hstep, _⟩ := step_takes_oldest hreq
    exact ⟨t, hstep⟩

/-- A run goes on from the state its first step leaves. -/
theorem run_core_succ {k : Nat} {s t : State} (h : step s = .next t) :
    Sys2Proof.core.run (k + 1) s = Sys2Proof.core.run k t := run_succ (M := Sys2Proof.core) h

/-- Runs of every length are safe, from every state (R223). -/
theorem safeRun (k : Nat) (s : State) : SafeRun k s := by
  induction k generalizing s with
  | zero => exact ⟨s, rfl⟩
  | succ k ih =>
    obtain ⟨t, hstep⟩ := step_next s
    obtain ⟨u, hrun⟩ := ih t
    exact ⟨u, (run_core_succ hstep).trans hrun⟩

/-- As many steps as there are waiting requests take them all and give as many responses. -/
theorem run_answers_requests {requests : List Request} {s : State} (hreq : s.requests = requests) :
    ∃ t given, Sys2Proof.core.run requests.length s = .next t ∧ t.requests = [] ∧
      t.responses = s.responses ++ given ∧ given.length = requests.length := by
  induction requests generalizing s with
  | nil => exact ⟨s, [], rfl, hreq, (List.append_nil _).symm, rfl⟩
  | cons r rest ih =>
    obtain ⟨t, resp, hstep, htaken, hresp⟩ := step_takes_oldest hreq
    obtain ⟨u, given, hrun, hnone, hgiven, hlength⟩ := ih htaken
    refine ⟨u, resp :: given, (run_core_succ hstep).trans hrun, hnone, ?_, by simp [hlength]⟩
    rw [hgiven, hresp, List.append_assoc, List.singleton_append]

/-! ## The obligations -/

/-- Settles O51, by induction on the number of steps and on the waiting requests. -/
theorem runsAnswerEveryRequest : Obligations.RunsAnswerEveryRequest :=
  fun s => ⟨fun k => safeRun k s, run_answers_requests rfl⟩

/-- Settles O41: an instruction on no slot computes its answer without the state, and the cases of `exec_cases` that
do more than answer are the three writers. -/
theorem onlyTheStoreWritersWriteState : Obligations.OnlyTheStoreWritersWriteState := by
  refine ⟨fun i hslot => ?_, fun i s t hexec hslots => ?_⟩
  · obtain ⟨o, ho⟩ := exec_of_slotOf_none hslot
    exact ⟨responseOf o, fun s => answers_of_exec_eq (ho s)⟩
  · rcases exec_cases i s with ⟨r, h⟩ | ⟨sid, enc, hi, _⟩ | ⟨sid, m, hi, _⟩ | ⟨sid, offset, data, hi, _⟩
    · cases hexec.symm.trans h
      exact absurd rfl hslots
    · exact .inl ⟨sid, enc, hi⟩
    · exact .inr (.inl ⟨sid, m, hi⟩)
    · exact .inr (.inr ⟨sid, offset, data, hi⟩)

/-- Settles O46, by the model's order of fetching, decoding and performing. -/
theorem stepPerformsTheDecodedRequest : Obligations.StepPerformsTheDecodedRequest :=
  fun _ _ _ _ => step_of_decode_ok

end Sys2Proof.Machine
end

section
/-! Proofs for 10_state.md (R21, R28, R182): what each write of the state does to the invariant of the block, and from
it that reset meets the invariant and every step keeps it; and the shape of the boundary table. -/

namespace Sys2Proof.Machine

/-! ## The invariant -/

/-- The invariant speaks of the slots alone. -/
theorem State.Inv.of_slots_eq {s t : State} (h : s.Inv) (hslots : t.slots = s.slots) : t.Inv := by
  unfold State.Inv
  rwa [hslots]

theorem State.Inv.respond {s : State} (h : s.Inv) (r : Response) : (s.respond r).Inv := h.of_slots_eq rfl

/-- The write walk on a slot's own storage keeps the invariant (R182). -/
theorem State.Inv.writeWalk {s : State} (h : s.Inv) (j off : Nat) (data : Bytes) :
    (s.setCells j (Machine.writeWalk (s.cells j) off data).cells).Inv :=
  h.setCells (writeWalk_wf (h.cells_wf j) off data) (writeWalk_inRange (h.cells_inRange j) off data) j

/-- `APPLY` leaves the state, or walks a Command's data into the slot (R181). -/
theorem applyMsg_cases (s : State) (sid : Byte) (m : Msg) :
    (applyMsg s sid m).1 = s ∨
    ∃ off data, (applyMsg s sid m).1 =
      s.setCells sid.toNat (writeWalk (s.cells sid.toNat) off data).cells := by
  cases m with
  | command dev region offset data =>
    rw [applyMsg]
    split
    · exact .inr ⟨offset.toNat, data, rfl⟩
    · exact .inl rfl
  | _ => exact .inl rfl

theorem State.Inv.applyMsg {s : State} (h : s.Inv) (sid : Byte) (m : Msg) : (Machine.applyMsg s sid m).1.Inv := by
  rcases applyMsg_cases s sid m with e | ⟨off, data, e⟩ <;> rw [e]
  · exact h
  · exact h.writeWalk _ _ _

/-- Every instruction keeps the invariant. -/
theorem State.Inv.exec {s t : State} {i : Instr} (h : s.Inv) (hexec : exec i s = .next t) : t.Inv := by
  rcases exec_cases i s with ⟨r, e⟩ | ⟨sid, enc, _, _, _, e⟩ | ⟨sid, m, _, _, _, e⟩ |
    ⟨sid, offset, data, _, _, _, e⟩ <;> cases hexec.symm.trans e
  · exact h.respond r
  · exact (h.createSlot sid.toNat).respond _
  · exact (h.applyMsg sid m).respond _
  · exact (h.writeWalk sid.toNat offset.toNat data).respond _

/-! ## The obligations -/

/-- Settles O52: an idle or illegal request leaves the slots as they are, and a performed instruction keeps the
invariant. -/
theorem stepKeepsTheInvariant : Obligations.StepKeepsTheInvariant := by
  intro s t h hstep
  rcases step_cases s with ⟨_, e⟩ | ⟨r, rest, _, ⟨_, _, e⟩ | ⟨i, _, e⟩⟩
  · cases hstep.symm.trans e
    exact h
  · cases hstep.symm.trans e
    exact h.of_slots_eq rfl
  · have htaken : State.Inv { s with requests := rest } := h.of_slots_eq rfl
    exact htaken.exec (e.symm.trans hstep)

/-- Settles O53: reset leaves `N_STORES` slots that list no cell. -/
theorem resetMeetsTheInvariant : Obligations.ResetMeetsTheInvariant := by
  refine ⟨List.length_replicate, fun slot hslot => ?_⟩
  rw [List.eq_of_mem_replicate hslot]
  exact ⟨Memory.wf_nil, List.forall_mem_nil _⟩

/-- Settles O30: the clauses on rows are checked row by row, and the last is arithmetic on the four rows' bounds. -/
theorem boundaryTableInvariants : Obligations.BoundaryTableInvariants := by
  refine ⟨by decide, ⟨rfl, fun k row next hrow hnext => ?_, rfl, rfl⟩, by decide, ⟨rfl, rfl⟩, fun a => ?_⟩
  · match k, hrow, hnext with
    | 0, rfl, rfl | 1, rfl, rfl | 2, rfl, rfl => rfl
  · simp only [boundaryTable, List.forall_mem_cons, List.not_mem_nil, false_implies, implies_true, and_true]
    omega

end Sys2Proof.Machine
end

section
/-! Proofs for 10_state.md (R22, R23, R250): an operation on a slot is a function of that slot alone, and of its status
bit alone where it is not alive. From it: the slot check, the independence of the slots, and that dead storage is
never observed. -/

namespace Sys2Proof.Machine

/-! ## Updates of one slot -/

/-- The state with `f` applied to one slot: `State.setCells` and `State.createSlot` are of this form. -/
def State.updateSlot (s : State) (j : Nat) (f : Slot → Slot) : State := { s with slots := s.slots.modify j f }

@[simp] theorem updateSlot_id (s : State) (j : Nat) : s.updateSlot j id = s := by
  simp [State.updateSlot]

theorem updateSlot_slot_self (s : State) (j : Nat) (f : Slot → Slot) :
    (s.updateSlot j f).slots[j]? = s.slots[j]?.map f := by
  simp [State.updateSlot]

theorem updateSlot_slot_other (s : State) {j k : Nat} (f : Slot → Slot) (h : k ≠ j) :
    (s.updateSlot j f).slots[k]? = s.slots[k]? := by
  simp [State.updateSlot, Ne.symm h]

/-! ## Slots the host cannot tell apart -/

/-- `f` takes slots the host cannot tell apart to such slots. -/
def KeepsSameSlot (f : Slot → Slot) : Prop := ∀ a b, sameSlot a b → sameSlot (f a) (f b)

theorem sameSlot_refl (a : Slot) : sameSlot a a := ⟨rfl, fun _ => rfl⟩

theorem keepsSameSlot_setCells (m : Memory) : KeepsSameSlot fun slot => { slot with cells := m } :=
  fun _ _ h => ⟨h.1, fun _ => rfl⟩

theorem keepsSameSlot_const (a : Slot) : KeepsSameSlot fun _ => a := fun _ _ _ => sameSlot_refl a

theorem forall₂_modify {f : Slot → Slot} (hf : KeepsSameSlot f) {l l' : List Slot}
    (h : List.Forall₂ sameSlot l l') (j : Nat) : List.Forall₂ sameSlot (l.modify j f) (l'.modify j f) := by
  induction h generalizing j with
  | nil => simp
  | cons hab hl ih =>
    cases j with
    | zero => exact .cons (hf _ _ hab) hl
    | succ j => exact .cons hab (ih j)

theorem State.sameVisible.updateSlot {s t : State} (h : s.sameVisible t) {f : Slot → Slot} (hf : KeepsSameSlot f)
    (j : Nat) : (s.updateSlot j f).sameVisible (t.updateSlot j f) :=
  ⟨forall₂_modify hf h.1 j, h.2⟩

theorem State.sameVisible.respond {s t : State} (h : s.sameVisible t) (r : Response) :
    (s.respond r).sameVisible (t.respond r) :=
  ⟨h.1, h.2.1, congrArg (· ++ [r]) h.2.2⟩

/-- The slot `j` answers the slot check alike in both states, and holds the same storage where it is alive. -/
def State.agreeAt (s t : State) (j : Nat) : Prop :=
  s.alive j = t.alive j ∧ (s.alive j = true → s.cells j = t.cells j)

theorem agreeAt_of_slot_eq {s t : State} {j : Nat} (h : s.slots[j]? = t.slots[j]?) : s.agreeAt t j :=
  ⟨alive_congr h, fun _ => cells_congr h⟩

theorem State.sameVisible.agreeAt {s t : State} (h : s.sameVisible t) (j : Nat) : s.agreeAt t j := by
  obtain ⟨hslots, _⟩ := h
  by_cases hj : j < s.slots.length
  · have hj' : j < t.slots.length := hslots.length_eq ▸ hj
    have hsame : sameSlot s.slots[j] t.slots[j] := hslots.get hj hj'
    simpa [State.agreeAt, State.alive, State.cells, hj, hj', sameSlot] using hsame
  · have hj' : ¬ j < t.slots.length := hslots.length_eq ▸ hj
    simp [State.agreeAt, State.alive, State.cells, hj, hj']

theorem checkSlot_congr {s t : State} {sid : Byte} (h : s.alive sid.toNat = t.alive sid.toNat) :
    checkSlot s sid = checkSlot t sid := by
  rw [checkSlot, checkSlot, h]

/-! ## The store operations that check the slot -/

/-- The instruction checks the slot, then computes on the slot's storage alone what that storage becomes and what it
returns (R179). -/
def ChecksSlot (i : Instr) (sid : Byte) : Prop :=
  ∃ f : Memory → Except Raise (Memory × Reply), ∀ s : State, exec i s = finish s (checkSlot s sid >>= fun _ =>
    (f (s.cells sid.toNat)).map fun w => (s.setCells sid.toNat w.1, w.2))

/-- A writer that checks the slot. -/
theorem checksSlot_of_writer {i : Instr} {sid : Byte} (f : Memory → Memory) (g : Memory → Reply)
    (h : ∀ s : State, exec i s = finish s ((checkSlot s sid).map fun _ =>
      (s.setCells sid.toNat (f (s.cells sid.toNat)), g (s.cells sid.toNat)))) : ChecksSlot i sid :=
  ⟨fun c => .ok (f c, g c), fun s => by rw [h]; cases checkSlot s sid <;> rfl⟩

/-- A reader that checks the slot. -/
theorem checksSlot_of_reader {i : Instr} {sid : Byte} (read : Memory → Except Raise Reply)
    (h : ∀ s : State, exec i s = answer s (checkSlot s sid >>= fun _ => read (s.cells sid.toNat))) :
    ChecksSlot i sid := by
  refine ⟨fun c => (read c).map (c, ·), fun s => ?_⟩
  rw [h]
  cases checkSlot s sid with
  | error => rfl
  | ok =>
    show answer s (read (s.cells sid.toNat)) = finish s (((read (s.cells sid.toNat)).map _).map _)
    cases read (s.cells sid.toNat) with
    | error => rfl
    | ok r => simp [Except.map, setCells_cells_eq]

theorem checksSlot_apply (sid : Byte) (m : Msg) : ChecksSlot (.apply sid m) sid := by
  obtain ⟨f, g, h⟩ := applyMsg_eq sid m
  exact checksSlot_of_writer f g fun s => by rw [← h s]; rfl

theorem checksSlot_writeBytes (sid : Byte) (offset : U16) (data : Bytes) :
    ChecksSlot (.writeBytes sid offset data) sid :=
  checksSlot_of_writer (fun c => (writeWalk c offset.toNat data).cells)
    (fun c => writeStat (writeWalk c offset.toNat data).written (writeWalk c offset.toNat data).discarded)
    fun _ => rfl

theorem checksSlot_getByte (sid : Byte) (offset : U16) : ChecksSlot (.getByte sid offset) sid :=
  checksSlot_of_reader (fun c => do
    checkOffset offset
    let t ← storageOf offset.toNat
    let v ← decodeK 1 (memRead c t 1)
    return reply (.byteValue (BitVec.ofNat 8 v))) fun _ => rfl

theorem checksSlot_getShort (sid : Byte) (offset : U16) : ChecksSlot (.getShort sid offset) sid :=
  checksSlot_of_reader (fun c => do
    checkOffset offset
    let t0 ← storageOf offset.toNat
    let t1 ← storageOf (offset.toNat + 1)
    let v ← decodeK 2 (memRead c t0 1 ++ memRead c t1 1)
    return reply (.shortValue (BitVec.ofNat 16 v))) fun _ => rfl

theorem checksSlot_getFxChain (sid : Byte) : ChecksSlot (.getFxChain sid) sid :=
  checksSlot_of_reader (fun c => do
    let v ← checkSafe (memRead c fxBase fxLen)
    return reply (.values v)) fun _ => rfl

/-- Every instruction on a slot is `PATCH_NEW` or checks the slot. -/
theorem patchNew_or_checksSlot {i : Instr} {sid : Byte} (h : slotOf i = some sid) :
    (∃ enc, i = .patchNew sid enc) ∨ ChecksSlot i sid := by
  cases i with
  | patchNew sid' enc => cases h; exact .inl ⟨enc, rfl⟩
  | apply sid' m => cases h; exact .inr (checksSlot_apply sid m)
  | writeBytes sid' offset data => cases h; exact .inr (checksSlot_writeBytes sid offset data)
  | getByte sid' offset => cases h; exact .inr (checksSlot_getByte sid offset)
  | getShort sid' offset => cases h; exact .inr (checksSlot_getShort sid offset)
  | getFxChain sid' => cases h; exact .inr (checksSlot_getFxChain sid)
  | _ => cases h

/-- On a slot that does not exist or is not alive, such an instruction answers `NO_STORE` (R179). -/
theorem ChecksSlot.answers_noStore {i : Instr} {sid : Byte} (hi : ChecksSlot i sid) {s : State}
    (h : Config.nStores ≤ sid.toNat ∨ s.alive sid.toNat = false) :
    Answers i s (errorResponse .noStore (.byte sid)) := by
  obtain ⟨f, hf⟩ := hi
  have hcheck : checkSlot s sid = .error ⟨.noStore, .byte sid⟩ := if_pos h
  rw [Answers, hf, hcheck]
  rfl

/-! ## What an instruction does in two states that agree on its slot -/

/-- The instruction does the same in both states: the same update of slot `sid`, and the same response. -/
def ActsAlike (i : Instr) (sid : Byte) (s t : State) : Prop :=
  ∃ f r, KeepsSameSlot f ∧ exec i s = .next ((s.updateSlot sid.toNat f).respond r) ∧
    exec i t = .next ((t.updateSlot sid.toNat f).respond r)

theorem actsAlike_of_answers {i : Instr} {s t : State} {r : Response} (sid : Byte) (hs : Answers i s r)
    (ht : Answers i t r) : ActsAlike i sid s t :=
  ⟨id, r, fun _ _ h => h, by rw [updateSlot_id]; exact hs, by rw [updateSlot_id]; exact ht⟩

/-- `PATCH_NEW` decides without the state whether it creates the store (R180). -/
theorem patchNew_eq (sid enc : Byte) : ∃ o : Except Raise Reply,
    ∀ s : State, patchNew s sid enc = o.map fun r => (s.createSlot sid.toNat, r) := by
  by_cases hsid : Config.nStores ≤ sid.toNat
  · exact ⟨.error _, fun s => if_pos hsid⟩
  · simp only [patchNew, if_neg hsid]
    by_cases henc : enc ≠ Config.sparseEncodingId
    · exact ⟨.error _, fun s => if_pos henc⟩
    · exact ⟨.ok _, fun s => if_neg henc⟩

theorem patchNew_actsAlike (sid enc : Byte) (s t : State) : ActsAlike (.patchNew sid enc) sid s t := by
  obtain ⟨o, ho⟩ := patchNew_eq sid enc
  have hexec (u : State) : exec (.patchNew sid enc) u =
      finish u (o.map fun r => (u.createSlot sid.toNat, r)) := congrArg (finish u) (ho u)
  cases o with
  | error e => exact actsAlike_of_answers sid (hexec s) (hexec t)
  | ok r => exact ⟨_, _, keepsSameSlot_const _, hexec s, hexec t⟩

/-- An instruction that checks the slot looks at its status bit, and at its storage only where that is set. -/
theorem ChecksSlot.actsAlike {i : Instr} {sid : Byte} (hi : ChecksSlot i sid) {s t : State}
    (h : s.agreeAt t sid.toNat) : ActsAlike i sid s t := by
  obtain ⟨halive, hcells⟩ := h
  rcases checkSlot_cases s sid with ⟨hdead, _⟩ | ⟨_, hlive, hs⟩
  · exact actsAlike_of_answers sid (hi.answers_noStore hdead) (hi.answers_noStore (halive ▸ hdead))
  · obtain ⟨f, hf⟩ := hi
    have ht : checkSlot t sid = .ok () := checkSlot_congr halive ▸ hs
    have hexec_s := hf s
    have hexec_t := hf t
    rw [hs] at hexec_s
    rw [ht, ← hcells hlive] at hexec_t
    cases hw : f (s.cells sid.toNat) with
    | error e =>
      rw [hw] at hexec_s hexec_t
      exact actsAlike_of_answers sid hexec_s hexec_t
    | ok w =>
      rw [hw] at hexec_s hexec_t
      exact ⟨_, _, keepsSameSlot_setCells w.1, hexec_s, hexec_t⟩

/-- An operation on a slot does the same in states that agree on the slot (R23). -/
theorem actsAlike_of_agreeAt {i : Instr} {sid : Byte} (hslot : slotOf i = some sid) {s t : State}
    (h : s.agreeAt t sid.toNat) : ActsAlike i sid s t := by
  rcases patchNew_or_checksSlot hslot with ⟨enc, rfl⟩ | hi
  · exact patchNew_actsAlike sid enc s t
  · exact hi.actsAlike h

/-- From states the host cannot tell apart, an instruction leads to states it cannot tell apart (R250). -/
theorem State.sameVisible.exec {s t : State} (h : s.sameVisible t) (i : Instr) :
    ∃ s' t', Machine.exec i s = .next s' ∧ Machine.exec i t = .next t' ∧ s'.sameVisible t' := by
  cases hslot : slotOf i with
  | none =>
    obtain ⟨o, ho⟩ := exec_of_slotOf_none hslot
    exact ⟨_, _, answers_of_exec_eq (ho s), answers_of_exec_eq (ho t), h.respond _⟩
  | some sid =>
    obtain ⟨f, r, hf, hs, ht⟩ := actsAlike_of_agreeAt hslot (h.agreeAt sid.toNat)
    exact ⟨_, _, hs, ht, (h.updateSlot hf sid.toNat).respond r⟩

/-- From states the host cannot tell apart, a step leads to states it cannot tell apart (R250). -/
theorem State.sameVisible.step {s t : State} (h : s.sameVisible t) :
    ∃ s' t', Machine.step s = .next s' ∧ Machine.step t = .next t' ∧ s'.sameVisible t' := by
  obtain ⟨hslots, hrequests, hresponses⟩ := h
  rcases step_cases s with ⟨hreq, hs⟩ | ⟨r, rest, hreq, hr⟩
  · have ht : Machine.step t = .next t := by simp [Machine.step, fetchRequest, ← hrequests, hreq]
    exact ⟨s, t, hs, ht, hslots, hrequests, hresponses⟩
  · have htaken : State.sameVisible { s with requests := rest } { t with requests := rest } :=
      ⟨hslots, rfl, hresponses⟩
    have hreq' : t.requests = r :: rest := hrequests ▸ hreq
    rcases hr with ⟨e, hdec, hs⟩ | ⟨i, hdec, hs⟩
    · exact ⟨_, _, hs, step_of_decode_error hreq' hdec, htaken.respond _⟩
    · rw [hs, step_of_decode_ok hreq' hdec]
      exact htaken.exec i

/-! ## The obligations -/

/-- Settles O54, by induction on the number of steps. -/
theorem deadStorageIsUnobservable : Obligations.DeadStorageIsUnobservable := by
  intro k
  induction k with
  | zero => exact fun s t h => ⟨s, t, rfl, rfl, h⟩
  | succ k ih =>
    intro s t h
    obtain ⟨s₁, t₁, hs, ht, h₁⟩ := h.step
    rw [run_core_succ hs, run_core_succ ht]
    exact ih s₁ t₁ h₁

/-- Settles O40: both states get one update, which touches the one slot. -/
theorem slotsAreIndependent : Obligations.SlotsAreIndependent := by
  intro i sid hslot s t h
  obtain ⟨f, r, _, hs, ht⟩ := actsAlike_of_agreeAt hslot (agreeAt_of_slot_eq h)
  have hself : (s.updateSlot sid.toNat f).slots[sid.toNat]? = (t.updateSlot sid.toNat f).slots[sid.toNat]? := by
    rw [updateSlot_slot_self, updateSlot_slot_self, h]
  exact ⟨_, _, r, hs, ht, rfl, rfl, hself, fun _ hj => updateSlot_slot_other s f hj, rfl⟩

/-- Settles O32: each of the five checks the slot. -/
theorem storeOperationsCheckTheSlotFirst : Obligations.StoreOperationsCheckTheSlotFirst := by
  intro s sid m offset data i h hi
  have hchecks : ChecksSlot i sid := by
    simp only [List.mem_cons, List.not_mem_nil, or_false] at hi
    rcases hi with rfl | rfl | rfl | rfl | rfl
    · exact checksSlot_apply sid m
    · exact checksSlot_writeBytes sid offset data
    · exact checksSlot_getByte sid offset
    · exact checksSlot_getShort sid offset
    · exact checksSlot_getFxChain sid
  exact hchecks.answers_noStore h

end Sys2Proof.Machine
end

section
/-! Proofs for 10_state.md (R22, R26): what each write of the state does to the status bits, and which responses carry
the advisory flag. -/

namespace Sys2Proof.Machine

/-! ## The status bits -/

theorem createSlot_alive_other (s : State) {sid j : Nat} (h : j ≠ sid) : (s.createSlot sid).alive j = s.alive j :=
  alive_congr (createSlot_slot_other s h)

/-- Creating a store clears no status bit. -/
theorem createSlot_alive_of_alive {s : State} {sid j : Nat} (h : s.alive j = true) :
    (s.createSlot sid).alive j = true := by
  by_cases hj : j = sid
  · subst hj
    obtain ⟨m, hm, _⟩ := slot_of_alive h
    simp [State.alive, createSlot_slot_self, hm]
  · rwa [createSlot_alive_other s hj]

@[simp] theorem applyMsg_alive (s : State) (sid : Byte) (m : Msg) (j : Nat) :
    (applyMsg s sid m).1.alive j = s.alive j := by
  obtain ⟨f, g, h⟩ := applyMsg_eq sid m
  rw [h, setCells_alive]

/-- An instruction leaves every status bit, or creates a store as `PATCH_NEW` does (R22). -/
theorem exec_alive_cases {i : Instr} {s t : State} (hexec : exec i s = .next t) :
    (∀ j, t.alive j = s.alive j) ∨
    (∃ sid enc, i = .patchNew sid enc ∧ ∀ j, t.alive j = (s.createSlot sid.toNat).alive j) := by
  rcases exec_cases i s with ⟨r, e⟩ | ⟨sid, enc, hi, _, _, e⟩ | ⟨sid, m, _, _, _, e⟩ |
    ⟨sid, offset, data, _, _, _, e⟩ <;> cases hexec.symm.trans e
  · exact .inl fun _ => rfl
  · exact .inr ⟨sid, enc, hi, fun _ => rfl⟩
  · exact .inl fun j => applyMsg_alive s sid m j
  · exact .inl fun j => setCells_alive s sid.toNat j _

/-! ## The advisory flag -/

/-- A response with the flag set is of an operation that completed. -/
theorem status_of_responseOf_warn {o : Except Raise Reply} (h : (responseOf o).warn = true) :
    (responseOf o).status = .ok := by
  cases o with
  | ok _ => rfl
  | error _ => cases h

/-- The instruction gives one response, with the flag clear, in every state. -/
def NoWarning (i : Instr) : Prop :=
  ∀ s, ∃ t r, exec i s = .next t ∧ t.responses = s.responses ++ [r] ∧ r.warn = false

theorem noWarning_of_answer {i : Instr} {o : State → Except Raise Reply} (h : ∀ s, exec i s = answer s (o s))
    (ho : ∀ s, (responseOf (o s)).warn = false) : NoWarning i :=
  fun s => ⟨_, _, answers_of_exec_eq (h s), rfl, ho s⟩

theorem bind_warn {α : Type} {o : Except Raise α} {f : α → Except Raise Reply}
    (hf : ∀ a, (responseOf (f a)).warn = false) : (responseOf (o >>= f)).warn = false := by
  cases o with
  | ok a => exact hf a
  | error _ => rfl

/-- An operation that names its result of a computed value leaves the flag clear. -/
theorem noWarning_of_map {i : Instr} {α : Type} {o : Except Raise α} {f : α → Result}
    (h : ∀ s, exec i s = answer s (o.map fun a => reply (f a))) : NoWarning i :=
  noWarning_of_answer h fun _ => by cases o <;> rfl

theorem applyMsg_warn (s : State) (sid : Byte) (m : Msg) : (applyMsg s sid m).2.warn = false := by
  cases m with
  | command dev region offset data =>
    rw [applyMsg]
    split <;> rfl
  | _ => rfl

theorem noWarning_patchNew (sid enc : Byte) : NoWarning (.patchNew sid enc) := by
  intro s
  have hexec : exec (.patchNew sid enc) s = finish s (patchNew s sid enc) := rfl
  rcases patchNew_cases s sid enc with ⟨_, h⟩ | ⟨_, _, h⟩ | ⟨_, _, h⟩ <;> rw [hexec, h] <;>
    exact ⟨_, _, rfl, rfl, rfl⟩

theorem noWarning_apply (sid : Byte) (m : Msg) : NoWarning (.apply sid m) := by
  intro s
  rcases exec_apply_cases sid m s with h | ⟨_, _, h⟩
  · exact ⟨_, _, h, rfl, rfl⟩
  · exact ⟨_, _, h, by rw [respond_responses, applyMsg_responses], applyMsg_warn s sid m⟩

theorem noWarning_writeBytes (sid : Byte) (offset : U16) (data : Bytes) : NoWarning (.writeBytes sid offset data) := by
  intro s
  rcases exec_writeBytes_cases sid offset data s with h | ⟨_, _, h⟩
  · exact ⟨_, _, h, rfl, rfl⟩
  · exact ⟨_, _, h, rfl, rfl⟩

/-- The instruction is a parse of a list, or of a frame that carries a checksum (R146). -/
def ParsesChecksum (i : Instr) : Prop :=
  (∃ buf, i = .parse buf) ∨ (∃ dev region offset size cks, i = .frameQuery dev region offset size cks) ∨
    (∃ dev region offset data cks, i = .frameCommand dev region offset data cks)

/-- An instruction leaves the flag clear, or parses and answers what it read (R26). -/
theorem noWarning_or_parsesChecksum (i : Instr) :
    NoWarning i ∨ (ParsesChecksum i ∧ ∃ o, ∀ s, exec i s = answer s o) := by
  cases i with
  | parse buf => exact .inr ⟨.inl ⟨_, rfl⟩, _, fun _ => rfl⟩
  | frameQuery => exact .inr ⟨.inr (.inl ⟨_, _, _, _, _, rfl⟩), _, fun _ => rfl⟩
  | frameCommand => exact .inr ⟨.inr (.inr ⟨_, _, _, _, _, rfl⟩), _, fun _ => rfl⟩
  | patchNew sid enc => exact .inl (noWarning_patchNew sid enc)
  | apply sid m => exact .inl (noWarning_apply sid m)
  | writeBytes sid offset data => exact .inl (noWarning_writeBytes sid offset data)
  | getByte =>
    exact .inl (noWarning_of_answer (fun _ => rfl) fun _ =>
      bind_warn fun _ => bind_warn fun _ => bind_warn fun _ => bind_warn fun _ => rfl)
  | getShort =>
    exact .inl (noWarning_of_answer (fun _ => rfl) fun _ =>
      bind_warn fun _ => bind_warn fun _ => bind_warn fun _ => bind_warn fun _ => bind_warn fun _ => rfl)
  | getFxChain => exact .inl (noWarning_of_answer (fun _ => rfl) fun _ => bind_warn fun _ => bind_warn fun _ => rfl)
  | isMutable | checksum | frameIdReq | frameIdResp => exact .inl (noWarning_of_answer (fun _ => rfl) fun _ => rfl)
  | dec7 | dec14 | dec28 | enc7 | enc14 | enc28 | addrDec | addrEnc => exact .inl (noWarning_of_map fun _ => rfl)
  | serialize | serializeIdRequest | serializeIdResponse | serializeQuery | serializeCommand =>
    exact .inl (noWarning_of_map fun _ => rfl)

/-! ## The obligations -/

/-- Settles O42, by the cases of `exec_alive_cases`. -/
theorem aliveIsSetOnlyByPatchNew : Obligations.AliveIsSetOnlyByPatchNew := by
  intro i s t hexec j
  rcases exec_alive_cases hexec with hkeep | ⟨sid, enc, hi, hcreate⟩
  · rw [hkeep]
    exact ⟨id, fun hdead hlive => absurd (hdead.symm.trans hlive) Bool.false_ne_true⟩
  · rw [hcreate]
    refine ⟨createSlot_alive_of_alive, fun hdead hlive => ⟨sid, enc, hi, ?_⟩⟩
    by_contra hne
    rw [createSlot_alive_other s (Ne.symm hne), hdead] at hlive
    cases hlive

/-- Settles O43: every other instruction leaves the flag clear, and a parse that sets it completed. -/
theorem onlyParseSetsTheWarning : Obligations.OnlyParseSetsTheWarning := by
  intro i s t r hexec hresp hwarn
  rcases noWarning_or_parsesChecksum i with hi | ⟨hi, o, ho⟩
  · obtain ⟨t', r', hexec', hresp', hclear⟩ := hi s
    cases hexec.symm.trans hexec'
    have hr : r = r' := by simpa [hresp] using hresp'
    rw [hr, hclear] at hwarn
    cases hwarn
  · have hanswer : Answers i s (responseOf o) := answers_of_exec_eq (ho s)
    cases hexec.symm.trans hanswer
    have hr : responseOf o = r := by simpa using hresp
    subst hr
    exact ⟨status_of_responseOf_warn hwarn, hi⟩

end Sys2Proof.Machine
end

section
/-! Proofs for 20_memory.md (R41, R42): the scan maps an address by the row that holds it, because the rows lie in order
and apart (10_state.md R28); and from it the table of the map and its inverse. -/

namespace Sys2Proof.Machine

/-! ## The scan over rows in order -/

/-- In rows that lie in order, the scan maps an address exactly by the row that holds it. -/
theorem translateIn_eq_mapped_iff {rows : List Boundary} {a t : Nat}
    (hnonempty : ∀ row ∈ rows, row.beginAt < row.endAt)
    (hsorted : rows.Pairwise fun row next => row.endAt < next.beginAt) :
    translateIn rows a = .mapped t ↔ ∃ row ∈ rows, row.beginAt ≤ a ∧ a < row.endAt ∧ t = a - row.shift := by
  induction rows with
  | nil => simp
  | cons first rows ih =>
    obtain ⟨hafter, hsorted⟩ := List.pairwise_cons.1 hsorted
    obtain ⟨hfirst, hnonempty⟩ := List.forall_mem_cons.1 hnonempty
    rw [List.exists_mem_cons_iff]
    by_cases hpast : first.endAt ≤ a
    · rw [translateIn_skip hpast, ih hnonempty hsorted]
      exact ⟨.inr, fun h => h.resolve_left fun ⟨_, hlt, _⟩ => by omega⟩
    · have hrest : ¬ ∃ row ∈ rows, row.beginAt ≤ a ∧ a < row.endAt ∧ t = a - row.shift :=
        fun ⟨row, hrow, hle, _⟩ => by have := hafter row hrow; omega
      by_cases hbefore : a < first.beginAt
      · rw [translateIn_gap (by omega) hbefore]
        refine ⟨nofun, fun h => ?_⟩
        obtain ⟨hle, _⟩ := h.resolve_right hrest
        exact absurd hbefore hle.not_gt
      · rw [translateIn_hit (by omega) (by omega), Translation.mapped.injEq, or_iff_left hrest]
        exact ⟨fun h => ⟨by omega, by omega, h.symm⟩, fun ⟨_, _, h⟩ => h.symm⟩

/-- R42 (a). -/
theorem translateAddr_eq_mapped_iff {a t : Nat} :
    translateAddr a = .mapped t ↔
      ∃ row ∈ boundaryTable, row.beginAt ≤ a ∧ a < row.endAt ∧ t = a - row.shift := by
  obtain ⟨hsorted, _, hnonempty, _⟩ := boundaryTableInvariants
  exact translateIn_eq_mapped_iff hnonempty hsorted

theorem translateAddr_of_mem {row : Boundary} {a : Nat} (hrow : row ∈ boundaryTable) (hle : row.beginAt ≤ a)
    (hlt : a < row.endAt) : translateAddr a = .mapped (a - row.shift) :=
  translateAddr_eq_mapped_iff.2 ⟨row, hrow, hle, hlt, rfl⟩

/-- An address in one of the gaps of R28 (e), or past the last row, is discarded. -/
theorem translateAddr_of_gap {a : Nat}
    (hgap : (107 ≤ a ∧ a < 192) ∨ (1059 ≤ a ∧ a < 2064) ∨ (2107 ≤ a ∧ a < 2304) ∨ 2326 < a) :
    translateAddr a = .discarded := by
  obtain ⟨_, _, _, _, hgaps⟩ := boundaryTableInvariants
  cases h : translateAddr a with
  | discarded => rfl
  | mapped t =>
    obtain ⟨row, hrow, hle, hlt, _⟩ := translateAddr_eq_mapped_iff.1 h
    exact absurd ⟨hle, hlt⟩ ((hgaps a).2 hgap row hrow)

/-! ## The inverse -/

/-- R42 (f): on a row's image the inverse adds the row's shift. -/
theorem deviceOf_of_mem {row : Boundary} {t : Nat} (hrow : row ∈ boundaryTable) (hle : row.beginAt - row.shift ≤ t)
    (hlt : t < row.endAt - row.shift) : deviceOf t = t + row.shift := by
  simp only [boundaryTable, List.mem_cons, List.not_mem_nil, or_false] at hrow
  unfold deviceOf
  rcases hrow with rfl | rfl | rfl | rfl <;> dsimp only at hle hlt ⊢ <;> split_ifs <;> omega

/-- The rows' images cover the storage (R42 (d)). -/
theorem exists_row_of_storage {t : Nat} (ht : t ≤ 1039) :
    ∃ row ∈ boundaryTable, row.beginAt - row.shift ≤ t ∧ t < row.endAt - row.shift := by
  simp only [boundaryTable, List.exists_mem_cons_iff, List.not_mem_nil, false_and, exists_false, or_false]
  omega

theorem translateAddr_deviceOf {t : Nat} (ht : t ≤ 1039) : translateAddr (deviceOf t) = .mapped t := by
  obtain ⟨row, hrow, hle, hlt⟩ := exists_row_of_storage ht
  rw [deviceOf_of_mem hrow hle hlt, translateAddr_of_mem hrow (by omega) (by omega), Nat.add_sub_cancel]

/-! ## The obligations -/

/-- Settles O28: four of the eight cases are the table's rows, the others its gaps. -/
theorem translateMapsTheFourRows : Obligations.TranslateMapsTheFourRows := by
  intro a
  split_ifs
  · exact translateAddr_of_mem (row := ⟨0, 107, 0⟩) (by decide) a.zero_le ‹a < 107›
  · exact translateAddr_of_gap (by omega)
  · exact translateAddr_of_mem (row := ⟨192, 1059, 85⟩) (by decide) (not_lt.1 ‹¬ a < 192›) ‹a < 1059›
  · exact translateAddr_of_gap (by omega)
  · exact translateAddr_of_mem (row := ⟨2064, 2107, 1090⟩) (by decide) (not_lt.1 ‹¬ a < 2064›) ‹a < 2107›
  · exact translateAddr_of_gap (by omega)
  · exact translateAddr_of_mem (row := ⟨2304, 2327, 1287⟩) (by decide) (not_lt.1 ‹¬ a < 2304›) ‹a < 2327›
  · exact translateAddr_of_gap (by omega)

/-- Settles O29: every clause follows from the row that holds the address, and the rows' images cover the storage. -/
theorem translateIsABijectionOntoStorage : Obligations.TranslateIsABijectionOntoStorage := by
  refine ⟨fun a t => translateAddr_eq_mapped_iff, fun a t h => ?inside, fun a b t => translateAddr_injective,
    fun t ht => ⟨deviceOf t, translateAddr_deviceOf ht⟩, fun a t row hrow hle hlt h => ?successor,
    fun t => translateAddr_deviceOf, fun t row => deviceOf_of_mem⟩
  case inside =>
    obtain ⟨row, hrow, hle, hlt, rfl⟩ := translateAddr_eq_mapped_iff.1 h
    have himage : row.shift ≤ row.beginAt ∧ row.beginAt < row.endAt ∧ row.endAt - row.shift ≤ 1040 :=
      boundary_inside row hrow
    omega
  case successor =>
    obtain ⟨hshift, _⟩ := boundary_inside row hrow
    cases h.symm.trans (translateAddr_of_mem hrow hle (by omega))
    rw [translateAddr_of_mem hrow (by omega) hlt, Nat.sub_add_comm (hshift.trans hle)]

end Sys2Proof.Machine
end

section
/-! Proofs for 30_encoding.md (R60 to R65): the decoder inverts the encoder, it accepts exactly the request records that
fit, and it reads each message record as R65 says. -/

namespace Sys2Proof.Machine

/-! ## What the decoder accepts -/

theorem listFits_iff {n : Nat} : listFits n = true ↔ n ≤ Config.maxListLen := by
  rw [listFits, decide_eq_true_eq]

/-- A message decoded from a record fits the port, and its record has the fields of its kind (R65). -/
theorem decodeMsg_eq_ok {r : MsgRecord} {m : Msg} (h : decodeMsg r = .ok m) :
    fieldsFit r.kind r.fields ∧ m.wellFormed = true := by
  unfold decodeMsg at h
  split_ifs at h with hkind hkind hkind hkind <;> split at h <;> try cases h
  next hfields => exact ⟨.inl ⟨hkind, hfields⟩, rfl⟩
  next present fw hfields =>
    obtain ⟨hfits, rfl⟩ := limited_eq_ok h
    exact ⟨.inr (.inl ⟨hkind, present, fw, hfields, listFits_iff.1 hfits⟩), by cases present <;> trivial⟩
  next region offset size hfields => exact ⟨.inr (.inr (.inl ⟨hkind, region, offset, size, hfields⟩)), rfl⟩
  next region offset data hfields =>
    obtain ⟨hfits, rfl⟩ := limited_eq_ok h
    exact ⟨.inr (.inr (.inr ⟨hkind, region, offset, data, hfields, listFits_iff.1 hfits⟩)), hfits⟩

/-- A record with the fields of its kind decodes (R65). -/
theorem exists_decodeMsg_of_fieldsFit {r : MsgRecord} (h : fieldsFit r.kind r.fields) : ∃ m, decodeMsg r = .ok m := by
  obtain ⟨kind, dev, fields⟩ := r
  rcases h with ⟨hk, hf⟩ | ⟨hk, present, fw, hf, hlen⟩ | ⟨hk, region, offset, size, hf⟩ |
    ⟨hk, region, offset, data, hf, hlen⟩ <;> dsimp only at hk hf <;> subst hk hf
  · exact ⟨_, rfl⟩
  · exact ⟨_, limited_of_fits (listFits_iff.2 hlen) _⟩
  · exact ⟨_, rfl⟩
  · exact ⟨_, limited_of_fits (listFits_iff.2 hlen) _⟩

theorem takeBytes_eq_ok {mk : Bytes → Instr} {operands : List Operand} {i : Instr}
    (h : takeBytes mk operands = .ok i) : ∃ b, operands = [.bytes b] ∧ listFits b.length = true ∧ i = mk b := by
  unfold takeBytes at h
  split at h
  · obtain ⟨hfits, rfl⟩ := limited_eq_ok h
    exact ⟨_, rfl, hfits, rfl⟩
  · cases h

theorem takeSidOffset_eq_ok {mk : Byte → U16 → Instr} {operands : List Operand} {i : Instr}
    (h : takeSidOffset mk operands = .ok i) :
    ∃ sid offset, operands = [.byte sid, .u16 offset] ∧ i = mk sid offset := by
  unfold takeSidOffset at h
  split at h
  · cases h
    exact ⟨_, _, rfl, rfl⟩
  · cases h

theorem map_eq_ok {α β : Type} {o : Except IllegalRequest α} {f : α → β} {b : β} (h : o.map f = .ok b) :
    ∃ a, o = .ok a ∧ f a = b := by
  cases o with
  | ok a => exact ⟨a, rfl, Except.ok.inj h⟩
  | error _ => cases h

/-- An operand record that decodes fits its opcode, and the instruction's lists fit the port (R62, R64). -/
theorem decodeOperands_eq_ok {o : Opcode} {operands : List Operand} {i : Instr}
    (h : decodeOperands o operands = .ok i) : operandsFit o operands ∧ i.wellFormed = true := by
  cases o <;> dsimp only [decodeOperands] at h
  case dec7 | dec14 | dec28 | addrDec | parse =>
    obtain ⟨b, hb, hfits, rfl⟩ := takeBytes_eq_ok h
    exact ⟨⟨b, hb, listFits_iff.1 hfits⟩, hfits⟩
  case getByte | getShort =>
    obtain ⟨sid, offset, ho, rfl⟩ := takeSidOffset_eq_ok h
    exact ⟨⟨sid, offset, ho⟩, rfl⟩
  case serialize =>
    split at h
    · obtain ⟨m, hm, rfl⟩ := map_eq_ok h
      obtain ⟨hfields, hwf⟩ := decodeMsg_eq_ok hm
      exact ⟨⟨_, rfl, hfields⟩, hwf⟩
    · cases h
  case apply =>
    split at h
    · obtain ⟨m, hm, rfl⟩ := map_eq_ok h
      obtain ⟨hfields, hwf⟩ := decodeMsg_eq_ok hm
      exact ⟨⟨_, _, rfl, hfields⟩, hwf⟩
    · cases h
  case checksum =>
    split at h
    · obtain ⟨hfits, rfl⟩ := limited_eq_ok h
      exact ⟨⟨_, rfl, listFits_iff.1 hfits⟩, hfits⟩
    · cases h
  case writeBytes =>
    split at h
    · obtain ⟨hfits, rfl⟩ := limited_eq_ok h
      exact ⟨⟨_, _, _, rfl, listFits_iff.1 hfits⟩, hfits⟩
    · cases h
  case enc7 | enc14 | enc28 | isMutable | getFxChain =>
    split at h
    · cases h
      exact ⟨⟨_, rfl⟩, rfl⟩
    · cases h
  case addrEnc | patchNew =>
    split at h
    · cases h
      exact ⟨⟨_, _, rfl⟩, rfl⟩
    · cases h

/-- An operand record that fits its opcode decodes (R64 checks 2 and 3). -/
theorem exists_decodeOperands_of_operandsFit {o : Opcode} {operands : List Operand} (h : operandsFit o operands) :
    ∃ i, decodeOperands o operands = .ok i := by
  cases o <;> dsimp only [operandsFit, isBytes] at h
  case dec7 | dec14 | dec28 | addrDec | parse | checksum =>
    obtain ⟨_, rfl, hlen⟩ := h
    exact ⟨_, limited_of_fits (listFits_iff.2 hlen) _⟩
  case writeBytes =>
    obtain ⟨_, _, _, rfl, hlen⟩ := h
    exact ⟨_, limited_of_fits (listFits_iff.2 hlen) _⟩
  case serialize =>
    obtain ⟨r, rfl, hfields⟩ := h
    obtain ⟨m, hm⟩ := exists_decodeMsg_of_fieldsFit hfields
    exact ⟨.serialize m, congrArg (Except.map _) hm⟩
  case apply =>
    obtain ⟨sid, r, rfl, hfields⟩ := h
    obtain ⟨m, hm⟩ := exists_decodeMsg_of_fieldsFit hfields
    exact ⟨.apply sid m, congrArg (Except.map _) hm⟩
  case enc7 | enc14 | enc28 | isMutable | getFxChain =>
    obtain ⟨_, rfl⟩ := h
    exact ⟨_, rfl⟩
  case addrEnc | patchNew | getByte | getShort =>
    obtain ⟨_, _, rfl⟩ := h
    exact ⟨_, rfl⟩

/-! ## The opcodes (R61) -/

theorem opcodeByte_of_mem_opcodeTable : ∀ row ∈ opcodeTable, opcodeByte row.2 = row.1 := by decide

theorem opcodeOf_eq_some_iff {op : Byte} {o : Opcode} : opcodeOf op = some o ↔ opcodeByte o = op := by
  constructor
  · intro h
    obtain ⟨row, hfind, rfl⟩ := Option.map_eq_some_iff.1 h
    have hop : row.1 = op := by simpa using List.find?_some hfind
    rw [opcodeByte_of_mem_opcodeTable row (List.mem_of_find?_eq_some hfind), hop]
  · rintro rfl
    exact opcodeOf_opcodeByte o

/-- The assigned opcodes are those of the opcode map, each the opcode of its operation. -/
theorem exists_opcodeByte_iff {op : Byte} : (∃ o, opcodeByte o = op) ↔ op ∈ opcodeTable.map Prod.fst := by
  constructor
  · rintro ⟨o, rfl⟩
    cases o <;> decide
  · intro h
    obtain ⟨row, hmem, rfl⟩ := List.mem_map.1 h
    exact ⟨row.2, opcodeByte_of_mem_opcodeTable row hmem⟩

theorem decode_req_of_unassigned {op : Byte} (operands : List Operand) (h : ∀ o, opcodeByte o ≠ op) :
    decode (.req op operands) = .error (.unassignedOp op) := by
  have hnone : opcodeOf op = none :=
    Option.eq_none_iff_forall_ne_some.2 fun o ho => h o (opcodeOf_eq_some_iff.1 ho)
  rw [decode, hnone]

/-- A request record decodes as its operation's operand record does (R64). -/
theorem decode_req_eq_ok_iff {op : Byte} {operands : List Operand} {i : Instr} :
    decode (.req op operands) = .ok i ↔ ∃ o, opcodeByte o = op ∧ decodeOperands o operands = .ok i := by
  constructor
  · intro h
    cases ho : opcodeOf op with
    | none =>
      rw [decode, ho] at h
      cases h
    | some o =>
      rw [decode, ho] at h
      exact ⟨o, opcodeOf_eq_some_iff.1 ho, h⟩
  · rintro ⟨o, rfl, h⟩
    rwa [← decode_request] at h

/-! ## The obligations -/

/-- Settles O56, constructor by constructor. -/
theorem decodeOfEncodeIsTheInstruction : Obligations.DecodeOfEncodeIsTheInstruction := by
  intro i
  cases i with
  | dec7 => exact Laws.RoundTrip.dec7 _
  | dec14 => exact Laws.RoundTrip.dec14 _
  | dec28 => exact Laws.RoundTrip.dec28 _
  | enc7 => exact Laws.RoundTrip.enc7 _
  | enc14 => exact Laws.RoundTrip.enc14 _
  | enc28 => exact Laws.RoundTrip.enc28 _
  | addrDec => exact Laws.RoundTrip.addrDec _
  | addrEnc => exact Laws.RoundTrip.addrEnc _ _
  | isMutable => exact Laws.RoundTrip.isMutable _
  | checksum => exact Laws.RoundTrip.checksum _
  | parse => exact Laws.RoundTrip.parse _
  | serialize => exact Laws.RoundTrip.serialize _
  | patchNew => exact Laws.RoundTrip.patchNew _ _
  | apply => exact Laws.RoundTrip.apply _ _
  | writeBytes => exact Laws.RoundTrip.writeBytes _ _ _
  | getByte => exact Laws.RoundTrip.getByte _ _
  | getShort => exact Laws.RoundTrip.getShort _ _
  | getFxChain => exact Laws.RoundTrip.getFxChain _
  | serializeIdRequest => exact Laws.RoundTrip.serializeIdRequest _
  | serializeIdResponse => exact Laws.RoundTrip.serializeIdResponse _ _
  | serializeQuery => exact Laws.RoundTrip.serializeQuery _ _ _ _
  | serializeCommand => exact Laws.RoundTrip.serializeCommand _ _ _ _
  | frameIdReq => exact Laws.RoundTrip.frameIdReq _
  | frameIdResp => exact Laws.RoundTrip.frameIdResp _ _ _ _ _
  | frameQuery => exact Laws.RoundTrip.frameQuery _ _ _ _ _
  | frameCommand => exact Laws.RoundTrip.frameCommand _ _ _ _ _


/-- Settles O48: the operand records that decode are those that fit, opcode by opcode. -/
theorem requestIsLegalIffItFits : Obligations.RequestIsLegalIffItFits := by
  intro op operands
  refine ⟨⟨?_, ?_⟩, ?_, decode_req_of_unassigned operands⟩
  · rintro ⟨i, h⟩
    obtain ⟨o, ho, hdec⟩ := decode_req_eq_ok_iff.1 h
    obtain ⟨hfit, _⟩ := decodeOperands_eq_ok hdec
    exact ⟨o, ho, hfit⟩
  · rintro ⟨o, ho, hfit⟩
    obtain ⟨i, hdec⟩ := exists_decodeOperands_of_operandsFit hfit
    exact ⟨i, decode_req_eq_ok_iff.2 ⟨o, ho, hdec⟩⟩
  · rw [exists_opcodeByte_iff]
    exact (List.mem_map_of_injective BitVec.toNat_injective).symm

/-- Settles O47: the answer of `step_of_decode_error`, for each reason a request is illegal. -/
theorem illegalRequestsAreAnswered : Obligations.IllegalRequestsAreAnswered := by
  rintro s r rest e hreq hdec info rfl
  rw [step_of_decode_error hreq hdec]
  cases e <;> rfl

/-- Settles O49, record by record. -/
theorem messageRecordsDecodeToTheirMessages : Obligations.MessageRecordsDecodeToTheirMessages := by
  intro dev region offset size fw data hfw hdata r m row hmem
  suffices decodeMsg r = .ok m ∧ serializeRowOf m = row by
    obtain ⟨hm, rfl⟩ := this
    exact ⟨congrArg (Except.map _) hm, fun sid => congrArg (Except.map _) hm, congrArg (Except.map _) hm⟩
  simp only [List.mem_cons, Prod.mk.injEq, List.not_mem_nil, or_false] at hmem
  rcases hmem with ⟨rfl, rfl, rfl⟩ | ⟨rfl, rfl, rfl⟩ | ⟨rfl, rfl, rfl⟩ | ⟨rfl, rfl, rfl⟩ | ⟨rfl, rfl, rfl⟩
  · exact ⟨rfl, rfl⟩
  · exact ⟨limited_of_fits (listFits_iff.2 hfw) _, rfl⟩
  · exact ⟨limited_of_fits (listFits_iff.2 hfw) _, rfl⟩
  · exact ⟨rfl, rfl⟩
  · exact ⟨limited_of_fits (listFits_iff.2 hdata) _, rfl⟩

/-- Settles O58: each clause by evaluation. -/
theorem specEncodingsDecode : Obligations.SpecEncodingsDecode :=
  ⟨rfl, rfl, rfl, rfl, rfl, rfl, rfl⟩

end Sys2Proof.Machine
end

section
/-! Proofs for 30_encoding.md (R66 to R74): a list is in the format of a frame row exactly when it is the row's bytes,
and then `PARSE` reads the row's fields from it. -/

namespace Sys2Proof.Machine

/-! ## Wire bytes and their fields (R69) -/

theorem field14_toNat {hi lo : Byte} (h : Safe [hi, lo]) : (field14 hi lo).toNat = hi.toNat * 128 + lo.toNat := by
  have hhi := h hi (by simp)
  have hlo := h lo (by simp)
  rw [field14, append7_toNat, extract7_toNat, extract7_toNat]
  omega

/-- Four safe bytes are two safe pairs. -/
theorem safe_pairs {w x y z : Byte} (h : Safe [w, x, y, z]) : Safe [w, x] ∧ Safe [y, z] := by
  simp only [Safe, List.forall_mem_cons] at h ⊢
  tauto

theorem field28_toNat {b3 b2 b1 b0 : Byte} (h : Safe [b3, b2, b1, b0]) :
    (field28 b3 b2 b1 b0).toNat = base128 [b3, b2, b1, b0] := by
  obtain ⟨hhi, hlo⟩ := safe_pairs h
  rw [field28, append14_toNat, field14_toNat hhi, field14_toNat hlo, base128_four]
  omega

/-- A safe byte of a field is the number of its seven bits. -/
theorem safeByte_extract_eq {w : Nat} (v : BitVec w) (start : Nat) :
    safeByte (v.extractLsb' start 7) = BitVec.ofNat 8 (v.toNat / 2 ^ start % 128) := by
  apply BitVec.eq_of_toNat_eq
  rw [safeByte, BitVec.toNat_setWidth, extract7_toNat, BitVec.toNat_ofNat]

/-- The two bytes of a 14-bit field are those of its value in base 128 (R69, R104). -/
theorem msb_lsb_eq_wire14 (v : U14) : [msbByte v, lsbByte v] = wire14 v.toNat := by
  have hv : v.toNat / 128 % 128 = v.toNat / 128 := by have := v.isLt; omega
  simp [msbByte, lsbByte, safeByte_extract_eq, wire14, hv]

/-- The address bytes of a frame are those of its region and offset in base 128 (R69, R121). -/
theorem addressBytes_eq_wire14 (region offset : U14) :
    addressBytes region offset = wire14 region.toNat ++ wire14 offset.toNat := by
  rw [← msb_lsb_eq_wire14, ← msb_lsb_eq_wire14]
  rfl

/-- The size bytes of a frame are those of its size in base 128 (R69, R105). -/
theorem sizeBytes_eq_wire28 (size : U28) : sizeBytes size = wire28 size.toNat := by
  have hv : size.toNat / 2097152 % 128 = size.toNat / 2097152 := by have := size.isLt; omega
  simp [sizeBytes, safeByte_extract_eq, wire28, hv]

theorem safe_addressBytes (region offset : U14) : Safe (addressBytes region offset) := by
  rw [addressBytes_eq_wire14]
  have hr := wire14_safe (v := region.toNat) (by have := region.isLt; omega)
  have ho := wire14_safe (v := offset.toNat) (by have := offset.isLt; omega)
  exact fun x hx => (List.mem_append.1 hx).elim (hr x) (ho x)

theorem addressBytes_field14 {r1 r0 o1 o0 : Byte} (h : Safe [r1, r0, o1, o0]) :
    addressBytes (field14 r1 r0) (field14 o1 o0) = [r1, r0, o1, o0] := by
  obtain ⟨hr, ho⟩ := safe_pairs h
  rw [addressBytes_eq_wire14, field14_toNat hr, field14_toNat ho, ← base128_two, ← base128_two, wire14_base128 hr,
    wire14_base128 ho]
  rfl

theorem sizeBytes_field28 {s3 s2 s1 s0 : Byte} (h : Safe [s3, s2, s1, s0]) :
    sizeBytes (field28 s3 s2 s1 s0) = [s3, s2, s1, s0] := by
  rw [sizeBytes_eq_wire28, field28_toNat h, wire28_base128 h]

/-! ## The bytes of a row -/

/-- A safe Query frame of the vendor path is the bytes of a Query row. -/
theorem vendorFrame_eq_frameQueryBytes (dev : Byte) {r1 r0 o1 o0 s3 s2 s1 s0 : Byte} (cks : Byte)
    (haddr : Safe [r1, r0, o1, o0]) (hsize : Safe [s3, s2, s1, s0]) :
    vendorFrame dev 0x00 0x00 0x00 0x33 0x11 r1 r0 o1 o0 [s3, s2, s1, s0] cks =
      frameQueryBytes dev (field14 r1 r0) (field14 o1 o0) (field28 s3 s2 s1 s0) cks := by
  rw [frameQueryBytes, addressBytes_field14 haddr, sizeBytes_field28 hsize]
  rfl

/-- A safe Command frame of the vendor path is the bytes of a Command row. -/
theorem vendorFrame_eq_frameCommandBytes (dev : Byte) {r1 r0 o1 o0 : Byte} (data : Bytes) (cks : Byte)
    (haddr : Safe [r1, r0, o1, o0]) :
    vendorFrame dev 0x00 0x00 0x00 0x33 0x12 r1 r0 o1 o0 data cks =
      frameCommandBytes dev (field14 r1 r0) (field14 o1 o0) data cks := by
  rw [frameCommandBytes, addressBytes_field14 haddr]
  rfl

/-- A list in the format of a frame row is the bytes of the row (R67 to R70). -/
theorem bytes_of_frameRowOf {frame : Bytes} {i : Instr} (h : frameRowOf frame = some i) :
    (∃ dev, frame = frameIdReqBytes dev ∧ i = .frameIdReq dev) ∨
    (∃ dev f0 f1 f2 f3, frame = frameIdRespBytes dev f0 f1 f2 f3 ∧ i = .frameIdResp dev f0 f1 f2 f3) ∨
    (∃ dev region offset size cks,
      frame = frameQueryBytes dev region offset size cks ∧ i = .frameQuery dev region offset size cks) ∨
    (∃ dev region offset data cks,
      frame = frameCommandBytes dev region offset data cks ∧ i = .frameCommand dev region offset data cks) := by
  rcases frameRowOf_cases h with hreq | hresp |
    ⟨dev, r1, r0, o1, o0, s3, s2, s1, s0, cks, hframe, haddr, hsize, hi⟩ |
    ⟨dev, r1, r0, o1, o0, data, cks, hframe, haddr, hi⟩
  · exact .inl hreq
  · exact .inr (.inl hresp)
  · rw [vendorFrame_eq_frameQueryBytes dev cks haddr hsize] at hframe
    exact .inr (.inr (.inl ⟨_, _, _, _, _, hframe, hi⟩))
  · rw [vendorFrame_eq_frameCommandBytes dev data cks haddr] at hframe
    exact .inr (.inr (.inr ⟨_, _, _, _, _, hframe, hi⟩))

/-- Every frame that `PARSE` accepts is the bytes of a row (R140 to R146). -/
theorem exists_frameRowOf_of_parseFrame {frame : Bytes} {p : Parsed} (h : parseFrame frame = .ok p) :
    ∃ i, frameRowOf frame = some i := by
  rcases parseFrame_ok_cases h with ⟨dev, rfl, -⟩ | ⟨dev, a, b, c, d, rfl, -⟩ |
    ⟨dev, r1, r0, o1, o0, s3, s2, s1, s0, cks, rfl, haddr, hsize, -⟩ |
    ⟨dev, r1, r0, o1, o0, data, cks, rfl, haddr, -⟩
  · exact ⟨_, frameRowOf_frameIdReq dev⟩
  · exact ⟨_, frameRowOf_frameIdResp dev a b c d⟩
  · rw [vendorFrame_eq_frameQueryBytes dev cks haddr hsize]
    exact ⟨_, frameRowOf_frameQuery _ _ _ _ _⟩
  · rw [vendorFrame_eq_frameCommandBytes dev data cks haddr]
    exact ⟨_, frameRowOf_frameCommand _ _ _ _ _⟩

/-! ## What `PARSE` reads from the bytes of a row -/

/-- The address bytes of a frame decode to its region and offset (R69, R120). -/
theorem addrDec_addressBytes (region offset : U14) :
    addrDec (addressBytes region offset) = .ok (region.setWidth 16, offset.setWidth 16) := by
  have hsafe := safe_addressBytes region offset
  have hvalue : ∀ v : U14, (msbByte v).toNat * 128 + (lsbByte v).toNat = v.toNat := fun v => by
    rw [← base128_two, msb_lsb_eq_wire14, base128_wire14 (by have := v.isLt; omega)]
  rw [addressBytes] at hsafe ⊢
  rw [addrDec_of_safe hsafe, hvalue, hvalue]
  simp

/-- The size bytes of a frame decode to its size (R69, R102). -/
theorem parseQuery_sizeBytes (dev : Byte) (region offset : U16) (size : U28) :
    parseQuery dev region offset (sizeBytes size) = .ok (.query dev region offset (size.setWidth 32)) := by
  have hle : size.toNat ≤ 268435455 := by have := size.isLt; omega
  rw [parseQuery, sizeBytes_eq_wire28, decodeK_of_safe (k := 4) rfl (wire28_safe hle), base128_wire28 hle]
  simp [bind, Except.bind, pure, Except.pure]

theorem parseFrame_frameQueryBytes (dev : Byte) (region offset : U14) (size : U28) (cks : Byte) :
    parseFrame (frameQueryBytes dev region offset size cks) =
      .ok (checkAndReturn (.query dev (region.setWidth 16) (offset.setWidth 16) (size.setWidth 32))
        (addressBytes region offset) (sizeBytes size) cks) := by
  have hframe : frameQueryBytes dev region offset size cks =
      vendorFrame dev 0x00 0x00 0x00 0x33 0x11 (msbByte region) (lsbByte region) (msbByte offset) (lsbByte offset)
        (sizeBytes size) cks := rfl
  rw [hframe, parseFrame_vendorFrame, ← addressBytes, addrDec_addressBytes]
  show Except.map _ (parseQuery dev _ _ (sizeBytes size)) = _
  rw [parseQuery_sizeBytes]
  rfl

theorem parseFrame_frameCommandBytes (dev : Byte) (region offset : U14) (data : Bytes) (cks : Byte) :
    parseFrame (frameCommandBytes dev region offset data cks) =
      .ok (checkAndReturn (.command dev (region.setWidth 16) (offset.setWidth 16) data)
        (addressBytes region offset) data cks) := by
  have hframe : frameCommandBytes dev region offset data cks =
      vendorFrame dev 0x00 0x00 0x00 0x33 0x12 (msbByte region) (lsbByte region) (msbByte offset) (lsbByte offset)
        data cks := rfl
  rw [hframe, parseFrame_vendorFrame, ← addressBytes, addrDec_addressBytes]
  rfl

/-- `PARSE` accepts the bytes of a row, and the row answers what `PARSE` reads (R66 to R72). -/
theorem parseFrame_of_frameRowOf {frame : Bytes} {i : Instr} (h : frameRowOf frame = some i) :
    ∃ p, parseFrame frame = .ok p ∧ ∀ s, exec i s = answer s (.ok (parsedReply p)) := by
  rcases bytes_of_frameRowOf h with ⟨dev, rfl, rfl⟩ | ⟨dev, f0, f1, f2, f3, rfl, rfl⟩ |
    ⟨dev, region, offset, size, cks, rfl, rfl⟩ | ⟨dev, region, offset, data, cks, rfl, rfl⟩
  · exact ⟨_, rfl, fun _ => rfl⟩
  · exact ⟨_, rfl, fun _ => rfl⟩
  · exact ⟨_, parseFrame_frameQueryBytes dev region offset size cks, fun _ => rfl⟩
  · exact ⟨_, parseFrame_frameCommandBytes dev region offset data cks, fun _ => rfl⟩

/-! ## Length of a decoded frame (R62) -/

/-- A frame row fits the port exactly as the list of its bytes does. -/
theorem wellFormed_of_frameRowOf {frame : Bytes} {i : Instr} (h : frameRowOf frame = some i) :
    i.wellFormed = listFits frame.length := by
  rcases bytes_of_frameRowOf h with ⟨dev, rfl, rfl⟩ | ⟨dev, f0, f1, f2, f3, rfl, rfl⟩ |
    ⟨dev, region, offset, size, cks, rfl, rfl⟩ | ⟨dev, region, offset, data, cks, rfl, rfl⟩
  · rfl
  · rfl
  · rfl
  · rw [frameCommandBytes_length, Instr.wellFormed]

theorem serializeRowOf_wellFormed (m : Msg) : (serializeRowOf m).wellFormed = m.wellFormed := by
  cases m <;> rfl

/-! ## The obligations -/

/-- Settles O26: the rows' bytes are the frames that `PARSE` accepts, and the rest it answers with an error. -/
theorem frameRowsAgreeWithParse : Obligations.FrameRowsAgreeWithParse := by
  intro s frame
  have hexec : exec (.parse frame) s = answer s ((parseFrame frame).map parsedReply) := rfl
  constructor
  · intro i hrow
    obtain ⟨p, hparse, hi⟩ := parseFrame_of_frameRowOf hrow
    rw [hparse] at hexec
    exact ⟨(hi s).trans hexec.symm, p.warn, p.msg, answers_of_exec_eq hexec⟩
  · intro hnone
    cases hparse : parseFrame frame with
    | ok p =>
      obtain ⟨i, hrow⟩ := exists_frameRowOf_of_parseFrame hparse
      cases hnone.symm.trans hrow
    | error e =>
      rw [hparse] at hexec
      exact ⟨e.status, e.info, parseFrame_error_status hparse, answers_of_exec_eq hexec⟩

/-- Settles O27: the bytes the checksum is over are the base-128 bytes of the row's fields. -/
theorem frameRowsAnswerTheirMessages : Obligations.FrameRowsAnswerTheirMessages := by
  intro s dev f0 f1 f2 f3 cks region offset size data
  have hquery := answers_of_exec_eq (i := .frameQuery dev region offset size cks) (s := s) rfl
  have hcommand := answers_of_exec_eq (i := .frameCommand dev region offset data cks) (s := s) rfl
  rw [addressBytes_eq_wire14, sizeBytes_eq_wire28] at hquery
  rw [addressBytes_eq_wire14] at hcommand
  exact ⟨rfl, rfl, hquery, hcommand⟩

/-- Settles O57: by the inversion of the operand record, of the message record or of the frame. -/
theorem decodedInstructionsAreWellFormed : Obligations.DecodedInstructionsAreWellFormed := by
  intro r i h
  cases r with
  | req op operands =>
    obtain ⟨o, -, hdec⟩ := decode_req_eq_ok_iff.1 h
    obtain ⟨-, hwf⟩ := decodeOperands_eq_ok hdec
    exact hwf
  | reqKind op m =>
    dsimp only [decode] at h
    split at h
    · cases h
    · obtain ⟨msg, hm, rfl⟩ := map_eq_ok h
      obtain ⟨-, hwf⟩ := decodeMsg_eq_ok hm
      rwa [serializeRowOf_wellFormed]
    · cases h
  | sysex frame =>
    obtain ⟨hfits, rfl⟩ := limited_eq_ok h
    cases hrow : frameRowOf frame with
    | none => exact hfits
    | some i => exact (wellFormed_of_frameRowOf hrow).trans hfits

end Sys2Proof.Machine
end

section
/-! Proofs for 30_encoding.md (R60, R63, R64): every response, of an operation or to an illegal request, has the shape
and the range the spec gives it. -/

namespace Sys2Proof.Machine

/-! ## Responses of outcomes -/

theorem wf_ofRaise {e : Raise} (h : e.status ≠ .ok) : (Response.ofRaise e).Wf :=
  ⟨fun _ => ⟨rfl, rfl⟩, fun hok => absurd hok h, nofun, trivial⟩

theorem wf_ofReply {r : Result} (h : r.InRange) : (Response.ofReply (reply r)).Wf :=
  ⟨fun hne => absurd rfl hne, fun _ => rfl, nofun, h⟩

theorem wf_parsedReply {p : Parsed} (h : p.warn = true → Msg.hasChecksum p.msg = true) :
    (Response.ofReply (parsedReply p)).Wf :=
  ⟨fun hne => absurd rfl hne, fun _ => rfl, fun hwarn => ⟨p.msg, rfl, h hwarn⟩, trivial⟩

/-- What fails raises an error status, never `OK` (R220). -/
def RaisesErrors {α : Type} (o : Except Raise α) : Prop := ∀ e, o = .error e → e.status ≠ .ok

theorem raisesErrors_ok {α : Type} (a : α) : RaisesErrors (.ok a : Except Raise α) := nofun

theorem raisesErrors_error {α : Type} {e : Raise} (h : e.status ≠ .ok) : RaisesErrors (.error e : Except Raise α) := by
  rintro _ ⟨⟩
  exact h

theorem wf_bind {α : Type} {o : Except Raise α} {f : α → Except Raise Reply} (ho : RaisesErrors o)
    (hf : ∀ a, o = .ok a → (responseOf (f a)).Wf) : (responseOf (o >>= f)).Wf := by
  cases o with
  | ok a => exact hf a rfl
  | error e => exact wf_ofRaise (ho e rfl)

theorem wf_map {α : Type} {o : Except Raise α} {f : α → Result} (ho : RaisesErrors o)
    (hf : ∀ a, o = .ok a → (f a).InRange) : (responseOf (o.map fun a => reply (f a))).Wf := by
  cases o with
  | ok a => exact wf_ofReply (hf a rfl)
  | error e => exact wf_ofRaise (ho e rfl)

/-! ## What the operations raise and return -/

theorem raisesErrors_decodeK (k : Nat) (b : Bytes) : RaisesErrors (decodeK k b) := fun _ => decodeK_error_status

theorem raisesErrors_serializeMsg (m : Msg) : RaisesErrors (serializeMsg m) := fun _ => serializeMsg_error_status

theorem raisesErrors_checkSlot (s : State) (sid : Byte) : RaisesErrors (checkSlot s sid) := by
  rcases checkSlot_cases s sid with ⟨_, h⟩ | ⟨_, _, h⟩ <;> rw [h]
  · exact raisesErrors_error nofun
  · exact raisesErrors_ok _

theorem raisesErrors_checkOffset (offset : U16) : RaisesErrors (checkOffset offset) := by
  rcases checkOffset_cases offset with ⟨_, h⟩ | ⟨_, h⟩ <;> rw [h]
  · exact raisesErrors_error nofun
  · exact raisesErrors_ok _

theorem raisesErrors_storageOf (a : Nat) : RaisesErrors (storageOf a) := by
  rcases storageOf_cases a with ⟨_, h⟩ | ⟨_, _, h⟩ <;> rw [h]
  · exact raisesErrors_error nofun
  · exact raisesErrors_ok _

theorem raisesErrors_checkSafe (v : Bytes) : RaisesErrors (checkSafe v) := by
  rcases checkSafe_cases v with ⟨_, h⟩ | ⟨_, _, _, _, _, _, h⟩ <;> rw [h]
  · exact raisesErrors_ok _
  · exact raisesErrors_error nofun

theorem checkSafe_eq_ok {v w : Bytes} (h : checkSafe v = .ok w) : Safe v ∧ w = v := by
  rcases checkSafe_cases v with ⟨hsafe, hok⟩ | ⟨_, _, _, _, _, _, herror⟩
  · exact ⟨hsafe, Except.ok.inj (h.symm.trans hok)⟩
  · cases h.symm.trans herror

/-- A decoded value is below `128^k` (R100 to R102). -/
theorem decodeK_lt {k v : Nat} {b : Bytes} (h : decodeK k b = .ok v) : v < 128 ^ k := by
  obtain ⟨rfl, hsafe, rfl⟩ := decodeK_eq_ok h
  exact base128_lt hsafe

theorem addrEnc_length {region offset : U16} {b : Bytes} (h : addrEnc region offset = .ok b) : b.length = 4 := by
  rcases addrEnc_cases region offset with ⟨_, e⟩ | ⟨_, _, e⟩ | ⟨_, _, e⟩ <;> cases h.symm.trans e
  rfl

/-- The flag stands beside a message that carries a checksum (R142, R146). -/
theorem hasChecksum_of_warn {buf : Bytes} {p : Parsed} (h : parseFrame buf = .ok p) (hwarn : p.warn = true) :
    Msg.hasChecksum p.msg = true := by
  obtain ⟨m, warn⟩ := p
  rcases parseFrame_ok_cases h with ⟨_, _, _, rfl⟩ | ⟨_, _, _, _, _, _, _, rfl⟩ |
    ⟨_, _, _, _, _, _, _, _, _, _, _, _, _, rfl, _⟩ | ⟨_, _, _, _, _, _, _, _, _, rfl, _⟩
  · cases hwarn
  · cases hwarn
  · rfl
  · rfl

theorem applyMsg_reply (s : State) (sid : Byte) (m : Msg) :
    ∃ written discarded, (applyMsg s sid m).2 = writeStat written discarded := by
  cases m with
  | command dev region offset data =>
    rw [applyMsg]
    split
    · exact ⟨_, _, rfl⟩
    · exact ⟨_, _, rfl⟩
  | _ => exact ⟨_, _, rfl⟩

/-! ## The response of every instruction -/

/-- The instruction takes no request and gives one well-formed response, in every state (R60, R63). -/
def RespondsWf (i : Instr) : Prop :=
  ∀ s, ∃ t r, exec i s = .next t ∧ t.requests = s.requests ∧ t.responses = s.responses ++ [r] ∧ r.Wf

theorem respondsWf_of_answer {i : Instr} {o : State → Except Raise Reply} (h : ∀ s, exec i s = answer s (o s))
    (ho : ∀ s, (responseOf (o s)).Wf) : RespondsWf i :=
  fun s => ⟨_, _, answers_of_exec_eq (h s), rfl, rfl, ho s⟩

theorem respondsWf_decode {i : Instr} {k : Nat} {b : Bytes} (hk : k ≤ 4)
    (h : ∀ s, exec i s = answer s ((decodeK k b).map valueReply)) : RespondsWf i :=
  respondsWf_of_answer h fun _ => wf_map (raisesErrors_decodeK k b) fun v hv => by
    have hlt : v < 128 ^ 4 := (decodeK_lt hv).trans_le (Nat.pow_le_pow_right (by norm_num) hk)
    simp only [Result.InRange, BitVec.toNat_ofNat]
    omega

theorem respondsWf_encode {i : Instr} {k max v : Nat} (hk : k = 1 ∨ k = 2 ∨ k = 4)
    (h : ∀ s, exec i s = answer s ((encodeK k max v).map bytesReply)) : RespondsWf i :=
  respondsWf_of_answer h fun _ => wf_map (fun _ => encodeK_error_status) fun b hb => by
    obtain ⟨_, rfl⟩ := encodeK_eq_ok hb
    exact hk

theorem respondsWf_serialize {i : Instr} (m : Msg) (h : ∀ s, exec i s = answer s ((serializeMsg m).map frameReply)) :
    RespondsWf i :=
  respondsWf_of_answer h fun _ => wf_map (raisesErrors_serializeMsg m) fun _ _ => trivial

theorem respondsWf_parse (buf : Bytes) : RespondsWf (.parse buf) :=
  respondsWf_of_answer (fun _ => rfl) fun _ => by
    cases h : parseFrame buf with
    | ok p => exact wf_parsedReply (hasChecksum_of_warn h)
    | error e => exact wf_ofRaise (parseFrame_error_status h)

theorem respondsWf_patchNew (sid enc : Byte) : RespondsWf (.patchNew sid enc) := by
  intro s
  have hexec : exec (.patchNew sid enc) s = finish s (patchNew s sid enc) := rfl
  rcases patchNew_cases s sid enc with ⟨_, h⟩ | ⟨_, _, h⟩ | ⟨_, _, h⟩ <;> rw [hexec, h]
  · exact ⟨_, _, rfl, rfl, rfl, wf_ofRaise nofun⟩
  · exact ⟨_, _, rfl, rfl, rfl, wf_ofRaise nofun⟩
  · exact ⟨_, _, rfl, rfl, rfl, wf_ofReply trivial⟩

theorem respondsWf_apply (sid : Byte) (m : Msg) : RespondsWf (.apply sid m) := by
  intro s
  rcases exec_apply_cases sid m s with h | ⟨_, _, h⟩
  · exact ⟨_, _, h, rfl, rfl, wf_ofRaise (e := ⟨.noStore, .byte sid⟩) nofun⟩
  · obtain ⟨written, discarded, hreply⟩ := applyMsg_reply s sid m
    have hwf : (Response.ofReply (writeStat written discarded)).Wf := wf_ofReply trivial
    rw [← hreply] at hwf
    exact ⟨_, _, h, by simp, by simp, hwf⟩

theorem respondsWf_writeBytes (sid : Byte) (offset : U16) (data : Bytes) :
    RespondsWf (.writeBytes sid offset data) := by
  intro s
  rcases exec_writeBytes_cases sid offset data s with h | ⟨_, _, h⟩
  · exact ⟨_, _, h, rfl, rfl, wf_ofRaise (e := ⟨.noStore, .byte sid⟩) nofun⟩
  · exact ⟨_, _, h, rfl, rfl, wf_ofReply trivial⟩

theorem respondsWf_getByte (sid : Byte) (offset : U16) : RespondsWf (.getByte sid offset) :=
  respondsWf_of_answer (o := fun s => getByte s sid offset) (fun _ => rfl) fun s =>
    wf_bind (raisesErrors_checkSlot s sid) fun _ _ => wf_bind (raisesErrors_checkOffset offset) fun _ _ =>
      wf_bind (raisesErrors_storageOf _) fun _ _ => wf_bind (raisesErrors_decodeK 1 _) fun v hv => by
        have hlt := decodeK_lt hv
        refine wf_ofReply (r := .byteValue _) ?_
        simp only [Result.InRange, BitVec.toNat_ofNat]
        omega

theorem respondsWf_getShort (sid : Byte) (offset : U16) : RespondsWf (.getShort sid offset) :=
  respondsWf_of_answer (o := fun s => getShort s sid offset) (fun _ => rfl) fun s =>
    wf_bind (raisesErrors_checkSlot s sid) fun _ _ => wf_bind (raisesErrors_checkOffset offset) fun _ _ =>
      wf_bind (raisesErrors_storageOf _) fun _ _ => wf_bind (raisesErrors_storageOf _) fun _ _ =>
        wf_bind (raisesErrors_decodeK 2 _) fun v hv => by
          have hlt := decodeK_lt hv
          refine wf_ofReply (r := .shortValue _) ?_
          simp only [Result.InRange, BitVec.toNat_ofNat]
          omega

theorem respondsWf_getFxChain (sid : Byte) : RespondsWf (.getFxChain sid) :=
  respondsWf_of_answer (o := fun s => getFxChain s sid) (fun _ => rfl) fun s =>
    wf_bind (raisesErrors_checkSlot s sid) fun _ _ => wf_bind (raisesErrors_checkSafe _) fun v hv => by
      obtain ⟨hsafe, rfl⟩ := checkSafe_eq_ok hv
      exact wf_ofReply (r := .values _) ⟨by simp [memRead, fxLen], hsafe⟩

/-- Every instruction gives one well-formed response. -/
theorem respondsWf (i : Instr) : RespondsWf i := by
  cases i with
  | dec7 => exact respondsWf_decode (k := 1) (by norm_num) fun _ => rfl
  | dec14 => exact respondsWf_decode (k := 2) (by norm_num) fun _ => rfl
  | dec28 => exact respondsWf_decode (k := 4) (by norm_num) fun _ => rfl
  | enc7 => exact respondsWf_encode (k := 1) (by norm_num) fun _ => rfl
  | enc14 => exact respondsWf_encode (k := 2) (by norm_num) fun _ => rfl
  | enc28 => exact respondsWf_encode (k := 4) (by norm_num) fun _ => rfl
  | addrDec =>
    exact respondsWf_of_answer (fun _ => rfl) fun _ => wf_map (fun _ => addrDec_error_status) fun _ _ => trivial
  | addrEnc =>
    exact respondsWf_of_answer (fun _ => rfl) fun _ =>
      wf_map (fun _ => addrEnc_error_status) fun _ h => .inr (.inr (addrEnc_length h))
  | isMutable => exact respondsWf_of_answer (fun _ => rfl) fun _ => wf_ofReply trivial
  | checksum g => exact respondsWf_of_answer (fun _ => rfl) fun _ => wf_ofReply (checksumOf_le g)
  | parse buf => exact respondsWf_parse buf
  | serialize m => exact respondsWf_serialize m fun _ => rfl
  | patchNew sid enc => exact respondsWf_patchNew sid enc
  | apply sid m => exact respondsWf_apply sid m
  | writeBytes sid offset data => exact respondsWf_writeBytes sid offset data
  | getByte sid offset => exact respondsWf_getByte sid offset
  | getShort sid offset => exact respondsWf_getShort sid offset
  | getFxChain sid => exact respondsWf_getFxChain sid
  | serializeIdRequest dev => exact respondsWf_serialize (.idRequest dev) fun _ => rfl
  | serializeIdResponse dev fw => exact respondsWf_serialize (.idResponse dev fw) fun _ => rfl
  | serializeQuery dev region offset size => exact respondsWf_serialize (.query dev region offset size) fun _ => rfl
  | serializeCommand dev region offset data => exact respondsWf_serialize (.command dev region offset data) fun _ => rfl
  | frameIdReq | frameIdResp => exact respondsWf_of_answer (fun _ => rfl) fun _ => wf_ofReply trivial
  | frameQuery | frameCommand => exact respondsWf_of_answer (fun _ => rfl) fun _ => wf_parsedReply fun _ => rfl

/-! ## The obligations -/

/-- Settles O44: the response is that of the decoded instruction, or the error that answers an illegal request. -/
theorem everyResponseIsWellFormed : Obligations.EveryResponseIsWellFormed := by
  intro s r rest hreq
  cases hdec : decode r with
  | ok i =>
    rw [step_of_decode_ok hreq hdec]
    exact respondsWf i _
  | error e => exact ⟨_, _, step_of_decode_error hreq hdec, rfl, rfl, wf_ofRaise (by simp)⟩

end Sys2Proof.Machine
end

section
/-! Proofs for 40_integer_codec.md (R100 to R108): at each width the bytes of a value are safe, stand for it, and are
the only such bytes. The round-trip laws follow from that, and what each codec request answers from the outcomes of
`DecodeK` and `EncodeK`. -/

namespace Sys2Proof.Machine

/-! ## The wire form of a width -/

/-- `wire` gives the bytes of each value at the width of `k` bytes: they are the bytes that `EncodeK` answers, they are
safe and stand for the value, and every `k` safe bytes are those of their value. `max` is the greatest value of `k`
safe bytes (R106, R107). -/
structure WireForm (k max : Nat) (wire : Nat → Bytes) : Prop where
  max_succ : max + 1 = 128 ^ k
  encode : ∀ v ≤ max, encodeK k max v = .ok (wire v)
  safe : ∀ v ≤ max, Safe (wire v)
  value : ∀ v ≤ max, base128 (wire v) = v
  unique : ∀ b : Bytes, b.length = k → Safe b → wire (base128 b) = b

theorem wireForm_one : WireForm 1 127 fun v => [BitVec.ofNat 8 v] where
  max_succ := rfl
  encode _ hv := encodeK_one hv
  safe v hv := by
    have htoNat := toNat_ofNat8 (n := v) (by omega)
    simpa only [Safe, List.forall_mem_singleton, htoNat] using hv
  value v hv := by rw [base128_one, toNat_ofNat8 (by omega)]
  unique
    | [x], _, _ => by rw [base128_one, ofNat8_toNat]

theorem wireForm_two : WireForm 2 16383 wire14 where
  max_succ := rfl
  encode _ hv := encodeK_two hv
  safe _ hv := wire14_safe hv
  value _ hv := base128_wire14 hv
  unique
    | [_, _], _, hb => wire14_base128 hb

theorem wireForm_four : WireForm 4 268435455 wire28 where
  max_succ := rfl
  encode _ hv := encodeK_four hv
  safe _ hv := wire28_safe hv
  value _ hv := base128_wire28 hv
  unique
    | [_, _, _, _], _, hb => wire28_base128 hb

/-- Each of the three widths has its wire form (R100 to R105). -/
theorem exists_wireForm {k max : Nat} (h : (k, max) ∈ [(1, 127), (2, 16383), (4, 268435455)]) :
    ∃ wire, WireForm k max wire := by
  simp only [List.mem_cons, List.not_mem_nil, or_false, Prod.mk.injEq] at h
  rcases h with ⟨rfl, rfl⟩ | ⟨rfl, rfl⟩ | ⟨rfl, rfl⟩
  · exact ⟨_, wireForm_one⟩
  · exact ⟨_, wireForm_two⟩
  · exact ⟨_, wireForm_four⟩

/-! ## The round-trip laws (R107) -/

theorem WireForm.base128_le {k max : Nat} {b : Bytes} {wire : Nat → Bytes} (h : WireForm k max wire)
    (hlen : b.length = k) (hb : Safe b) : base128 b ≤ max := by
  have hlt := base128_lt hb
  rw [hlen, ← h.max_succ] at hlt
  exact Nat.le_of_lt_succ hlt

/-- Law (a). -/
theorem WireForm.exists_encodeK {k max v : Nat} {wire : Nat → Bytes} (h : WireForm k max wire) (hv : v ≤ max) :
    ∃ b, encodeK k max v = .ok b ∧ b.length = k ∧ decodeK k b = .ok v := by
  have henc := h.encode v hv
  obtain ⟨-, hlen⟩ := encodeK_eq_ok henc
  refine ⟨wire v, henc, hlen, ?_⟩
  rw [decodeK_of_safe hlen (h.safe v hv), h.value v hv]

/-- Law (b). -/
theorem WireForm.exists_decodeK {k max : Nat} {b : Bytes} {wire : Nat → Bytes} (h : WireForm k max wire)
    (hlen : b.length = k) (hb : Safe b) : ∃ v, decodeK k b = .ok v ∧ encodeK k max v = .ok b := by
  refine ⟨base128 b, decodeK_of_safe hlen hb, ?_⟩
  rw [h.encode _ (h.base128_le hlen hb), h.unique b hlen hb]

/-- Law (c). -/
theorem exists_decodeK_error {k : Nat} {b : Bytes} (h : b.length ≠ k ∨ ∃ x ∈ b, 128 ≤ x.toNat) :
    ∃ e, decodeK k b = .error e := by
  cases hd : decodeK k b with
  | error e => exact ⟨e, rfl⟩
  | ok v =>
    obtain ⟨hlen, hsafe, -⟩ := decodeK_eq_ok hd
    rcases h with hne | ⟨x, hx, hge⟩
    · exact absurd hlen hne
    · exact absurd (hsafe x hx) (by omega)

/-- Law (d). -/
theorem WireForm.exists_encodeK_error_iff {k max v : Nat} {wire : Nat → Bytes} (h : WireForm k max wire) :
    (∃ e, encodeK k max v = .error e) ↔ max < v := by
  refine ⟨fun ⟨e, he⟩ => Nat.lt_of_not_le fun hv => ?_, fun hv => ⟨_, encodeK_of_gt hv⟩⟩
  cases he.symm.trans (h.encode v hv)

/-! ## What a codec request answers -/

section
variable {i : Instr} {s : State} {k : Nat}

theorem answers_decodeK_of_safe {b : Bytes} (h : exec i s = answer s ((decodeK k b).map valueReply))
    (hlen : b.length = k) (hb : Safe b) : Answers i s (okResponse (.value (BitVec.ofNat 32 (base128 b)))) := by
  rw [answers_iff h, decodeK_of_safe hlen hb]
  rfl

theorem answers_decodeK_of_unsafe {pre post : Bytes} {x : Byte}
    (h : exec i s = answer s ((decodeK k (pre ++ x :: post)).map valueReply))
    (hlen : (pre ++ x :: post).length = k) (hp : Safe pre) (hx : 127 < x.toNat) :
    Answers i s (errorResponse .bounds (.byte x)) := by
  rw [answers_iff h, decodeK_of_unsafe hlen hp hx]
  rfl

theorem answers_decodeK_of_length {b : Bytes} (h : exec i s = answer s ((decodeK k b).map valueReply))
    (hlen : b.length ≠ k) : Answers i s (errorResponse .length (.len k b.length)) := by
  rw [answers_iff h, decodeK_of_length hlen]
  rfl

theorem answers_encodeK_of_ok {max v : Nat} {b : Bytes}
    (h : exec i s = answer s ((encodeK k max v).map bytesReply)) (hb : encodeK k max v = .ok b) :
    Answers i s (okResponse (.bytes b)) := by
  rw [answers_iff h, hb]
  rfl

theorem answers_encodeK_of_gt {max v : Nat} (h : exec i s = answer s ((encodeK k max v).map bytesReply))
    (hv : max < v) : Answers i s (errorResponse .bounds (.value v)) := by
  rw [answers_iff h, encodeK_of_gt hv]
  rfl

end

/-! ## The wire bytes as bit fields (R104, R105) -/

theorem setWidth_extract_eq {w : Nat} (v : BitVec w) (start : Nat) :
    (v.extractLsb' start 7).setWidth 8 = BitVec.ofNat 8 (v.toNat / 2 ^ start % 128) := safeByte_extract_eq v start

/-- The two bytes of a 14-bit value are its bits 13 to 7 and 6 to 0. -/
theorem wire14_eq_fields {v : U16} (hv : v.toNat ≤ 16383) :
    wire14 v.toNat = [(v.extractLsb' 7 7).setWidth 8, (v.extractLsb' 0 7).setWidth 8] := by
  have htop : v.toNat / 128 % 128 = v.toNat / 128 := by omega
  simp [setWidth_extract_eq, wire14, htop]

/-- The four bytes of a 28-bit value are its bits 27 to 21, 20 to 14, 13 to 7 and 6 to 0. -/
theorem wire28_eq_fields {v : U32} (hv : v.toNat ≤ 268435455) :
    wire28 v.toNat = [(v.extractLsb' 21 7).setWidth 8, (v.extractLsb' 14 7).setWidth 8,
      (v.extractLsb' 7 7).setWidth 8, (v.extractLsb' 0 7).setWidth 8] := by
  have htop : v.toNat / 2097152 % 128 = v.toNat / 2097152 := by omega
  simp [setWidth_extract_eq, wire28, htop]

/-! ## The obligations -/

/-- Settles O7, law by law, from the wire form of each width. -/
theorem codecRoundTrips : Obligations.CodecRoundTrips := by
  intro k max hwidth
  obtain ⟨wire, h⟩ := exists_wireForm hwidth
  exact ⟨fun _ => h.exists_encodeK, fun _ => h.exists_decodeK, fun _ => exists_decodeK_error,
    fun _ => h.exists_encodeK_error_iff⟩

/-- Settles O1, by the outcomes of `DecodeK` at one byte. -/
theorem dec7DecodesOneSafeByte : Obligations.Dec7DecodesOneSafeByte := by
  intro s b
  refine ⟨fun hfits => Laws.RoundTrip.dec7 b (listFits_iff.2 hfits), ?_, ?_, answers_decodeK_of_length rfl⟩
  · rintro x rfl hx
    rw [← base128_one]
    exact answers_decodeK_of_safe rfl rfl (by simpa [Safe] using hx)
  · rintro x rfl hx
    exact answers_decodeK_of_unsafe (pre := []) rfl rfl (by simp [Safe]) hx

/-- Settles O2, by the outcomes of `DecodeK` at two bytes. -/
theorem dec14DecodesTwoSafeBytes : Obligations.Dec14DecodesTwoSafeBytes := by
  intro s b
  refine ⟨fun hfits => Laws.RoundTrip.dec14 b (listFits_iff.2 hfits), ?_, ?_, ?_, answers_decodeK_of_length rfl⟩
  · rintro x y rfl hx hy
    rw [← base128_two]
    exact answers_decodeK_of_safe rfl rfl (by simpa [Safe] using ⟨hx, hy⟩)
  · rintro x y rfl hx
    exact answers_decodeK_of_unsafe (pre := []) rfl rfl (by simp [Safe]) hx
  · rintro x y rfl hx hy
    exact answers_decodeK_of_unsafe (pre := [x]) rfl rfl (by simpa [Safe] using hx) hy

/-- Settles O3, by the outcomes of `DecodeK` at four bytes. -/
theorem dec28DecodesFourSafeBytes : Obligations.Dec28DecodesFourSafeBytes := by
  intro s b
  refine ⟨fun hfits => Laws.RoundTrip.dec28 b (listFits_iff.2 hfits), ?_, ?_, answers_decodeK_of_length rfl⟩
  · rintro w x y z rfl hb
    rw [← base128_four]
    exact answers_decodeK_of_safe rfl rfl hb
  · rintro pre x post rfl hlen hp hx
    exact answers_decodeK_of_unsafe rfl hlen hp hx

/-- Settles O4, by the outcomes of `EncodeK` at one byte. -/
theorem enc7EncodesSevenBits : Obligations.Enc7EncodesSevenBits := by
  intro s v
  refine ⟨Laws.RoundTrip.enc7 v rfl, fun hv => ?_, answers_encodeK_of_gt rfl⟩
  have henc := wireForm_one.encode v.toNat hv
  rw [ofNat8_toNat] at henc
  exact answers_encodeK_of_ok rfl henc

/-- Settles O5, by the outcomes of `EncodeK` at two bytes. -/
theorem enc14EncodesFourteenBits : Obligations.Enc14EncodesFourteenBits := by
  intro s v
  refine ⟨Laws.RoundTrip.enc14 v rfl, fun hv => ?_, answers_encodeK_of_gt rfl⟩
  rw [← wire14_eq_fields hv]
  exact answers_encodeK_of_ok rfl (wireForm_two.encode v.toNat hv)

/-- Settles O6, by the outcomes of `EncodeK` at four bytes. -/
theorem enc28EncodesTwentyEightBits : Obligations.Enc28EncodesTwentyEightBits := by
  intro s v
  refine ⟨Laws.RoundTrip.enc28 v rfl, fun hv => ?_, answers_encodeK_of_gt rfl⟩
  rw [← wire28_eq_fields hv]
  exact answers_encodeK_of_ok rfl (wireForm_four.encode v.toNat hv)

end Sys2Proof.Machine
end

section
/-! Proofs for 41_address_checksum.md (R120 to R125): the safe bytes of an address and the address itself determine
each other, and the checksum is the one value below 128 that completes the sum of the bytes to a multiple of 128. -/

namespace Sys2Proof.Machine

/-! ## The checksum laws (R124) -/

/-- The checksum reads nothing but the sum of all bytes (R123). -/
theorem checksumOf_flatten (g : List Bytes) :
    checksumOf g = BitVec.ofNat 8 ((128 - (g.flatten.map BitVec.toNat).sum % 128) % 128) := by
  rw [checksumOf, groupsSum_flatten]

theorem groupsSum_singleton (x : Bytes) : groupsSum [x] = (x.map BitVec.toNat).sum := by simp [groupsSum]

/-- Law (b): the sum does not see the order of the bytes. -/
theorem checksumOf_perm {g h : List Bytes} (hperm : g.flatten.Perm h.flatten) : checksumOf g = checksumOf h := by
  rw [checksumOf_flatten, checksumOf_flatten, (hperm.map BitVec.toNat).sum_eq]

/-- Law (c). -/
theorem groupsSum_add_checksumOf (g : List Bytes) : (groupsSum g + (checksumOf g).toNat) % 128 = 0 := by
  rw [checksumOf_toNat]
  omega

/-- Law (c), uniqueness: two values below 128 that complete the same sum to a multiple of 128 are equal. -/
theorem eq_checksumOf_iff {g : List Bytes} {e : Byte} (he : e.toNat ≤ 127) :
    e = checksumOf g ↔ (groupsSum g + e.toNat) % 128 = 0 := by
  have hle := checksumOf_le g
  have hsum := groupsSum_add_checksumOf g
  constructor
  · rintro rfl
    exact hsum
  · intro h
    exact BitVec.eq_of_toNat_eq (by omega)

/-- Law (d). -/
theorem ne_checksumOf_of_ge {g : List Bytes} {e : Byte} (he : 128 ≤ e.toNat) : e ≠ checksumOf g := by
  rintro rfl
  exact absurd (checksumOf_le g) (by omega)

/-! ## The outcomes of `ADDR_ENC` (R121) -/

section
variable {region offset : U16}

theorem addrEnc_of_le (hr : region.toNat ≤ 16383) (ho : offset.toNat ≤ 16383) :
    addrEnc region offset = .ok (wire14 region.toNat ++ wire14 offset.toNat) := by
  rcases addrEnc_cases region offset with ⟨h, -⟩ | ⟨-, h, -⟩ | ⟨-, -, h⟩
  · omega
  · omega
  · exact h

theorem addrEnc_of_region_gt (hr : 16383 < region.toNat) :
    addrEnc region offset = .error ⟨.bounds, .value region.toNat⟩ := by
  rcases addrEnc_cases region offset with ⟨-, h⟩ | ⟨h, -⟩ | ⟨h, -⟩
  · exact h
  · omega
  · omega

theorem addrEnc_of_offset_gt (hr : region.toNat ≤ 16383) (ho : 16383 < offset.toNat) :
    addrEnc region offset = .error ⟨.bounds, .value offset.toNat⟩ := by
  rcases addrEnc_cases region offset with ⟨h, -⟩ | ⟨-, -, h⟩ | ⟨-, h, -⟩
  · omega
  · exact h
  · omega

end

/-! ## The address laws (R125) -/

/-- `ADDR_DEC` reads an address from its wire bytes. -/
theorem addrDec_wire14 {r o : Nat} (hr : r ≤ 16383) (ho : o ≤ 16383) :
    addrDec (wire14 r ++ wire14 o) = .ok (BitVec.ofNat 16 r, BitVec.ofNat 16 o) := by
  have hsafe : Safe (wire14 r ++ wire14 o) := List.forall_mem_append.2 ⟨wire14_safe hr, wire14_safe ho⟩
  have hvr := base128_wire14 hr
  have hvo := base128_wire14 ho
  rw [wire14, base128_two] at hvr hvo
  refine (addrDec_of_safe hsafe).trans ?_
  rw [hvr, hvo]

/-- Two safe bytes stand for a 14-bit value. -/
theorem base128_two_le {x y : Byte} (h : Safe [x, y]) : base128 [x, y] ≤ 16383 := wireForm_two.base128_le rfl h

/-- A 16-bit container holds the value of two safe bytes. -/
theorem toNat_ofNat_base128 {x y : Byte} (h : Safe [x, y]) :
    (BitVec.ofNat 16 (base128 [x, y])).toNat = base128 [x, y] := by
  have hle := base128_two_le h
  rw [BitVec.toNat_ofNat, Nat.mod_eq_of_lt (by omega)]

/-- `ADDR_ENC` writes back the safe bytes whose values it is given. -/
theorem addrEnc_base128 {r1 r0 o1 o0 : Byte} (h : Safe [r1, r0, o1, o0]) :
    addrEnc (BitVec.ofNat 16 (base128 [r1, r0])) (BitVec.ofNat 16 (base128 [o1, o0])) = .ok [r1, r0, o1, o0] := by
  obtain ⟨hr, ho⟩ := safe_pairs h
  have hrnat := toNat_ofNat_base128 hr
  have honat := toNat_ofNat_base128 ho
  rw [addrEnc_of_le (hrnat.trans_le (base128_two_le hr)) (honat.trans_le (base128_two_le ho)), hrnat, honat,
    wire14_base128 hr, wire14_base128 ho]
  rfl

/-- Decoding an encoded address gives it back. -/
theorem exists_addrEnc {region offset : U16} (hr : region.toNat ≤ 16383) (ho : offset.toNat ≤ 16383) :
    ∃ b, addrEnc region offset = .ok b ∧ addrDec b = .ok (region, offset) := by
  refine ⟨_, addrEnc_of_le hr ho, ?_⟩
  rw [addrDec_wire14 hr ho, BitVec.ofNat_toNat, BitVec.ofNat_toNat, BitVec.setWidth_eq, BitVec.setWidth_eq]

/-- Encoding a decoded address gives its four bytes back. -/
theorem exists_addrDec {b : Bytes} (hlen : b.length = 4) (hb : Safe b) :
    ∃ a, addrDec b = .ok a ∧ addrEnc a.1 a.2 = .ok b := by
  match b, hlen with
  | [r1, r0, o1, o0], _ =>
    refine ⟨_, addrDec_of_safe hb, ?_⟩
    rw [← base128_two, ← base128_two]
    exact addrEnc_base128 hb

/-! ## What an address request answers -/

section
variable {s : State} {e : Raise}

theorem answers_addrDec_of_ok {b : Bytes} {a : U16 × U16} (h : addrDec b = .ok a) :
    Answers (.addrDec b) s (okResponse (.address a.1 a.2)) := by
  rw [answers_iff rfl, h]
  rfl

theorem answers_addrDec_of_error {b : Bytes} (h : addrDec b = .error e) :
    Answers (.addrDec b) s (errorResponse e.status e.info) := by
  rw [answers_iff rfl, h]
  rfl

theorem answers_addrEnc_of_ok {region offset : U16} {b : Bytes} (h : addrEnc region offset = .ok b) :
    Answers (.addrEnc region offset) s (okResponse (.bytes b)) := by
  rw [answers_iff rfl, h]
  rfl

theorem answers_addrEnc_of_error {region offset : U16} (h : addrEnc region offset = .error e) :
    Answers (.addrEnc region offset) s (errorResponse e.status e.info) := by
  rw [answers_iff rfl, h]
  rfl

end

/-- The regions of `MUT`, one by one (R29). -/
theorem isMutable_eq_decide (region : U16) :
    isMutable region = decide (region.toNat = 2049 ∨ region.toNat = 2050 ∨ region.toNat = 2051 ∨
      region.toNat = 2052 ∨ region.toNat = 12288) := by
  rw [isMutable, List.contains_eq_mem, decide_eq_decide]
  simp only [mutableRegions, List.mem_cons, List.not_mem_nil, or_false]

/-! ## The obligations -/

/-- Settles O12, law by law, from the value of the checksum. -/
theorem checksumLaws : Obligations.ChecksumLaws := by
  refine ⟨checksumOf_le, fun _ _ => checksumOf_perm, fun x => ?_, fun x e he => ?_, fun _ _ => ne_checksumOf_of_ge⟩
  · rw [← groupsSum_singleton]
    exact groupsSum_add_checksumOf [x]
  · rw [← groupsSum_singleton]
    exact eq_checksumOf_iff he

/-- Settles O13, from the wire bytes of the region and of the offset. -/
theorem addressRoundTrips : Obligations.AddressRoundTrips :=
  ⟨fun _ _ => exists_addrEnc, fun _ => exists_addrDec⟩

/-- Settles O8, by the outcomes of `ADDR_DEC`. -/
theorem addrDecDecodesRegionThenOffset : Obligations.AddrDecDecodesRegionThenOffset := by
  intro s b
  refine ⟨fun hfits => Laws.RoundTrip.addrDec b (listFits_iff.2 hfits), ?_, ?_, fun hlen =>
    answers_addrDec_of_error (addrDec_of_length hlen)⟩
  · rintro r1 r0 o1 o0 rfl hb
    exact answers_addrDec_of_ok (addrDec_of_safe hb)
  · rintro pre x post rfl hlen hp hx
    exact answers_addrDec_of_error (addrDec_of_unsafe hlen hp hx)

/-- Settles O9, by the outcomes of `ADDR_ENC`. -/
theorem addrEncEncodesRegionThenOffset : Obligations.AddrEncEncodesRegionThenOffset := fun _ region offset =>
  ⟨Laws.RoundTrip.addrEnc region offset rfl,
    fun hr ho => answers_addrEnc_of_ok (addrEnc_of_le hr ho),
    fun hr => answers_addrEnc_of_error (addrEnc_of_region_gt hr),
    fun hr ho => answers_addrEnc_of_error (addrEnc_of_offset_gt hr ho)⟩

/-- Settles O10, from the members of `MUT`. -/
theorem isMutableTestsTheMutableSet : Obligations.IsMutableTestsTheMutableSet := by
  intro s region
  refine ⟨Laws.RoundTrip.isMutable region rfl, ?_⟩
  rw [← isMutable_eq_decide]
  exact (answers_iff rfl).2 rfl

/-- Settles O11: the bytes of the groups are summed as those of one list. -/
theorem checksumSumsAllGroups : Obligations.ChecksumSumsAllGroups := by
  intro s g
  refine ⟨fun hfits => Laws.RoundTrip.checksum g (listFits_iff.2 hfits), ?_⟩
  rw [← checksumOf_flatten]
  exact (answers_iff rfl).2 rfl

end Sys2Proof.Machine
end

section
/-! Proofs for 42_sysex_protocol.md (R140 to R155): the checks of `PARSE` one outcome at a time, the outcomes of
`SERIALIZE`, and from both that an accepted frame is, up to its checksum byte, the one that `SERIALIZE` writes for its
message. -/

namespace Sys2Proof.Machine

/-! ## What the frame unit answers -/

/-- An instruction answers the error that its function raises. -/
theorem answers_of_map_error {α : Type} {i : Instr} {s : State} {o : Except Raise α} {f : α → Reply} {e : Raise}
    (h : exec i s = answer s (o.map f)) (ho : o = .error e) : Answers i s (errorResponse e.status e.info) := by
  rw [answers_iff h, ho]
  rfl

theorem answers_parse_of_error {buf : Bytes} {s : State} {e : Raise} (h : parseFrame buf = .error e) :
    Answers (.parse buf) s (errorResponse e.status e.info) := answers_of_map_error rfl h

/-- `PARSE` answers a message and a flag exactly when it reads them from the frame. -/
theorem answers_parse_iff {buf : Bytes} {s : State} {warn : Bool} {m : Msg} :
    Answers (.parse buf) s (msgResponse warn m) ↔ parseFrame buf = .ok ⟨m, warn⟩ := by
  rw [answers_iff (o := (parseFrame buf).map parsedReply) rfl]
  cases parseFrame buf with
  | error e => simp [Except.map, Response.ofRaise, msgResponse]
  | ok p =>
    obtain ⟨msg, flag⟩ := p
    simp [Except.map, Response.ofReply, parsedReply, msgResponse, and_comm]

/-- A `SERIALIZE` answers a frame exactly when that is the frame of its message. -/
theorem answers_frame_iff {i : Instr} {s : State} {o : Except Raise Bytes} {frame : Bytes}
    (h : exec i s = answer s (o.map frameReply)) : Answers i s (okResponse (.frame frame)) ↔ o = .ok frame := by
  rw [answers_iff h]
  cases o with
  | error e => simp [Except.map, Response.ofRaise, okResponse]
  | ok b => simp [Except.map, Response.ofReply, frameReply, reply, okResponse]

/-- A message is serialized alike by `SERIALIZE` and by the row of its kind (R150). -/
theorem exec_serialize_or_row {i : Instr} {m : Msg} (s : State) (h : i ∈ [.serialize m, serializeRowOf m]) :
    exec i s = answer s ((serializeMsg m).map frameReply) := by
  simp only [List.mem_cons, List.not_mem_nil, or_false] at h
  rcases h with rfl | rfl
  · rfl
  · cases m <;> rfl

/-! ## The dialect of a framed list (R140) -/

/-- A list of six bytes or more with both markers and the given dialect byte. -/
structure Framed (buf : Bytes) (dialect : Byte) : Prop where
  head : buf.head? = some 0xF0
  last : buf.getLast? = some 0xF7
  length : 6 ≤ buf.length
  dialect : buf[1]? = some dialect

theorem parseFrame_of_short {buf : Bytes} (hhead : buf.head? = some 0xF0) (hlast : buf.getLast? = some 0xF7)
    (hlen : buf.length < 6) : parseFrame buf = .error ⟨.length, .len 6 buf.length⟩ := by
  rw [parseFrame_of_markers hhead hlast, if_pos hlen]
  rfl

section
variable {buf : Bytes}

theorem Framed.parseFrame_eq {d : Byte} (h : Framed buf d) :
    parseFrame buf = if d = univNrt then parseUniversal buf else if d = vendorId then parseVendor buf
      else raising .unknownVendor (.byte d) := by
  rw [parseFrame_of_markers h.head h.last, if_neg h.length.not_gt, byteAt_of_getElem? h.dialect]

theorem Framed.parseFrame_universal (h : Framed buf 0x7E) : parseFrame buf = parseUniversal buf :=
  h.parseFrame_eq.trans (if_pos rfl)

theorem Framed.parseFrame_vendor (h : Framed buf 0x41) : parseFrame buf = parseVendor buf :=
  h.parseFrame_eq.trans ((if_neg (by decide)).trans (if_pos rfl))

theorem Framed.parseFrame_unknown {d : Byte} (h : Framed buf d) (huniv : d ≠ 0x7E) (hvendor : d ≠ 0x41) :
    parseFrame buf = .error ⟨.unknownVendor, .byte d⟩ :=
  h.parseFrame_eq.trans ((if_neg huniv).trans (if_neg hvendor))

/-! ## The Universal path (R141, R142) -/

theorem parseUniversal_of_subid {sub : Byte} (hsub : buf[3]? = some sub) (hne : sub ≠ 0x06) :
    parseUniversal buf = .error ⟨.universalSubid, .byte sub⟩ := by
  rw [parseUniversal, byteAt_of_getElem? hsub]
  exact if_pos hne

/-- With the sub-id of the identity messages, the sub-selector decides. -/
theorem parseUniversal_of_genInfo {sel : Byte} (hsub : buf[3]? = some 0x06) (hsel : buf[4]? = some sel) :
    parseUniversal buf =
      if sel = idReq then
        if buf.length ≠ 6 then raising .length (.len 6 buf.length) else .ok ⟨.idRequest (byteAt buf 2), false⟩
      else if sel = idResp then parseIdResponse buf
      else raising .unknownOp (.byte sel) := by
  rw [parseUniversal, byteAt_of_getElem? hsub, byteAt_of_getElem? hsel]
  exact if_neg (not_not.2 rfl)

theorem parseUniversal_of_selector {sel : Byte} (hsub : buf[3]? = some 0x06) (hsel : buf[4]? = some sel)
    (hreq : sel ≠ 0x01) (hresp : sel ≠ 0x02) : parseUniversal buf = .error ⟨.unknownOp, .byte sel⟩ :=
  (parseUniversal_of_genInfo hsub hsel).trans ((if_neg hreq).trans (if_neg hresp))

theorem parseUniversal_idRequest_of_length (hsub : buf[3]? = some 0x06) (hsel : buf[4]? = some 0x01)
    (hlen : buf.length ≠ 6) : parseUniversal buf = .error ⟨.length, .len 6 buf.length⟩ :=
  (parseUniversal_of_genInfo hsub hsel).trans ((if_pos rfl).trans (if_pos hlen))

theorem parseUniversal_idRequest {dev : Byte} (hdev : buf[2]? = some dev) (hsub : buf[3]? = some 0x06)
    (hsel : buf[4]? = some 0x01) (hlen : buf.length = 6) : parseUniversal buf = .ok ⟨.idRequest dev, false⟩ := by
  rw [← byteAt_of_getElem? hdev]
  exact (parseUniversal_of_genInfo hsub hsel).trans ((if_pos rfl).trans (if_neg (not_not.2 hlen)))

theorem parseUniversal_idResponse (hsub : buf[3]? = some 0x06) (hsel : buf[4]? = some 0x02) :
    parseUniversal buf = parseIdResponse buf :=
  (parseUniversal_of_genInfo hsub hsel).trans ((if_neg (by decide)).trans (if_pos rfl))

theorem parseIdResponse_of_length (hlen : buf.length ≠ 15) :
    parseIdResponse buf = .error ⟨.length, .len 15 buf.length⟩ := if_pos hlen

theorem parseIdResponse_of_signature_ne (hlen : buf.length = 15)
    (hsig : (buf.drop 5).take 5 ≠ [0x41, 0x33, 0x03, 0x00, 0x00]) :
    parseIdResponse buf = .error ⟨.identityMismatch, .none⟩ := (if_neg (not_not.2 hlen)).trans (if_pos hsig)

theorem parseIdResponse_of_signature {dev : Byte} (hdev : buf[2]? = some dev) (hlen : buf.length = 15)
    (hsig : (buf.drop 5).take 5 = [0x41, 0x33, 0x03, 0x00, 0x00]) :
    parseIdResponse buf = .ok ⟨.idResponse dev (some ((buf.drop 10).take 4)), false⟩ := by
  rw [← byteAt_of_getElem? hdev]
  exact (if_neg (not_not.2 hlen)).trans (if_neg (not_not.2 hsig))

/-! ## The vendor path (R143 to R146) -/

theorem parseVendor_of_short (hlen : buf.length < 14) :
    parseVendor buf = .error ⟨.length, .len 14 buf.length⟩ := if_pos hlen

end

section
variable {m0 m1 m2 m3 sel r1 r0 o1 o0 : Byte} {a : U16 × U16} (dev : Byte) (payload : Bytes) (cks : Byte)

theorem parseFrame_vendorFrame_of_model (hmodel : [m0, m1, m2, m3] ≠ modelId) :
    parseFrame (vendorFrame dev m0 m1 m2 m3 sel r1 r0 o1 o0 payload cks) = .error ⟨.modelMismatch, .none⟩ :=
  (parseFrame_vendorFrame ..).trans (if_pos hmodel)

theorem parseFrame_vendorFrame_of_selector (hmodel : [m0, m1, m2, m3] = modelId) (hquery : sel ≠ opQuery)
    (hcommand : sel ≠ opCommand) :
    parseFrame (vendorFrame dev m0 m1 m2 m3 sel r1 r0 o1 o0 payload cks) = .error ⟨.unknownOp, .byte sel⟩ :=
  (parseFrame_vendorFrame ..).trans ((if_neg (not_not.2 hmodel)).trans (if_pos ⟨hquery, hcommand⟩))

/-- With the model id and a known sub-selector, the address decides, then the payload. -/
theorem parseFrame_vendorFrame_of_known (hmodel : [m0, m1, m2, m3] = modelId)
    (hsel : sel = opQuery ∨ sel = opCommand) :
    parseFrame (vendorFrame dev m0 m1 m2 m3 sel r1 r0 o1 o0 payload cks) =
      (addrDec [r1, r0, o1, o0]).bind fun a =>
        (if sel = opQuery then parseQuery dev a.1 a.2 payload else parseCommand dev a.1 a.2 payload).map fun m =>
          checkAndReturn m [r1, r0, o1, o0] payload cks := by
  have hknown : ¬ (sel ≠ opQuery ∧ sel ≠ opCommand) := by tauto
  rw [parseFrame_vendorFrame, if_neg (not_not.2 hmodel), if_neg hknown]

theorem parseFrame_vendorFrame_of_unsafe {pre post : Bytes} {x : Byte} (hmodel : [m0, m1, m2, m3] = modelId)
    (hsel : sel = opQuery ∨ sel = opCommand) (haddr : [r1, r0, o1, o0] = pre ++ x :: post) (hpre : Safe pre)
    (hx : 127 < x.toNat) :
    parseFrame (vendorFrame dev m0 m1 m2 m3 sel r1 r0 o1 o0 payload cks) = .error ⟨.bounds, .byte x⟩ := by
  have hlen : (pre ++ x :: post).length = 4 := by rw [← haddr]; rfl
  rw [parseFrame_vendorFrame_of_known _ _ _ hmodel hsel, haddr, addrDec_of_unsafe hlen hpre hx]
  rfl

/-- With a decoded address, the payload of a Query decides (R144). -/
theorem parseFrame_queryFrame_eq (haddr : addrDec [r1, r0, o1, o0] = .ok a) :
    parseFrame (vendorFrame dev 0x00 0x00 0x00 0x33 0x11 r1 r0 o1 o0 payload cks) =
      (parseQuery dev a.1 a.2 payload).map fun m => checkAndReturn m [r1, r0, o1, o0] payload cks := by
  rw [parseFrame_vendorFrame_of_known (sel := 0x11) _ _ _ rfl (.inl rfl), haddr]
  rfl

theorem parseFrame_queryFrame {size : Nat} (haddr : addrDec [r1, r0, o1, o0] = .ok a)
    (hsize : decodeK 4 payload = .ok size) :
    parseFrame (vendorFrame dev 0x00 0x00 0x00 0x33 0x11 r1 r0 o1 o0 payload cks) =
      .ok (checkAndReturn (.query dev a.1 a.2 (BitVec.ofNat 32 size)) [r1, r0, o1, o0] payload cks) := by
  rw [parseFrame_queryFrame_eq _ _ _ haddr, parseQuery, hsize]
  rfl

theorem parseFrame_queryFrame_of_error {e : Raise} (haddr : addrDec [r1, r0, o1, o0] = .ok a)
    (hsize : decodeK 4 payload = .error e) :
    parseFrame (vendorFrame dev 0x00 0x00 0x00 0x33 0x11 r1 r0 o1 o0 payload cks) = .error e := by
  rw [parseFrame_queryFrame_eq _ _ _ haddr, parseQuery, hsize]
  rfl

/-- A Command takes any payload as its data (R145). -/
theorem parseFrame_commandFrame (haddr : addrDec [r1, r0, o1, o0] = .ok a) :
    parseFrame (vendorFrame dev 0x00 0x00 0x00 0x33 0x12 r1 r0 o1 o0 payload cks) =
      .ok (checkAndReturn (.command dev a.1 a.2 payload) [r1, r0, o1, o0] payload cks) := by
  rw [parseFrame_vendorFrame_of_known (sel := 0x12) _ _ _ rfl (.inr rfl), haddr]
  rfl

end

/-! ## The outcomes of `SERIALIZE` (R152 to R154) -/

section
variable {region offset : U16} {r1 r0 o1 o0 : Byte} {e : Raise} (dev : Byte)

theorem serIdResponse_of_length {fw : Bytes} (hlen : fw.length ≠ 4) :
    serIdResponse dev (some fw) = .error ⟨.length, .len 4 fw.length⟩ := if_pos hlen

theorem serIdResponse_of_four {fw : Bytes} (hlen : fw.length = 4) :
    serIdResponse dev (some fw) =
      .ok ([0xF0, 0x7E, dev, 0x06, 0x02, 0x41, 0x33, 0x03, 0x00, 0x00] ++ fw ++ [0xF7]) :=
  if_neg (not_not.2 hlen)

/-- A Query is written as the vendor frame of its address and its size, with their checksum. -/
theorem serQuery_eq_vendorFrame {size : U32} {sz : Bytes} (haddr : addrEnc region offset = .ok [r1, r0, o1, o0])
    (hsize : encodeK 4 max28 size.toNat = .ok sz) :
    serQuery dev region offset size =
      .ok (vendorFrame dev 0x00 0x00 0x00 0x33 0x11 r1 r0 o1 o0 sz (checksumOf [[r1, r0, o1, o0], sz])) := by
  rw [serQuery, haddr, hsize]
  rfl

theorem serQuery_of_address {size : U32} (haddr : addrEnc region offset = .error e) :
    serQuery dev region offset size = .error e := by
  rw [serQuery, haddr]
  rfl

theorem serQuery_of_size {size : U32} {addr : Bytes} (haddr : addrEnc region offset = .ok addr)
    (hsize : encodeK 4 max28 size.toNat = .error e) : serQuery dev region offset size = .error e := by
  rw [serQuery, haddr, hsize]
  rfl

/-- A Command is written as the vendor frame of its address and its data, with their checksum. -/
theorem serCommand_eq_vendorFrame {data : Bytes} (haddr : addrEnc region offset = .ok [r1, r0, o1, o0]) :
    serCommand dev region offset data =
      .ok (vendorFrame dev 0x00 0x00 0x00 0x33 0x12 r1 r0 o1 o0 data (checksumOf [[r1, r0, o1, o0], data])) := by
  rw [serCommand, haddr]
  rfl

theorem serCommand_of_address {data : Bytes} (haddr : addrEnc region offset = .error e) :
    serCommand dev region offset data = .error e := by
  rw [serCommand, haddr]
  rfl

end

/-! ## The checksum byte of a frame (R146) -/

/-- The checksum over the address bytes and the payload of a vendor frame. -/
def rightChecksum (buf : Bytes) : Byte := checksumOf [(buf.drop 8).take 4, (buf.drop 12).take (buf.length - 14)]

/-- The frame with another byte in the place of its checksum. -/
def withChecksum (buf : Bytes) (k : Byte) : Bytes := buf.set (buf.length - 2) k

theorem withChecksum_of_getElem? {buf : Bytes} {k : Byte} (h : buf[buf.length - 2]? = some k) :
    withChecksum buf k = buf := by
  obtain ⟨_, rfl⟩ := List.getElem?_eq_some_iff.1 h
  exact List.set_getElem_self _

theorem withChecksum_ne {buf : Bytes} {k c : Byte} (h : buf[buf.length - 2]? = some k) (hne : k ≠ c) :
    withChecksum buf c ≠ buf := by
  intro heq
  obtain ⟨hlt, hk⟩ := List.getElem?_eq_some_iff.1 h
  have hc : (withChecksum buf c)[buf.length - 2]? = some c := List.getElem?_set_self hlt
  rw [heq, h] at hc
  exact hne (Option.some.inj hc)

theorem rightChecksum_vendorFrame (dev m0 m1 m2 m3 sel r1 r0 o1 o0 : Byte) (payload : Bytes) (cks : Byte) :
    rightChecksum (vendorFrame dev m0 m1 m2 m3 sel r1 r0 o1 o0 payload cks) =
      checksumOf [[r1, r0, o1, o0], payload] := by
  have hpayload := vendorFrame_payload dev m0 m1 m2 m3 sel r1 r0 o1 o0 payload cks
  rw [slice, Nat.sub_sub] at hpayload
  rw [rightChecksum, hpayload]
  rfl

/-- The right checksum sets no flag. -/
theorem checkAndReturn_checksumOf (m : Msg) (addr payload : Bytes) :
    checkAndReturn m addr payload (checksumOf [addr, payload]) = ⟨m, false⟩ := by
  simp [checkAndReturn]

/-! ## A frame and its message (R155) -/

theorem addrDec_base128 {r1 r0 o1 o0 : Byte} (h : Safe [r1, r0, o1, o0]) :
    addrDec [r1, r0, o1, o0] =
      .ok (BitVec.ofNat 16 (base128 [r1, r0]), BitVec.ofNat 16 (base128 [o1, o0])) := by
  rw [base128_two, base128_two, addrDec_of_safe h]

theorem encodeK_base128_four {s3 s2 s1 s0 : Byte} (h : Safe [s3, s2, s1, s0]) :
    encodeK 4 max28 (BitVec.ofNat 32 (base128 [s3, s2, s1, s0])).toNat = .ok [s3, s2, s1, s0] := by
  have hle := wireForm_four.base128_le rfl h
  rw [BitVec.toNat_ofNat, Nat.mod_eq_of_lt (by omega), max28, wireForm_four.encode _ hle, wire28_base128 h]

/-- `PARSE` reads an accepted vendor frame whatever its checksum byte, and `SERIALIZE` writes it with the right one. -/
theorem vendorFrame_of_parseFrame {buf : Bytes} {m : Msg} {warn : Bool} (h : parseFrame buf = .ok ⟨m, warn⟩)
    (hdialect : buf[1]? = some 0x41) :
    (∀ k, parseFrame (withChecksum buf k) = .ok ⟨m, k != rightChecksum buf⟩) ∧
      serializeMsg m = .ok (withChecksum buf (rightChecksum buf)) := by
  rcases parseFrame_ok_cases h with ⟨dev, rfl, -⟩ | ⟨dev, a, b, c, d, rfl, -⟩ |
    ⟨dev, r1, r0, o1, o0, s3, s2, s1, s0, cks, rfl, haddr, hsize, rfl, -⟩ |
    ⟨dev, r1, r0, o1, o0, data, cks, rfl, haddr, rfl, -⟩
  · exact absurd hdialect (by simp)
  · exact absurd hdialect (by simp)
  · simp only [rightChecksum_vendorFrame, withChecksum, vendorFrame_set]
    exact ⟨fun k => parseFrame_queryFrame dev _ k (addrDec_base128 haddr) (decodeK_of_safe rfl hsize),
      serQuery_eq_vendorFrame dev (addrEnc_base128 haddr) (encodeK_base128_four hsize)⟩
  · simp only [rightChecksum_vendorFrame, withChecksum, vendorFrame_set]
    exact ⟨fun k => parseFrame_commandFrame dev _ k (addrDec_base128 haddr),
      serCommand_eq_vendorFrame dev (addrEnc_base128 haddr)⟩

/-- The flag of an accepted vendor frame is set exactly when its checksum byte is not the right one (R146). -/
theorem warn_of_parseFrame {buf : Bytes} {m : Msg} {warn : Bool} {k : Byte} (h : parseFrame buf = .ok ⟨m, warn⟩)
    (hdialect : buf[1]? = some 0x41) (hk : buf[buf.length - 2]? = some k) : warn = (k != rightChecksum buf) := by
  obtain ⟨hparse, -⟩ := vendorFrame_of_parseFrame h hdialect
  have hparse := hparse k
  rw [withChecksum_of_getElem? hk, h, Except.ok.injEq, Parsed.mk.injEq] at hparse
  exact hparse.2

/-- An accepted frame is the one written for its message, or a vendor frame. -/
theorem serializeMsg_or_vendor_of_parseFrame {buf : Bytes} {m : Msg} {warn : Bool}
    (h : parseFrame buf = .ok ⟨m, warn⟩) :
    (warn = false ∧ serializeMsg m = .ok buf) ∨ buf[1]? = some 0x41 := by
  rcases parseFrame_ok_cases h with ⟨dev, rfl, rfl, rfl⟩ | ⟨dev, a, b, c, d, rfl, rfl, rfl⟩ |
    ⟨_, _, _, _, _, _, _, _, _, _, rfl, -⟩ | ⟨_, _, _, _, _, _, _, rfl, -⟩
  · exact .inl ⟨rfl, rfl⟩
  · exact .inl ⟨rfl, rfl⟩
  · exact .inr rfl
  · exact .inr rfl

/-- R155 (b) and (c): the frame written for the message of an accepted frame. -/
theorem serializeMsg_of_parseFrame {buf : Bytes} {m : Msg} {warn : Bool} (h : parseFrame buf = .ok ⟨m, warn⟩) :
    (warn = false ∧ serializeMsg m = .ok buf) ∨
      (warn = true ∧ serializeMsg m = .ok (withChecksum buf (rightChecksum buf)) ∧
        withChecksum buf (rightChecksum buf) ≠ buf) := by
  rcases serializeMsg_or_vendor_of_parseFrame h with hfound | hdialect
  · exact .inl hfound
  obtain ⟨hlt, -⟩ := List.getElem?_eq_some_iff.1 hdialect
  have hk : buf[buf.length - 2]? = some buf[buf.length - 2] := List.getElem?_eq_getElem (by omega)
  obtain ⟨-, hser⟩ := vendorFrame_of_parseFrame h hdialect
  rw [warn_of_parseFrame h hdialect hk]
  by_cases heq : buf[buf.length - 2] = rightChecksum buf
  · rw [heq] at hk
    rw [withChecksum_of_getElem? hk] at hser
    exact .inl ⟨by simp [heq], hser⟩
  · exact .inr ⟨by simp [heq], hser, withChecksum_ne hk heq⟩

theorem parseFrame_of_serIdResponse {dev : Byte} {fw : Option Bytes} {frame : Bytes}
    (h : serIdResponse dev fw = .ok frame) : parseFrame frame = .ok ⟨.idResponse dev fw, false⟩ := by
  cases fw with
  | none => cases h
  | some fw =>
    by_cases hlen : fw.length = 4
    · match fw, hlen with
      | [f0, f1, f2, f3], _ =>
        cases h
        rfl
    · cases (serIdResponse_of_length dev hlen).symm.trans h

/-- The four address bytes that `ADDR_ENC` answers and `ADDR_DEC` reads back. -/
theorem exists_addressBytes {region offset : U16} (hr : region.toNat ≤ 16383) (ho : offset.toNat ≤ 16383) :
    ∃ r1 r0 o1 o0, addrEnc region offset = .ok [r1, r0, o1, o0] ∧ addrDec [r1, r0, o1, o0] = .ok (region, offset) := by
  obtain ⟨b, henc, hdec⟩ := exists_addrEnc hr ho
  cases henc.symm.trans (addrEnc_of_le hr ho)
  exact ⟨_, _, _, _, henc, hdec⟩

theorem parseFrame_of_serQuery {dev : Byte} {region offset : U16} {size : U32} {frame : Bytes}
    (h : serQuery dev region offset size = .ok frame) :
    parseFrame frame = .ok ⟨.query dev region offset size, false⟩ := by
  rcases serQuery_cases dev region offset size with ⟨-, e⟩ | ⟨-, -, e⟩ | ⟨-, -, -, e⟩ | ⟨hr, ho, hz, -⟩
  · cases e.symm.trans h
  · cases e.symm.trans h
  · cases e.symm.trans h
  · obtain ⟨r1, r0, o1, o0, haddr, haddr'⟩ := exists_addressBytes hr ho
    obtain ⟨sz, hsize, -, hsize'⟩ := wireForm_four.exists_encodeK hz
    cases h.symm.trans (serQuery_eq_vendorFrame dev haddr hsize)
    rw [parseFrame_queryFrame dev sz _ haddr' hsize', checkAndReturn_checksumOf, BitVec.ofNat_toNat,
      BitVec.setWidth_eq]

theorem parseFrame_of_serCommand {dev : Byte} {region offset : U16} {data frame : Bytes}
    (h : serCommand dev region offset data = .ok frame) :
    parseFrame frame = .ok ⟨.command dev region offset data, false⟩ := by
  rcases serCommand_cases dev region offset data with ⟨-, e⟩ | ⟨-, -, e⟩ | ⟨hr, ho, -⟩
  · cases e.symm.trans h
  · cases e.symm.trans h
  · obtain ⟨r1, r0, o1, o0, haddr, haddr'⟩ := exists_addressBytes hr ho
    cases h.symm.trans (serCommand_eq_vendorFrame dev haddr)
    rw [parseFrame_commandFrame dev data _ haddr', checkAndReturn_checksumOf]

/-- R155 (a): the frame written for a message reads as that message. -/
theorem parseFrame_of_serializeMsg {m : Msg} {frame : Bytes} (h : serializeMsg m = .ok frame) :
    parseFrame frame = .ok ⟨m, false⟩ := by
  cases m with
  | idRequest dev =>
    cases h
    rfl
  | idResponse dev fw => exact parseFrame_of_serIdResponse h
  | query dev region offset size => exact parseFrame_of_serQuery h
  | command dev region offset data => exact parseFrame_of_serCommand h

/-! ## The obligations -/

/-- Settles O25, from what `PARSE` reads from a written frame and what `SERIALIZE` writes for an accepted one. -/
theorem parseAndSerializeAreInverse : Obligations.ParseAndSerializeAreInverse := by
  intro s m frame
  rw [answers_frame_iff rfl, answers_parse_iff, answers_parse_iff]
  refine ⟨parseFrame_of_serializeMsg, fun h => ?clear, fun h => ?warned⟩
  case clear =>
    rcases serializeMsg_of_parseFrame h with ⟨-, hser⟩ | ⟨hwarn, -⟩
    · exact hser
    · cases hwarn
  case warned =>
    rcases serializeMsg_of_parseFrame h with ⟨hwarn, -⟩ | ⟨-, hser, hne⟩
    · cases hwarn
    · exact ⟨_, (answers_frame_iff rfl).2 hser, hne, _, rfl, rfl⟩

/-- Settles O17: a list of 14 bytes or more is a vendor frame, whose fields are checked in order. -/
theorem parseChecksVendorFrames : Obligations.ParseChecksVendorFrames := by
  intro s buf hhead hlast hlen hdialect
  have hframed : Framed buf 0x41 := ⟨hhead, hlast, hlen, hdialect⟩
  rcases lt_or_ge buf.length 14 with hshort | hlong
  · exact ⟨fun _ => answers_parse_of_error (hframed.parseFrame_vendor.trans (parseVendor_of_short hshort)),
      fun h => absurd hshort h.not_gt, fun h => absurd hshort h.not_gt, fun h => absurd hshort h.not_gt⟩
  obtain ⟨dev, m0, m1, m2, m3, sel, r1, r0, o1, o0, payload, cks, rfl⟩ :=
    exists_vendorFrame hhead hlast hlong hdialect
  refine ⟨fun h => absurd h hlong.not_gt, fun _ hmodel => ?model, fun _ hmodel sel' hsel hquery hcommand => ?selector,
    fun _ hmodel hsel pre x post haddr hpre hx => ?address⟩
  case model => exact answers_parse_of_error (parseFrame_vendorFrame_of_model _ _ _ hmodel)
  case selector =>
    obtain rfl : sel = sel' := Option.some.inj hsel
    exact answers_parse_of_error (parseFrame_vendorFrame_of_selector _ _ _ hmodel hquery hcommand)
  case address =>
    have hknown : sel = opQuery ∨ sel = opCommand := hsel.imp Option.some.inj Option.some.inj
    exact answers_parse_of_error (parseFrame_vendorFrame_of_unsafe _ _ _ hmodel hknown haddr hpre hx)

/-- Settles O20: `PARSE` reads the message before it compares the checksum byte. -/
theorem checksumMismatchIsAdvisory : Obligations.ChecksumMismatchIsAdvisory := by
  intro s buf warn m hdialect h
  rw [answers_parse_iff] at h
  obtain ⟨hparse, -⟩ := vendorFrame_of_parseFrame h hdialect
  exact ⟨fun k => warn_of_parseFrame h hdialect, fun k => answers_parse_iff.2 (hparse k)⟩

/-- Settles O14: the framing checks come in order, and then the dialect byte decides. -/
theorem parseChecksFramingThenDialect : Obligations.ParseChecksFramingThenDialect := by
  intro s buf
  refine ⟨fun hfits => Laws.RoundTrip.parse buf (listFits_iff.2 hfits),
    fun hhead => answers_parse_of_error (parseFrame_of_start hhead),
    fun hhead hlast => answers_parse_of_error (parseFrame_of_end hhead hlast),
    fun hhead hlast hlen => answers_parse_of_error (parseFrame_of_short hhead hlast hlen),
    fun hhead hlast hlen d hdialect => ?_⟩
  have hframed : Framed buf d := ⟨hhead, hlast, hlen, hdialect⟩
  have hexec : exec (.parse buf) s = answer s ((parseFrame buf).map parsedReply) := rfl
  refine ⟨?universal, ?vendor, fun huniv hvendor => answers_parse_of_error (hframed.parseFrame_unknown huniv hvendor)⟩
  case universal =>
    rintro rfl
    rw [hexec, hframed.parseFrame_universal]
  case vendor =>
    rintro rfl
    rw [hexec, hframed.parseFrame_vendor]

/-- Settles O15, by the outcomes of the Universal path. -/
theorem parseReadsUniversalFrames : Obligations.ParseReadsUniversalFrames := by
  intro s buf dev sub sel hhead hlast hlen hdialect hdev hsub hsel
  have hparse := Framed.parseFrame_universal ⟨hhead, hlast, hlen, hdialect⟩
  refine ⟨fun hne => answers_parse_of_error (hparse.trans (parseUniversal_of_subid hsub hne)), ?_, ?_, ?_⟩
  · rintro rfl hreq hresp
    exact answers_parse_of_error (hparse.trans (parseUniversal_of_selector hsub hsel hreq hresp))
  · rintro rfl rfl hlen
    exact answers_parse_of_error (hparse.trans (parseUniversal_idRequest_of_length hsub hsel hlen))
  · rintro rfl rfl hlen
    exact answers_parse_iff.2 (hparse.trans (parseUniversal_idRequest hdev hsub hsel hlen))

/-- Settles O16, by the outcomes of the IdResponse kind. -/
theorem parseReadsIdResponseFrames : Obligations.ParseReadsIdResponseFrames := by
  intro s buf dev hhead hlast hlen hdialect hdev hsub hsel
  have hparse := (Framed.parseFrame_universal ⟨hhead, hlast, hlen, hdialect⟩).trans
    (parseUniversal_idResponse hsub hsel)
  exact ⟨fun hlen => answers_parse_of_error (hparse.trans (parseIdResponse_of_length hlen)),
    fun hlen hsig => answers_parse_of_error (hparse.trans (parseIdResponse_of_signature_ne hlen hsig)),
    fun hlen hsig => answers_parse_iff.2 (hparse.trans (parseIdResponse_of_signature hdev hlen hsig))⟩

/-- Settles O18: with a safe address, the outcomes are those of decoding the payload. -/
theorem parseReadsQueryFrames : Obligations.ParseReadsQueryFrames := by
  intro s dev r1 r0 o1 o0 cks payload haddr
  refine ⟨?safe, ?first_unsafe, fun hlen => ?length⟩
  case safe =>
    rintro s3 s2 s1 s0 rfl hsize
    rw [← base128_four]
    exact answers_parse_iff.2 (parseFrame_queryFrame _ _ _ (addrDec_of_safe haddr) (decodeK_of_safe rfl hsize))
  case first_unsafe =>
    rintro pre x post rfl hlen hpre hx
    exact answers_parse_of_error
      (parseFrame_queryFrame_of_error _ _ _ (addrDec_of_safe haddr) (decodeK_of_unsafe hlen hpre hx))
  case length =>
    exact answers_parse_of_error
      (parseFrame_queryFrame_of_error _ _ _ (addrDec_of_safe haddr) (decodeK_of_length hlen))

/-- Settles O19: with a safe address, any payload is read. -/
theorem parseReadsCommandFrames : Obligations.ParseReadsCommandFrames := by
  intro s dev r1 r0 o1 o0 cks payload haddr
  exact answers_parse_iff.2 (parseFrame_commandFrame _ _ _ (addrDec_of_safe haddr))

/-- Settles O21, by the frame of an IdRequest. -/
theorem serializeWritesIdRequest : Obligations.SerializeWritesIdRequest := by
  intro s dev i hi
  exact (answers_frame_iff (exec_serialize_or_row s hi)).2 rfl

/-- Settles O22, by the outcomes of serializing an IdResponse. -/
theorem serializeWritesIdResponse : Obligations.SerializeWritesIdResponse := by
  intro s dev fw i hi
  have hexec := exec_serialize_or_row s hi
  refine ⟨?_, ?_, ?_⟩
  · rintro rfl
    exact answers_of_map_error hexec rfl
  · rintro f rfl hlen
    exact answers_of_map_error hexec (serIdResponse_of_length dev hlen)
  · rintro f rfl hlen
    exact (answers_frame_iff hexec).2 (serIdResponse_of_four dev hlen)

/-- Settles O23, by the outcomes of encoding the address and the size. -/
theorem serializeWritesQuery : Obligations.SerializeWritesQuery := by
  intro s dev region offset size i hi
  have hexec := exec_serialize_or_row s hi
  refine ⟨fun hr ho hz a z ha hz' => ?_,
    fun hr => answers_of_map_error hexec (serQuery_of_address dev (addrEnc_of_region_gt hr)),
    fun hr ho => answers_of_map_error hexec (serQuery_of_address dev (addrEnc_of_offset_gt hr ho)),
    fun hr ho hz => answers_of_map_error hexec (serQuery_of_size dev (addrEnc_of_le hr ho) (encodeK_of_gt hz))⟩
  subst ha hz'
  exact (answers_frame_iff hexec).2
    (serQuery_eq_vendorFrame dev (addrEnc_of_le hr ho) (wireForm_four.encode size.toNat hz))

/-- Settles O24, by the outcomes of encoding the address. -/
theorem serializeWritesCommand : Obligations.SerializeWritesCommand := by
  intro s dev region offset data i hi
  have hexec := exec_serialize_or_row s hi
  refine ⟨fun hr ho a ha => ?_,
    fun hr => answers_of_map_error hexec (serCommand_of_address dev (addrEnc_of_region_gt hr)),
    fun hr ho => answers_of_map_error hexec (serCommand_of_address dev (addrEnc_of_offset_gt hr ho))⟩
  subst ha
  exact (answers_frame_iff hexec).2 (serCommand_eq_vendorFrame dev (addrEnc_of_le hr ho))

end Sys2Proof.Machine
end

section
/-! Proofs for 43_patch_store.md (R179 to R187): the outcomes of each reader one check at a time, what the write walk
leaves in a slot and counts, and from both that the readers return what was written and that a second write changes
nothing. -/

namespace Sys2Proof.Machine

/-! ## Answers -/

section
variable {i : Instr} {s : State} {o : Except Raise Reply}

theorem answers_of_error {status : Status} {info : Info} (h : exec i s = answer s o)
    (ho : o = .error ⟨status, info⟩) : Answers i s (errorResponse status info) := by
  rw [answers_iff h, ho]
  rfl

/-- An instruction answers a result exactly when its function computes it. -/
theorem answers_ok_iff {α : Type} {o : Except Raise α} {f : α → Reply} {r : Result} (h : exec i s = answer s (o.map f))
    (hr : r ≠ .none) : Answers i s (okResponse r) ↔ ∃ a, o = .ok a ∧ f a = reply r := by
  rw [answers_iff h]
  cases o with
  | error e => simp [Except.map, Response.ofRaise, okResponse, hr.symm]
  | ok a =>
    cases hf : f a
    simp [Except.map, hf, Response.ofReply, okResponse, reply]

end

/-! ## The checks, one outcome at a time (R179, R183 to R185) -/

theorem checkSlot_of_alive {s : State} {sid : Byte} (hsid : sid.toNat < Config.nStores)
    (halive : s.alive sid.toNat = true) : checkSlot s sid = .ok () :=
  if_neg (by simp [halive, hsid])

theorem checkOffset_of_gt {offset : U16} (h : 2326 < offset.toNat) :
    checkOffset offset = .error ⟨.bounds, .addr offset.toNat⟩ := if_pos h

theorem checkOffset_of_le {offset : U16} (h : offset.toNat ≤ 2326) : checkOffset offset = .ok () := if_neg h.not_gt

theorem storageOf_of_discarded {a : Nat} (h : translateAddr a = .discarded) :
    storageOf a = .error ⟨.discardedOffset, .addr a⟩ := by
  rw [storageOf, h]
  rfl

theorem storageOf_of_mapped {a t : Nat} (h : translateAddr a = .mapped t) : storageOf a = .ok t := by
  rw [storageOf, h]

theorem checkSafe_of_safe {v : Bytes} (h : Safe v) : checkSafe v = .ok v := by
  rw [checkSafe, find_safe h]

theorem checkSafe_of_unsafe {pre post : Bytes} {x : Byte} (hp : Safe pre) (hx : 127 < x.toNat) :
    checkSafe (pre ++ x :: post) = .error ⟨.bounds, .byte x⟩ := by
  rw [checkSafe, find_unsafe hp hx]
  rfl

theorem isMapped_iff {a : Nat} : isMapped a = true ↔ ∃ t, translateAddr a = .mapped t := by
  unfold isMapped
  cases translateAddr a <;> simp

/-- The offset of a cell passes the range check (R28 (d)). -/
theorem le_maxOffset_of_mapped {a t : Nat} (h : translateAddr a = .mapped t) : a ≤ 2326 := by
  by_contra hgt
  cases h.symm.trans (translateAddr_of_gap (by omega))

/-! ## The readers on an alive slot -/

section
variable {s : State} {sid : Byte} {offset : U16} (hsid : sid.toNat < Config.nStores)
  (halive : s.alive sid.toNat = true)
include hsid halive

theorem getByte_of_gt (h : 2326 < offset.toNat) :
    getByte s sid offset = .error ⟨.bounds, .addr offset.toNat⟩ := by
  rw [getByte, checkSlot_of_alive hsid halive, checkOffset_of_gt h]
  rfl

theorem getByte_of_discarded (hle : offset.toNat ≤ 2326) (h : translateAddr offset.toNat = .discarded) :
    getByte s sid offset = .error ⟨.discardedOffset, .addr offset.toNat⟩ := by
  rw [getByte, checkSlot_of_alive hsid halive, checkOffset_of_le hle, storageOf_of_discarded h]
  rfl

/-- At a mapped offset `GET_BYTE` decodes the cell (R183). -/
theorem exec_getByte_of_mapped {t : Nat} (h : translateAddr offset.toNat = .mapped t) :
    exec (.getByte sid offset) s = answer s
      ((decodeK 1 [(s.cells sid.toNat).read t]).map fun v => reply (.byteValue (BitVec.ofNat 8 v))) := by
  refine congrArg (answer s) (?_ : getByte s sid offset = _)
  rw [getByte, checkSlot_of_alive hsid halive, checkOffset_of_le (le_maxOffset_of_mapped h), storageOf_of_mapped h,
    ← memRead_one]
  rfl

/-- `GET_BYTE` at a mapped offset answers the cell exactly when it is safe (R183). -/
theorem answers_getByte_iff {t : Nat} {x : Byte} (h : translateAddr offset.toNat = .mapped t) :
    Answers (.getByte sid offset) s (okResponse (.byteValue x)) ↔ (s.cells sid.toNat).read t = x ∧ x.toNat ≤ 127 := by
  rw [answers_ok_iff (exec_getByte_of_mapped hsid halive h) (by nofun)]
  constructor
  · rintro ⟨v, hv, hx⟩
    obtain ⟨-, hsafe, rfl⟩ := decodeK_eq_ok hv
    obtain rfl : (s.cells sid.toNat).read t = x := by simpa [reply] using hx
    exact ⟨rfl, hsafe _ List.mem_cons_self⟩
  · rintro ⟨rfl, hx⟩
    exact ⟨_, decodeK_of_safe rfl (List.forall_mem_singleton.2 hx), by rw [base128_one, ofNat8_toNat]⟩

theorem getShort_of_gt (h : 2326 < offset.toNat) :
    getShort s sid offset = .error ⟨.bounds, .addr offset.toNat⟩ := by
  rw [getShort, checkSlot_of_alive hsid halive, checkOffset_of_gt h]
  rfl

theorem getShort_of_discarded (hle : offset.toNat ≤ 2326) (h : translateAddr offset.toNat = .discarded) :
    getShort s sid offset = .error ⟨.discardedOffset, .addr offset.toNat⟩ := by
  rw [getShort, checkSlot_of_alive hsid halive, checkOffset_of_le hle, storageOf_of_discarded h]
  rfl

theorem getShort_of_next_discarded {t : Nat} (h : translateAddr offset.toNat = .mapped t)
    (hnext : translateAddr (offset.toNat + 1) = .discarded) :
    getShort s sid offset = .error ⟨.discardedOffset, .addr (offset.toNat + 1)⟩ := by
  rw [getShort, checkSlot_of_alive hsid halive, checkOffset_of_le (le_maxOffset_of_mapped h), storageOf_of_mapped h,
    storageOf_of_discarded hnext]
  rfl

/-- At two mapped offsets `GET_SHORT` decodes the two cells (R184). -/
theorem exec_getShort_of_mapped {t u : Nat} (h : translateAddr offset.toNat = .mapped t)
    (hnext : translateAddr (offset.toNat + 1) = .mapped u) :
    exec (.getShort sid offset) s = answer s
      ((decodeK 2 [(s.cells sid.toNat).read t, (s.cells sid.toNat).read u]).map
        fun v => reply (.shortValue (BitVec.ofNat 16 v))) := by
  refine congrArg (answer s) (?_ : getShort s sid offset = _)
  rw [getShort, checkSlot_of_alive hsid halive, checkOffset_of_le (le_maxOffset_of_mapped h), storageOf_of_mapped h,
    storageOf_of_mapped hnext, ← List.singleton_append, ← memRead_one, ← memRead_one]
  rfl

/-- `GET_FX_CHAIN` checks the fixed range (R185). -/
theorem exec_getFxChain_of_alive :
    exec (.getFxChain sid) s = answer s
      ((checkSafe (memRead (s.cells sid.toNat) fxBase fxLen)).map fun v => reply (.values v)) := by
  refine congrArg (answer s) (?_ : getFxChain s sid = _)
  rw [getFxChain, checkSlot_of_alive hsid halive]
  rfl

/-- `GET_FX_CHAIN` answers the fixed range exactly when all its cells are safe (R185). -/
theorem answers_getFxChain_iff {v : Bytes} :
    Answers (.getFxChain sid) s (okResponse (.values v)) ↔
      v = memRead (s.cells sid.toNat) fxBase fxLen ∧ Safe v := by
  rw [answers_ok_iff (exec_getFxChain_of_alive hsid halive) (by nofun)]
  constructor
  · rintro ⟨w, hw, hv⟩
    obtain ⟨hsafe, rfl⟩ := checkSafe_eq_ok hw
    obtain rfl : memRead (s.cells sid.toNat) fxBase fxLen = v := by simpa [reply] using hv
    exact ⟨rfl, hsafe⟩
  · rintro ⟨rfl, hsafe⟩
    exact ⟨_, checkSafe_of_safe hsafe, rfl⟩

end

/-! ## The write walk -/

theorem walkLoop_add (data : Bytes) (n k : Nat) (w : Walk) :
    walkLoop data (n + k) w = walkLoop data k (walkLoop data n w) := by
  induction n generalizing w with
  | zero => rw [Nat.zero_add, walkLoop]
  | succ n ih =>
    rw [Nat.succ_add, walkLoop, walkLoop]
    split
    · exact ih _
    · cases k with
      | zero => rw [walkLoop]
      | succ k => rw [walkLoop, if_neg ‹_›]

/-- A loop whose input is consumed does no more. -/
theorem walkLoop_of_consumed {data : Bytes} {w : Walk} (h : w.i = data.length) (fuel : Nat) :
    walkLoop data fuel w = w := by
  cases fuel with
  | zero => rfl
  | succ fuel => rw [walkLoop, if_neg h.not_lt]

/-- R186 (d), on any storage. -/
theorem writeWalk_consumes (m : Memory) (off : Nat) (data : Bytes) : (writeWalk m off data).i = data.length :=
  walkLoop_consumes _ (by simp [walkStart]) (by simp [walkStart])

/-- More passes than R186 (d) allows do no more. -/
theorem walkLoop_of_le {data : Bytes} {fuel : Nat} (m : Memory) (off : Nat) (h : data.length + 4 ≤ fuel) :
    walkLoop data fuel (walkStart off m) = writeWalk m off data := by
  obtain ⟨k, rfl⟩ := Nat.exists_eq_add_of_le h
  rw [walkLoop_add]
  exact walkLoop_of_consumed (writeWalk_consumes m off data) k

section
variable {m : Memory} (hm : Memory.Wf m) (off : Nat) (data : Bytes)
include hm

/-- R186 (a). -/
theorem writeWalk_read_stored {j k : Nat} {x : Byte} (hx : data[j]? = some x)
    (hk : translateAddr (off + j) = .mapped k) : (writeWalk m off data).cells.read k = x := by
  obtain ⟨hinv, hend⟩ := writeWalk_spec hm off data
  obtain ⟨hj, _⟩ := List.getElem?_eq_some_iff.1 hx
  exact hinv.stored j x k (hend ▸ hj) hx hk

/-- R186 (b). -/
theorem writeWalk_read_untouched {k : Nat} (hk : ∀ j < data.length, translateAddr (off + j) ≠ .mapped k) :
    (writeWalk m off data).cells.read k = m.read k := by
  obtain ⟨hinv, hend⟩ := writeWalk_spec hm off data
  exact hinv.untouched k (hend ▸ hk)

/-- R186 (c). -/
theorem writeWalk_counts :
    (writeWalk m off data).written = (List.range data.length).countP (fun j => isMapped (off + j)) ∧
    (writeWalk m off data).written + (writeWalk m off data).discarded = data.length := by
  obtain ⟨hinv, hend⟩ := writeWalk_spec hm off data
  exact ⟨hend ▸ hinv.written, hend ▸ hinv.counts⟩

/-- A second walk over the storage that the first one leaves writes what is there already (R48). -/
theorem writeWalk_cells_idem :
    (writeWalk (writeWalk m off data).cells off data).cells = (writeWalk m off data).cells := by
  have hm' := writeWalk_wf hm off data
  refine Memory.ext_of_read (writeWalk_wf hm' off data) hm' fun k => ?_
  by_cases hk : ∃ j < data.length, translateAddr (off + j) = .mapped k
  · obtain ⟨j, hj, hmap⟩ := hk
    have hx := List.getElem?_eq_getElem hj
    rw [writeWalk_read_stored hm' off data hx hmap, writeWalk_read_stored hm off data hx hmap]
  · exact writeWalk_read_untouched hm' off data fun j hj hmap => hk ⟨j, hj, hmap⟩

/-- A second walk counts as the first one (R48). -/
theorem writeWalk_counts_idem :
    (writeWalk (writeWalk m off data).cells off data).written = (writeWalk m off data).written ∧
    (writeWalk (writeWalk m off data).cells off data).discarded = (writeWalk m off data).discarded := by
  obtain ⟨hwritten, hsum⟩ := writeWalk_counts hm off data
  obtain ⟨hwritten', hsum'⟩ := writeWalk_counts (writeWalk_wf hm off data) off data
  omega

end

theorem countP_range_le {p : Nat → Bool} {b : Nat} (h : ∀ j, p j = true → j < b) (n : Nat) :
    (List.range n).countP p ≤ b := by
  have hsub : (List.range n).filter p ⊆ List.range b := fun j hj => List.mem_range.2 (h j (List.of_mem_filter hj))
  rw [List.countP_eq_length_filter]
  simpa using ((List.nodup_range.filter p).subperm hsub).length_le

/-- A written count always fits its 32-bit container: no offset past the last row is mapped. -/
theorem countP_isMapped_lt (off n : Nat) : (List.range n).countP (fun j => isMapped (off + j)) < 2 ^ 32 := by
  have hle := countP_range_le (p := fun j => isMapped (off + j)) (b := 2327) (fun j hj => by
    obtain ⟨t, ht⟩ := isMapped_iff.1 hj
    have := le_maxOffset_of_mapped ht
    omega) n
  omega

/-! ## Creating a store -/

theorem createSlot_cells_self {s : State} {sid : Nat} (h : sid < s.slots.length) :
    (s.createSlot sid).cells sid = Memory.zeroFill := by
  rw [State.cells, createSlot_self h]

theorem createSlot_alive_self {s : State} {sid : Nat} (h : sid < s.slots.length) :
    (s.createSlot sid).alive sid = true := by
  rw [State.alive, createSlot_self h]

/-- Creating a store twice is creating it once. -/
theorem createSlot_createSlot (s : State) (sid : Nat) : (s.createSlot sid).createSlot sid = s.createSlot sid := by
  have hslots : ((s.createSlot sid).createSlot sid).slots = (s.createSlot sid).slots := by
    apply List.ext_getElem?
    intro j
    by_cases hj : j = sid
    · subst hj
      rw [createSlot_slot_self, createSlot_slot_self, Option.map_map]
      rfl
    · exact createSlot_slot_other _ hj
  exact congrArg (fun slots => { s with slots }) hslots

section
variable (s : State) {sid enc : Byte}

theorem patchNew_of_ge (enc : Byte) (h : Config.nStores ≤ sid.toNat) :
    patchNew s sid enc = .error ⟨.noStore, .byte sid⟩ := if_pos h

theorem patchNew_of_encoding_ne (hsid : sid.toNat < Config.nStores) (henc : enc ≠ Config.sparseEncodingId) :
    patchNew s sid enc = .error ⟨.unknownEncoding, .byte enc⟩ := (if_neg hsid.not_ge).trans (if_pos henc)

theorem exec_patchNew_of_valid (hsid : sid.toNat < Config.nStores) (henc : enc = Config.sparseEncodingId) :
    exec (.patchNew sid enc) s = .next ((s.createSlot sid.toNat).respond (okResponse .none)) :=
  congrArg (finish s) ((if_neg hsid.not_ge).trans (if_neg (not_not_intro henc)))

theorem answers_patchNew_of_error {s : State} {status : Status} {info : Info}
    (h : patchNew s sid enc = .error ⟨status, info⟩) :
    Answers (.patchNew sid enc) s (errorResponse status info) := congrArg (finish s) h

end

/-! ## Performing a writer twice (R48) -/

theorem respond_createSlot (s : State) (r : Response) (sid : Nat) :
    (s.respond r).createSlot sid = (s.createSlot sid).respond r := rfl

theorem respond_setCells (s : State) (r : Response) (sid : Nat) (m : Memory) :
    (s.respond r).setCells sid m = (s.setCells sid m).respond r := rfl

/-- At the state `t` that `i` leaves of `s`, `i` gives the response it gave and changes nothing else. -/
def RepeatsAfter (i : Instr) (s t : State) : Prop := ∃ r, t.responses = s.responses ++ [r] ∧ Answers i t r

theorem repeatsAfter_of_answers {i : Instr} {s t : State} {r : Response} (hexec : exec i s = .next t)
    (hs : Answers i s r) (ht : Answers i (s.respond r) r) : RepeatsAfter i s t := by
  cases hexec.symm.trans hs
  exact ⟨r, rfl, ht⟩

theorem patchNew_repeatsAfter {sid enc : Byte} {s t : State} (hexec : exec (.patchNew sid enc) s = .next t) :
    RepeatsAfter (.patchNew sid enc) s t := by
  rcases patchNew_cases s sid enc with ⟨hge, h⟩ | ⟨hlt, henc, h⟩ | ⟨hlt, henc, -⟩
  · exact repeatsAfter_of_answers hexec (answers_patchNew_of_error h)
      (answers_patchNew_of_error (patchNew_of_ge _ enc hge))
  · exact repeatsAfter_of_answers hexec (answers_patchNew_of_error h)
      (answers_patchNew_of_error (patchNew_of_encoding_ne _ hlt henc))
  · cases hexec.symm.trans (exec_patchNew_of_valid s hlt henc)
    refine ⟨okResponse .none, rfl, (exec_patchNew_of_valid _ hlt henc).trans ?_⟩
    rw [respond_createSlot, createSlot_createSlot]
    rfl

theorem writeBytes_repeatsAfter {sid : Byte} {offset : U16} {data : Bytes} {s t : State} (hinv : s.Inv)
    (hexec : exec (.writeBytes sid offset data) s = .next t) : RepeatsAfter (.writeBytes sid offset data) s t := by
  rcases checkSlot_cases s sid with ⟨hdead, -⟩ | ⟨hsid, halive, -⟩
  · have hchecks := checksSlot_writeBytes sid offset data
    exact repeatsAfter_of_answers hexec (hchecks.answers_noStore hdead) (hchecks.answers_noStore hdead)
  · have hm := hinv.cells_wf sid.toNat
    obtain ⟨hwritten, hdiscarded⟩ := writeWalk_counts_idem hm offset.toNat data
    cases hexec.symm.trans (exec_writeBytes offset data hsid halive)
    refine ⟨_, rfl, (exec_writeBytes offset data hsid (by rwa [respond_alive, setCells_alive])).trans ?_⟩
    rw [respond_cells, setCells_cells_self _ halive, writeWalk_cells_idem hm, hwritten, hdiscarded,
      respond_setCells, setCells_setCells]
    rfl

/-! ## What `APPLY` does with a message -/

/-- A message that does not write has its payload length counted as discarded (R181). -/
theorem answers_apply_of_unwritten {s : State} {sid : Byte} {m : Msg} (hsid : sid.toNat < Config.nStores)
    (halive : s.alive sid.toNat = true) (h : applyMsg s sid m = (s, writeStat 0 (payloadLen m))) :
    Answers (.apply sid m) s (statResponse 0 (payloadLen m)) := by
  rw [Answers, exec_apply m hsid halive, h]
  rfl

theorem applyMsg_of_mutable {region : U16} (s : State) (sid dev : Byte) (offset : U16) (data : Bytes)
    (h : isMutable region = true) : applyMsg s sid (.command dev region offset data) = walkSlot s sid offset data :=
  if_pos h

theorem applyMsg_of_not_mutable {region : U16} (s : State) (sid dev : Byte) (offset : U16) (data : Bytes)
    (h : isMutable region ≠ true) :
    applyMsg s sid (.command dev region offset data) = (s, writeStat 0 data.length) := if_neg h

theorem isMutable_iff_mem (region : U16) :
    isMutable region = true ↔ region.toNat ∈ [2049, 2050, 2051, 2052, 12288] := List.contains_iff_mem

/-! ## The obligations -/

/-- Settles O35, by the outcomes of the checks. -/
theorem getByteReadsOneMappedCell : Obligations.GetByteReadsOneMappedCell := by
  intro s sid offset
  refine ⟨Laws.RoundTrip.getByte sid offset rfl, (checksSlot_getByte sid offset).answers_noStore,
    fun hsid halive => ⟨fun hgt => answers_of_error rfl (getByte_of_gt hsid halive hgt),
      fun hle hgap => answers_of_error rfl (getByte_of_discarded hsid halive hle hgap), ?mapped⟩⟩
  case mapped =>
    rintro t x hmap rfl
    exact ⟨fun hx => answers_of_map_error (exec_getByte_of_mapped hsid halive hmap)
        (decodeK_of_unsafe (pre := []) rfl (List.forall_mem_nil _) hx),
      fun hx => (answers_getByte_iff hsid halive hmap).2 ⟨rfl, hx⟩⟩

/-- Settles O36, by the outcomes of the checks. -/
theorem getShortReadsTwoMappedCells : Obligations.GetShortReadsTwoMappedCells := by
  intro s sid offset
  refine ⟨Laws.RoundTrip.getShort sid offset rfl, (checksSlot_getShort sid offset).answers_noStore,
    fun hsid halive => ⟨fun hgt => answers_of_error rfl (getShort_of_gt hsid halive hgt),
      fun hle hgap => answers_of_error rfl (getShort_of_discarded hsid halive hle hgap),
      fun t hmap hgap => answers_of_error rfl (getShort_of_next_discarded hsid halive hmap hgap), ?mapped⟩⟩
  case mapped =>
    rintro t u x y hmap hnext rfl rfl
    have hexec := exec_getShort_of_mapped hsid halive hmap hnext
    exact ⟨fun hx => answers_of_map_error hexec (decodeK_of_unsafe (pre := []) rfl (List.forall_mem_nil _) hx),
      fun hx hy => answers_of_map_error hexec
        (decodeK_of_unsafe (pre := [_]) rfl (List.forall_mem_singleton.2 hx) hy),
      fun hx hy => (answers_ok_iff hexec (by nofun)).2
        ⟨_, decodeK_of_safe rfl (List.forall_mem_cons.2 ⟨hx, List.forall_mem_singleton.2 hy⟩), by rw [base128_two]⟩⟩

/-- Settles O37, by the outcomes of the 7-bit check. -/
theorem getFxChainReadsTheFixedRange : Obligations.GetFxChainReadsTheFixedRange := by
  intro s sid
  refine ⟨Laws.RoundTrip.getFxChain sid rfl, (checksSlot_getFxChain sid).answers_noStore, fun hsid halive v hv => ?_⟩
  refine ⟨fun hsafe => (answers_getFxChain_iff hsid halive).2 ⟨hv, hsafe⟩, ?_⟩
  rintro pre x post hsplit hpre hx
  have hexec := exec_getFxChain_of_alive hsid halive
  have hrange : memRead (s.cells sid.toNat) fxBase fxLen = pre ++ x :: post := hv.symm.trans hsplit
  rw [hrange] at hexec
  exact answers_of_map_error hexec (checkSafe_of_unsafe hpre hx)

/-- Settles O31, by the three outcomes of `PATCH_NEW`. -/
theorem patchNewCreatesAZeroFilledSlot : Obligations.PatchNewCreatesAZeroFilledSlot := by
  rintro s sid enc ⟨hlength, -⟩
  refine ⟨Laws.RoundTrip.patchNew sid enc rfl, fun hge => answers_patchNew_of_error (patchNew_of_ge s enc hge),
    fun hlt henc => answers_patchNew_of_error (patchNew_of_encoding_ne s hlt henc), fun hlt henc => ?created⟩
  case created =>
    have hslot : sid.toNat < s.slots.length := hlength ▸ hlt
    refine ⟨_, exec_patchNew_of_valid s hlt henc, createSlot_alive_self hslot, fun i => ?_,
      fun j hj => createSlot_slot_other s hj, rfl, rfl⟩
    rw [respond_cells, createSlot_cells_self hslot, Memory.read_zeroFill]

/-- Settles O33: the walk on the slot's storage gives each clause of R186. -/
theorem writeBytesStoresTheMappedBytes : Obligations.WriteBytesStoresTheMappedBytes := by
  intro s sid offset data hinv hsid halive
  have hm := hinv.cells_wf sid.toNat
  refine ⟨⟨_, exec_writeBytes offset data hsid halive, ?stored, ?untouched, ?alive, ?slots, rfl, ?counts⟩,
    fun m => ⟨writeWalk_consumes m _ data, fun fuel => walkLoop_of_le m _⟩, fun j l k hj hl => ?injective⟩
  case stored =>
    intro j x k hx hk
    rw [respond_cells, setCells_cells_self _ halive]
    exact writeWalk_read_stored hm _ data hx hk
  case untouched =>
    intro k hk
    rw [respond_cells, setCells_cells_self _ halive]
    exact writeWalk_read_untouched hm _ data hk
  case alive => rw [respond_alive, setCells_alive, halive]
  case slots => exact fun j hj => setCells_slot_other s _ hj
  case counts =>
    rintro written rfl
    obtain ⟨hwritten, hsum⟩ := writeWalk_counts hm offset.toNat data
    refine ⟨_, _, rfl, ?_, fun hlt => ?_⟩
    · rw [hwritten, countField_of_lt (countP_isMapped_lt _ _)]
    · rw [← hwritten] at hlt ⊢
      rw [countField_of_lt (by omega)]
      omega
  case injective =>
    have := translateAddr_injective hj hl
    omega

/-- Settles O38: the written cells, read back. -/
theorem readersReturnWhatWasWritten : Obligations.ReadersReturnWhatWasWritten := by
  intro s sid offset hinv hsid halive
  refine ⟨fun x hmapped hx => ?byte, fun hi lo hmapped hmapped' hhi hlo => ?short, fun v j x hj hfx hbyte => ?fx⟩
  case byte =>
    obtain ⟨k, hk⟩ := isMapped_iff.1 hmapped
    obtain ⟨⟨t, hexec, hstored, -, halive', -⟩, -⟩ := writeBytesStoresTheMappedBytes s sid offset [x] hinv hsid halive
    obtain ⟨-, -, hget⟩ := getByteReadsOneMappedCell t sid offset
    obtain ⟨-, -, hcell⟩ := hget hsid halive'
    exact ⟨t, hexec, (hcell k x hk (hstored 0 x k rfl hk)).2 hx⟩
  case short =>
    obtain ⟨k, hk⟩ := isMapped_iff.1 hmapped
    obtain ⟨l, hl⟩ := isMapped_iff.1 hmapped'
    obtain ⟨⟨t, hexec, hstored, -, halive', -⟩, -⟩ :=
      writeBytesStoresTheMappedBytes s sid offset [hi, lo] hinv hsid halive
    obtain ⟨-, -, hget⟩ := getShortReadsTwoMappedCells t sid offset
    obtain ⟨-, -, -, hcells⟩ := hget hsid halive'
    obtain ⟨-, -, hvalue⟩ := hcells k l hi lo hk hl (hstored 0 hi k rfl hk) (hstored 1 lo l rfl hl)
    exact ⟨t, hexec, hvalue hhi hlo⟩
  case fx =>
    have hoffset : (BitVec.ofNat 16 (1013 + j)).toNat = 1013 + j := by
      rw [BitVec.toNat_ofNat]
      exact Nat.mod_eq_of_lt (by omega)
    have hmap : translateAddr (BitVec.ofNat 16 (1013 + j)).toNat = .mapped (1013 + j - 85) := by
      rw [hoffset]
      exact translateAddr_of_mem (row := ⟨192, 1059, 85⟩) (by decide) (by omega : 192 ≤ 1013 + j)
        (by omega : 1013 + j < 1059)
    obtain ⟨rfl, -⟩ := (answers_getFxChain_iff hsid halive).1 hfx
    obtain ⟨rfl, -⟩ := (answers_getByte_iff hsid halive hmap).1 hbyte
    have hcell : fxBase + j = 1013 + j - 85 := by simp only [fxBase]; omega
    simp [memRead, fxLen, hj, hcell]

/-- Settles O39: the second performance meets the same check, and writes what is there already. -/
theorem writesAreIdempotent : Obligations.WritesAreIdempotent := by
  intro s t i hinv hi hexec
  have hrepeats : RepeatsAfter i s t := by
    rcases hi with ⟨sid, offset, data, rfl⟩ | ⟨sid, enc, rfl⟩
    · exact writeBytes_repeatsAfter hinv hexec
    · exact patchNew_repeatsAfter hexec
  obtain ⟨r, hresp, hagain⟩ := hrepeats
  exact ⟨t.respond r, r, hagain, rfl, hresp, by simp [hresp]⟩

/-- Settles O34: the slot check, then the message's kind and region. -/
theorem applyWritesOnlyMutableCommands : Obligations.ApplyWritesOnlyMutableCommands := by
  intro s sid
  refine ⟨fun m hm => Laws.RoundTrip.apply sid m hm, fun hdead m => (checksSlot_apply sid m).answers_noStore hdead,
    fun hsid halive => ⟨?mutable, ?immutable, ?query, ?idResponse, ?absent, ?idRequest⟩⟩
  case mutable =>
    intro dev region offset data hregion
    refine ⟨_, ?_, exec_writeBytes offset data hsid halive⟩
    rw [exec_apply _ hsid halive, applyMsg_of_mutable _ _ _ _ _ ((isMutable_iff_mem region).2 hregion)]
    rfl
  case immutable =>
    intro dev region offset data hregion
    have h := applyMsg_of_not_mutable s sid dev offset data (mt (isMutable_iff_mem region).1 hregion)
    exact ⟨_, answers_apply_of_unwritten hsid halive h, countField_of_lt⟩
  case query => exact fun _ _ _ _ => answers_apply_of_unwritten hsid halive rfl
  case idResponse => exact fun _ _ => ⟨_, answers_apply_of_unwritten hsid halive rfl, countField_of_lt⟩
  case absent => exact fun _ => answers_apply_of_unwritten hsid halive rfl
  case idRequest => exact fun _ => answers_apply_of_unwritten hsid halive rfl

end Sys2Proof.Machine
end

section
/-! Proofs for 60_exceptions.md (R224, R239): an operation that changes the slots answers OK, and from it that errors
change no state; and that an idle block keeps its state. -/

namespace Sys2Proof.Machine

/-! ## Which responses come with changed slots -/

/-- An instruction leaves the slots as they are, or completes: each of the three writers answers OK (R224). -/
theorem exec_slots_eq_or_status_ok {i : Instr} {s t : State} (hexec : exec i s = .next t) :
    t.slots = s.slots ∨ ∃ r, t.responses = s.responses ++ [r] ∧ r.status = .ok := by
  rcases exec_cases i s with ⟨_, e⟩ | ⟨_, _, _, _, _, e⟩ | ⟨sid, m, _, _, _, e⟩ | ⟨_, _, _, _, _, _, e⟩ <;>
    cases hexec.symm.trans e
  · exact .inl rfl
  · exact .inr ⟨_, rfl, rfl⟩
  · exact .inr ⟨_, by rw [respond_responses, applyMsg_responses], rfl⟩
  · exact .inr ⟨_, rfl, rfl⟩

/-- An instruction that answers an error leaves the slots as they are (R224). -/
theorem exec_slots_of_error {i : Instr} {s t : State} {r : Response} (hexec : exec i s = .next t)
    (hresp : t.responses = s.responses ++ [r]) (herror : r.status ≠ .ok) : t.slots = s.slots := by
  rcases exec_slots_eq_or_status_ok hexec with hslots | ⟨r', hresp', hok⟩
  · exact hslots
  · have hr : r = r' := by simpa [hresp] using hresp'
    exact absurd (hr ▸ hok) herror

/-- An instruction leaves the waiting requests as they are. -/
theorem exec_requests {i : Instr} {s t : State} (hexec : exec i s = .next t) : t.requests = s.requests := by
  obtain ⟨t', _, hexec', hrequests, _⟩ := exec_responds i s
  cases hexec.symm.trans hexec'
  exact hrequests

/-! ## The obligations -/

/-- Settles O45: only the three writers change the slots, and they answer OK where they do; a step that performs no
instruction leaves the slots as they are. -/
theorem errorsChangeNoState : Obligations.ErrorsChangeNoState := by
  refine ⟨fun i s t r hexec hresp herror => ⟨exec_slots_of_error hexec hresp herror, exec_requests hexec⟩,
    fun s t r hstep hresp herror => ?step⟩
  case step =>
    rcases step_cases s with ⟨_, e⟩ | ⟨_, rest, _, ⟨_, _, e⟩ | ⟨i, _, e⟩⟩
    · cases hstep.symm.trans e
      rfl
    · cases hstep.symm.trans e
      rfl
    · exact exec_slots_of_error (s := { s with requests := rest }) (e.symm.trans hstep) hresp herror

/-- Settles O50, by the cases of a step: the others take a request. -/
theorem idleBlockKeepsItsState : Obligations.IdleBlockKeepsItsState := by
  intro s hidle
  rcases step_cases s with ⟨_, hstep⟩ | ⟨_, _, hreq, _⟩
  · exact hstep
  · cases hidle.symm.trans hreq

end Sys2Proof.Machine
end

section
/-! Proofs for 70_reset_and_hazards.md (R250, R253): after reset no slot is alive, and from it that each store
operation but `PATCH_NEW` answers `NO_STORE`. -/

namespace Sys2Proof.Machine

/-- After reset no slot is alive, those past the last one included (R250). -/
@[simp] theorem reset_alive (sid : Nat) : State.reset.alive sid = false := by
  rw [State.alive]
  split
  next slot hslot => rw [List.eq_of_mem_replicate (List.mem_of_getElem? hslot)]
  next => rfl

/-- Settles O55: reset leaves no slot alive, so the slot check of each of the five operations fails. -/
theorem resetLeavesNoSlotAlive : Obligations.ResetLeavesNoSlotAlive :=
  ⟨List.length_replicate, reset_alive, rfl, rfl, fun sid m offset data i =>
    storeOperationsCheckTheSlotFirst State.reset sid m offset data i (.inr (reset_alive sid.toNat))⟩

end Sys2Proof.Machine
end
